-- ==== Sys2Proof/Word.lean ====
section
/-! DEFINITION. The two word types of the csa3 CORE and the code point of a character
(spec/30_encoding.md R80, R81; spec/10_state.md R20; spec/20_memory.md R61). -/

namespace Sys2Proof

/-- One memory word: an instruction or a data word, 80 bits (30_encoding.md R80). -/
abbrev Word := BitVec 80

/-- The contents of a register, of an operand value field or of a payload: 32 bits, read as a
signed integer by `BitVec.toInt` (10_state.md R20, 00_scope.md R8). -/
abbrev Value := BitVec 32

/-- An addressing-mode tag (30_encoding.md R84). -/
abbrev Tag := BitVec 4

/-- An opcode number (30_encoding.md R88). -/
abbrev Opcode := BitVec 8

/-- A character, as its Unicode code point 0 to 0x10FFFF; surrogates are among them
(20_memory.md R61, 92_eei_decisions.md D28). -/
abbrev CodePoint := Fin 1114112

end Sys2Proof
end

