-- ==== Sys2Proof/Syntax.lean ====
section
/-! DEFINITION. The instruction set of the csa3 CORE as syntax (spec/30_encoding.md R84, R86, R88, R94):
registers, operand forms and one constructor per row of spec/opcode_table.json. An operand position admits
exactly the tags of R94, so an instruction the decoder would refuse cannot be written down. -/

namespace Sys2Proof

/-- The six registers, in the order of their numbers 0 to 5 (10_state.md R20). -/
inductive Reg where
  /-- 0, the accumulator -/
  | rax
  /-- 1, base -/
  | rbx
  /-- 2, data -/
  | rdx
  /-- 3, the instruction pointer -/
  | rip
  /-- 4, the stack pointer -/
  | rsp
  /-- 5, the interrupt-control register -/
  | ric
  deriving DecidableEq, Repr

/-- A destination operand: tag 1, 2 or 4 (30_encoding.md R94). -/
inductive Dest where
  /-- tag 1: a register -/
  | reg (r : Reg)
  /-- tag 2: the cell at address `a` -/
  | direct (a : Value)
  /-- tag 4: the cell whose address is the payload of cell `a` -/
  | indirect (a : Value)
  deriving DecidableEq, Repr

/-- A value operand: tag 0, 1, 2 or 4 (30_encoding.md R94). -/
inductive Src where
  /-- tag 0: the literal `v` -/
  | imm (v : Value)
  /-- tag 1: a register -/
  | reg (r : Reg)
  /-- tag 2: the payload of the cell at address `a` -/
  | direct (a : Value)
  /-- tag 4: the payload of the cell whose address is the payload of cell `a` -/
  | indirect (a : Value)
  deriving DecidableEq, Repr

/-- The 22 mnemonics (30_encoding.md R88). -/
inductive Op where
  | halt | ei | di | iret | nop
  | jmp | jz | jnz | jn | jnn
  | add | sub | mul | div | mod | xor | and | or | cmp
  | mov | movo | movi
  deriving DecidableEq, Repr

/-- Every mnemonic, in the order of the table of 30_encoding.md R88. -/
def Op.all : List Op :=
  [.halt, .ei, .di, .iret, .nop, .jmp, .jz, .jnz, .jn, .jnn, .add, .sub, .mul, .div, .mod, .xor,
   .and, .or, .cmp, .mov, .movo, .movi]

/-- One constructor per row of spec/opcode_table.json; operand 1 first (30_encoding.md R87). A port
operand (tag 3) is its raw port number, "never dereferenced". -/
inductive Instr where
  | halt
  | ei
  | di
  | iret
  | nop
  | jmp (target : Src)
  | jz (target : Src)
  | jnz (target : Src)
  | jn (target : Src)
  | jnn (target : Src)
  | add (dst : Dest) (src : Src)
  | sub (dst : Dest) (src : Src)
  | mul (dst : Dest) (src : Src)
  | div (dst : Dest) (src : Src)
  | mod (dst : Dest) (src : Src)
  | xor (dst : Dest) (src : Src)
  | and (dst : Dest) (src : Src)
  | or (dst : Dest) (src : Src)
  | cmp (dst : Dest) (src : Src)
  | mov (dst : Dest) (src : Src)
  | movo (port : Value) (src : Src)
  | movi (dst : Dest) (port : Value)
  deriving DecidableEq, Repr

end Sys2Proof
end

