-- ==== Sys2Proof/WellFormed.lean ====
section
/-! DEFINITION. When the field tuple of a word is well formed (spec/30_encoding.md R84, R91, R92, R94),
written class by class from the table of R94. The decoder (Decode.lean) does not use this file: its own
checks follow the order of R91, and that the two agree is a statement for the provers. -/

namespace Sys2Proof

/-- What `decode` answers for an accepted word: the mnemonic and the four operand fields
(30_encoding.md R89). -/
structure Tuple where
  op : Op
  m1 : Tag
  v1 : Value
  m2 : Tag
  v2 : Value
  deriving DecidableEq, Repr

namespace WellFormed

/-- An unused operand has tag 0 and value 0 (R92). -/
def unusedOk (m : Tag) (v : Value) : Bool := m == 0#4 && v == 0#32

/-- A register operand names a register 0 to 5 (R84, R91 check 4). -/
def registerOk (v : Value) : Bool := decide (0 ≤ v.toInt ∧ v.toInt ≤ 5)

/-- A destination has tag 1, 2 or 4 (R94). -/
def destOk (m : Tag) (v : Value) : Bool := (m == 1#4 && registerOk v) || m == 2#4 || m == 4#4

/-- A value operand has tag 0, 1, 2 or 4 (R94). -/
def srcOk (m : Tag) (v : Value) : Bool := m == 0#4 || destOk m v

/-- A port operand has tag 3, with any value (R94, R90). -/
def portOk (m : Tag) : Bool := m == 3#4

end WellFormed

open WellFormed in
/-- The tuple is one that 30_encoding.md R91 accepts. -/
def Tuple.wellFormed (t : Tuple) : Bool :=
  match t.op with
  | .halt | .ei | .di | .iret | .nop => unusedOk t.m1 t.v1 && unusedOk t.m2 t.v2
  | .jmp | .jz | .jnz | .jn | .jnn => srcOk t.m1 t.v1 && unusedOk t.m2 t.v2
  | .add | .sub | .mul | .div | .mod | .xor | .and | .or | .cmp | .mov =>
    destOk t.m1 t.v1 && srcOk t.m2 t.v2
  | .movo => portOk t.m1 && srcOk t.m2 t.v2
  | .movi => destOk t.m1 t.v1 && portOk t.m2

end Sys2Proof
end

