-- ==== Sys2Proof/Decode.lean ====
section
/-! DEFINITION. The Word Codec (spec/30_encoding.md): the fields of a word (R81), the opcode map (R88), the
checks of R91 in their order, the decoder (R89) and, after it, the encoder (R96). -/

namespace Sys2Proof

/-! ## The fields of a word (R81) -/

/-- Bits 79:72. -/
def opField (w : Word) : Opcode := w.extractLsb' 72 8

/-- Bits 71:68. -/
def m1Field (w : Word) : Tag := w.extractLsb' 68 4

/-- Bits 67:36. -/
def v1Field (w : Word) : Value := w.extractLsb' 36 32

/-- Bits 35:32. -/
def m2Field (w : Word) : Tag := w.extractLsb' 32 4

/-- Bits 31:0. -/
def v2Field (w : Word) : Value := w.extractLsb' 0 32

/-- The five fields put together, the opcode at the most significant end (R81, R96). -/
def assemble (op : Opcode) (m1 : Tag) (v1 : Value) (m2 : Tag) (v2 : Value) : Word :=
  op ++ m1 ++ v1 ++ m2 ++ v2

/-! ## The opcode map -/

/-- The parameter `OPCODE_MAP` (00_scope.md R6): a table of mnemonics and their numbers. -/
abbrev OpcodeMap := List (Op × Opcode)

/-- The table of 30_encoding.md R88. -/
def standardOpcodeMap : OpcodeMap :=
  [(.halt, 0x01#8), (.ei, 0x02#8), (.di, 0x03#8), (.iret, 0x04#8), (.nop, 0x05#8),
   (.jmp, 0x10#8), (.jz, 0x11#8), (.jnz, 0x12#8), (.jn, 0x13#8), (.jnn, 0x14#8),
   (.add, 0x20#8), (.sub, 0x21#8), (.mul, 0x22#8), (.div, 0x23#8), (.mod, 0x24#8),
   (.xor, 0x25#8), (.and, 0x26#8), (.or, 0x27#8), (.cmp, 0x28#8),
   (.mov, 0x30#8), (.movo, 0x31#8), (.movi, 0x32#8)]

/-- The mnemonic a number stands for; 0x00 stands for none, whatever the table says (R91 check 1, R93). -/
def OpcodeMap.mnemonic (m : OpcodeMap) (b : Opcode) : Option Op :=
  if b = 0#8 then none
  else match m with
    | [] => none
    | (o, c) :: rest => if c = b then some o else OpcodeMap.mnemonic rest b

/-- The number of a mnemonic; 0x00, the opcode of every data word, where the table has no row for it. -/
def OpcodeMap.number : OpcodeMap → Op → Opcode
  | [], _ => 0#8
  | (o, c) :: rest, o' => if o = o' then c else OpcodeMap.number rest o'

/-- A table that gives each mnemonic one number and no number twice, 0x00 to none. -/
def OpcodeMap.wf (m : OpcodeMap) : Bool :=
  decide ((m.map Prod.fst).Nodup ∧ (m.map Prod.snd).Nodup ∧ 0#8 ∉ m.map Prod.snd
    ∧ ∀ o ∈ Op.all, o ∈ m.map Prod.fst)

/-! ## The checks of R91 -/

/-- Why a word is malformed: the five checks of 30_encoding.md R91, in its order. -/
inductive Malformed where
  /-- check 1: the opcode is assigned to no instruction -/
  | opcode
  /-- check 2: a used operand has a tag of 5 to 15 -/
  | reservedTag
  /-- check 3: a used operand has a tag R94 does not allow there -/
  | disallowedTag
  /-- check 4: a used register operand has a value outside 0 to 5 -/
  | registerNumber
  /-- check 5: an unused operand field is not zero -/
  | unusedField
  deriving DecidableEq, Repr

/-- The tags operand 1 may have; the empty list where operand 1 is unused (R94). -/
def Op.tags1 : Op → List Tag
  | .halt | .ei | .di | .iret | .nop => []
  | .jmp | .jz | .jnz | .jn | .jnn => [0#4, 1#4, 2#4, 4#4]
  | .add | .sub | .mul | .div | .mod | .xor | .and | .or | .cmp | .mov | .movi => [1#4, 2#4, 4#4]
  | .movo => [3#4]

/-- The tags operand 2 may have; the empty list where operand 2 is unused (R94). -/
def Op.tags2 : Op → List Tag
  | .halt | .ei | .di | .iret | .nop | .jmp | .jz | .jnz | .jn | .jnn => []
  | .add | .sub | .mul | .div | .mod | .xor | .and | .or | .cmp | .mov | .movo => [0#4, 1#4, 2#4, 4#4]
  | .movi => [3#4]

/-- Check 2 fails for an operand with these allowed tags. -/
def tagReserved (tags : List Tag) (m : Tag) : Bool := !tags.isEmpty && decide (4 < m.toNat)

/-- Check 3 fails for an operand with these allowed tags. -/
def tagDisallowed (tags : List Tag) (m : Tag) : Bool := !tags.isEmpty && !tags.contains m

/-- Check 4 fails for an operand with these allowed tags. -/
def numberBad (tags : List Tag) (m : Tag) (v : Value) : Bool :=
  !tags.isEmpty && m == 1#4 && decide (5 < v.toNat)

/-- Check 5 fails for an operand with these allowed tags. -/
def unusedBad (tags : List Tag) (m : Tag) (v : Value) : Bool := tags.isEmpty && !(m == 0#4 && v == 0#32)

/-- The first of checks 2 to 5 that fails, in the order of R91. -/
def Tuple.malformed (t : Tuple) : Option Malformed :=
  if tagReserved t.op.tags1 t.m1 || tagReserved t.op.tags2 t.m2 then some .reservedTag
  else if tagDisallowed t.op.tags1 t.m1 || tagDisallowed t.op.tags2 t.m2 then some .disallowedTag
  else if numberBad t.op.tags1 t.m1 t.v1 || numberBad t.op.tags2 t.m2 t.v2 then some .registerNumber
  else if unusedBad t.op.tags1 t.m1 t.v1 || unusedBad t.op.tags2 t.m2 t.v2 then some .unusedField
  else none

/-! ## From the tuple to the instruction -/

/-- The register with a given number (10_state.md R20). -/
def Reg.ofNumber (v : Value) : Option Reg :=
  match v.toNat with
  | 0 => some .rax
  | 1 => some .rbx
  | 2 => some .rdx
  | 3 => some .rip
  | 4 => some .rsp
  | 5 => some .ric
  | _ => none

/-- A register's number (10_state.md R20). -/
def Reg.number : Reg → Value
  | .rax => 0#32
  | .rbx => 1#32
  | .rdx => 2#32
  | .rip => 3#32
  | .rsp => 4#32
  | .ric => 5#32

/-- A destination operand from its tag and value (R84). -/
def Dest.ofFields (m : Tag) (v : Value) : Option Dest :=
  if m = 1#4 then (Reg.ofNumber v).map .reg
  else if m = 2#4 then some (.direct v)
  else if m = 4#4 then some (.indirect v)
  else none

/-- A value operand from its tag and value (R84). -/
def Src.ofFields (m : Tag) (v : Value) : Option Src :=
  if m = 0#4 then some (.imm v)
  else if m = 1#4 then (Reg.ofNumber v).map .reg
  else if m = 2#4 then some (.direct v)
  else if m = 4#4 then some (.indirect v)
  else none

/-- A two-operand instruction with a destination and a value. -/
def Tuple.binary (t : Tuple) (c : Dest → Src → Instr) : Option Instr :=
  (Dest.ofFields t.m1 t.v1).bind fun d => (Src.ofFields t.m2 t.v2).map (c d)

/-- A branch. -/
def Tuple.branch (t : Tuple) (c : Src → Instr) : Option Instr := (Src.ofFields t.m1 t.v1).map c

/-- The instruction a checked tuple stands for (R86, R87). -/
def Tuple.build (t : Tuple) : Option Instr :=
  match t.op with
  | .halt => some .halt
  | .ei => some .ei
  | .di => some .di
  | .iret => some .iret
  | .nop => some .nop
  | .jmp => t.branch .jmp
  | .jz => t.branch .jz
  | .jnz => t.branch .jnz
  | .jn => t.branch .jn
  | .jnn => t.branch .jnn
  | .add => t.binary .add
  | .sub => t.binary .sub
  | .mul => t.binary .mul
  | .div => t.binary .div
  | .mod => t.binary .mod
  | .xor => t.binary .xor
  | .and => t.binary .and
  | .or => t.binary .or
  | .cmp => t.binary .cmp
  | .mov => t.binary .mov
  | .movo => (Src.ofFields t.m2 t.v2).map (.movo t.v1)
  | .movi => (Dest.ofFields t.m1 t.v1).map fun d => .movi d t.v2

/-- Checks 2 to 5 of R91, then the instruction. -/
def Tuple.decode (t : Tuple) : Except Malformed Instr :=
  match t.malformed with
  | some e => .error e
  | none =>
    match t.build with
    | some i => .ok i
    | none => .error .disallowedTag

/-- `decode(w)` (30_encoding.md R89): total on all words, a malformed word refused by the name of the first
check of R91 it fails. -/
def decode (m : OpcodeMap) (w : Word) : Except Malformed Instr :=
  match m.mnemonic (opField w) with
  | none => .error .opcode
  | some o => Tuple.decode ⟨o, m1Field w, v1Field w, m2Field w, v2Field w⟩

/-- The decoder on a row of spec/opcode_table.json: one 80-bit word is the whole instruction, and the
table numbers its bits as the spec does (98_reader.md), so bits above `nbits` are 0. -/
def decodeTableWord (nbits w : Nat) : Option Instr :=
  match decode standardOpcodeMap (BitVec.ofNat 80 (w % 2 ^ nbits)) with
  | .ok i => some i
  | .error _ => none

/-! ## The encoder (R96) -/

/-- The tag of a destination operand (R84). -/
def Dest.tag : Dest → Tag
  | .reg _ => 1#4
  | .direct _ => 2#4
  | .indirect _ => 4#4

/-- The value field of a destination operand (R84). -/
def Dest.value : Dest → Value
  | .reg r => r.number
  | .direct a => a
  | .indirect a => a

/-- The tag of a value operand (R84). -/
def Src.tag : Src → Tag
  | .imm _ => 0#4
  | .reg _ => 1#4
  | .direct _ => 2#4
  | .indirect _ => 4#4

/-- The value field of a value operand (R84). -/
def Src.value : Src → Value
  | .imm v => v
  | .reg r => r.number
  | .direct a => a
  | .indirect a => a

/-- The tuple of a two-operand instruction. -/
def Tuple.ofBinary (o : Op) (d : Dest) (x : Src) : Tuple := ⟨o, d.tag, d.value, x.tag, x.value⟩

/-- The tuple of a branch; operand 2 is unused (R92). -/
def Tuple.ofBranch (o : Op) (x : Src) : Tuple := ⟨o, x.tag, x.value, 0#4, 0#32⟩

/-- The tuple of a zero-operand instruction; both operands are unused (R92). -/
def Tuple.ofZero (o : Op) : Tuple := ⟨o, 0#4, 0#32, 0#4, 0#32⟩

/-- The tuple an instruction is encoded from (R86, R92). -/
def Instr.tuple : Instr → Tuple
  | .halt => .ofZero .halt
  | .ei => .ofZero .ei
  | .di => .ofZero .di
  | .iret => .ofZero .iret
  | .nop => .ofZero .nop
  | .jmp x => .ofBranch .jmp x
  | .jz x => .ofBranch .jz x
  | .jnz x => .ofBranch .jnz x
  | .jn x => .ofBranch .jn x
  | .jnn x => .ofBranch .jnn x
  | .add d x => .ofBinary .add d x
  | .sub d x => .ofBinary .sub d x
  | .mul d x => .ofBinary .mul d x
  | .div d x => .ofBinary .div d x
  | .mod d x => .ofBinary .mod d x
  | .xor d x => .ofBinary .xor d x
  | .and d x => .ofBinary .and d x
  | .or d x => .ofBinary .or d x
  | .cmp d x => .ofBinary .cmp d x
  | .mov d x => .ofBinary .mov d x
  | .movo p x => ⟨.movo, 3#4, p, x.tag, x.value⟩
  | .movi d p => ⟨.movi, d.tag, d.value, 3#4, p⟩

/-- `encode_instruction` (R96). -/
def encode (m : OpcodeMap) (i : Instr) : Word :=
  assemble (m.number i.tuple.op) i.tuple.m1 i.tuple.v1 i.tuple.m2 i.tuple.v2

/-- `dataword(v)`, which `encode_data(v)` builds: opcode and tags zero, the payload in the operand-1 value
field, the operand-2 value field zero (00_scope.md R11, 30_encoding.md R83, R96). -/
def dataword (v : Value) : Word := assemble 0#8 0#4 v 0#4 0#32

/-- `payload(w)`: the operand-1 value field of a word, whatever its opcode (00_scope.md R11, 20_memory.md R70). -/
def payload (w : Word) : Value := v1Field w

end Sys2Proof
end

