-- ==== Sys2Proof/Config.lean ====
section
/-! DEFINITION. What is fixed for a run: the parameters of spec/00_scope.md R6 and the two port numbers. The model
has no free value: spec/93_implementation_defined.md treats no behaviour as a free draw. -/

namespace Sys2Proof

/-- A value that may not have been written yet: the mark `unwritten` of 10_state.md R21. -/
inductive Slot (α : Type) where
  /-- nothing has written it since reset -/
  | unwritten
  /-- it holds `v` -/
  | written (v : α)
  deriving DecidableEq, Repr

/-- `UNWRITTEN_POLICY` (00_scope.md R6, 10_state.md R21). -/
inductive UnwrittenPolicy where
  /-- reading an unwritten item raises `UninitialisedRead` (the spec's default) -/
  | fault
  /-- reading an unwritten item returns 0 -/
  | zero
  deriving DecidableEq, Repr

/-- The parameters of a run (00_scope.md R6, 10_state.md R36). -/
structure Params where
  /-- `MEM_SIZE`, the number of memory words -/
  memSize : Nat
  /-- `LIMIT`, the instruction-count ceiling -/
  limit : Nat
  /-- `INT_VECTOR_ADDR`, the address of the interrupt-vector cell -/
  vectorAddr : Nat
  /-- `ENTRY`, the initial instruction pointer -/
  entry : Value
  /-- `SP_RESET`, the initial stack pointer -/
  spReset : Slot Value
  /-- `UNWRITTEN_POLICY` -/
  policy : UnwrittenPolicy
  /-- `OPCODE_MAP` -/
  opcodeMap : OpcodeMap
  deriving DecidableEq, Repr

namespace Config

/-- The largest `MEM_SIZE`, 2^31 - 1 (00_scope.md R6, 92_eei_decisions.md D26). -/
def maxMemSize : Nat := 2147483647

/-- `IN_PORT` (00_scope.md R6). -/
def inPort : Int := 0

/-- `OUT_PORT` (00_scope.md R6). -/
def outPort : Int := 1

/-- The largest code point `movo` accepts, 0x10FFFF (20_memory.md R61). -/
def maxCodePoint : Int := 1114111

/-- The parameters the model's own reset state has. DESIGN CHOICE for the four the spec leaves OPEN (`memSize`,
`limit`, `vectorAddr`, `entry`; logs 3 to 6); the other three are the spec's defaults. -/
def defaultParams : Params where
  memSize := 2147483647
  limit := 2147483647
  vectorAddr := 0
  entry := 0#32
  spReset := .unwritten
  policy := .fault
  opcodeMap := standardOpcodeMap

end Config

/-- The bounds of 00_scope.md R6 (and 93_implementation_defined.md U5, U6), with an opcode map that has one number
for each mnemonic. -/
def Params.ok (p : Params) : Bool :=
  decide (1 ≤ p.memSize ∧ p.memSize ≤ Config.maxMemSize ∧ 1 ≤ p.limit ∧ p.vectorAddr < p.memSize)
    && p.opcodeMap.wf

end Sys2Proof
end

