-- ==== Sys2Proof/Machine/State.lean ====
section
/-! DEFINITION. The state of the csa3 CORE as plain data (spec/10_state.md), the conditions that end a run
(spec/60_exceptions.md R240), the outcomes' reason types, and the state after reset (spec/10_state.md R35). -/

namespace Sys2Proof.Machine

/-- A flag (10_state.md R27). -/
inductive Flag where
  | n | z | ovf
  deriving DecidableEq, Repr

/-- What an `UninitialisedRead` records: "the register, flag or address" (60_exceptions.md R240, code 9). -/
inductive Item where
  | reg (r : Reg)
  | flag (f : Flag)
  | cell (a : Int)
  deriving DecidableEq, Repr

/-- A condition a micro-step can raise, with the info it records (60_exceptions.md R240). -/
inductive Cond where
  /-- code 1: a fetched word that `decode` refuses -/
  | malformedWord (w : Word)
  /-- code 2: `movi` on an empty input queue -/
  | inputExhausted
  /-- code 4: an access or an advance outside the address range -/
  | addressOutOfRange (a : Int)
  /-- code 5: `div` or `mod` by zero; the dividend -/
  | divisionByZero (a : Int)
  /-- code 6: a write of a value outside S32 -/
  | valueOutOfRange (v : Int)
  /-- code 7: a port other than the one the instruction's direction has -/
  | illegalPort (p : Int)
  /-- code 8: `movo` of a value that is no code point -/
  | illegalCharacter (v : Int)
  /-- code 9: a read of an unwritten item under the fault policy -/
  | uninitialisedRead (x : Item)
  deriving DecidableEq, Repr

/-- The run state (10_state.md R31, 40_control_cycle.md R122). -/
inductive Status where
  | running
  /-- code 0 -/
  | halted
  /-- code 3; it records `icount` -/
  | limitExceeded (icount : Nat)
  /-- a raise: the condition with its info, and the value of `x[3]` at the raise (40_control_cycle.md R118) -/
  | raised (c : Cond) (ip : Value)
  deriving DecidableEq, Repr

/-- An input token: an integer in S32 or one character (10_state.md R33, 70_reset_and_hazards.md R285). -/
inductive Token where
  | int (v : Value)
  | char (c : CodePoint)
  deriving DecidableEq, Repr

/-- An entry of the input queue: the scheduled tick and the token (10_state.md R33). -/
structure Entry where
  tick : Nat
  token : Token
  deriving DecidableEq, Repr

/-- Memory: the cells that hold a word, as (address, word) pairs in rising order of address. A cell not listed
holds the mark `unwritten` (10_state.md R21, R32). The smallest addressable unit is the whole 80-bit word
(20_memory.md R51), so a cell is a word and no byte order exists (log 1). -/
abbrev Memory := List (Nat × Word)

/-- Why the machine stops with a fault: never. Every condition the spec lets end a run has its whole effect
given by the spec (40_control_cycle.md R118, R122), so it is a `Status` of a next state and no instruction and
no step answers `Host.Outcome.fault` (log 9). Safe: nothing is stopped that the hardware would do. -/
inductive Fault where
  deriving DecidableEq, Repr

/-- Why there is no meaning. No step answers any of these; all but the first are the launch refusals of
70_reset_and_hazards.md R282, R285 and 93_implementation_defined.md U5, U6, U19: no run exists. -/
inductive Refusal where
  /-- An instruction without a meaning yet; safe; no arm of `exec` raises it any more. -/
  | notModelled (mnemonic : String)
  /-- `launch`: `MEM_SIZE` outside 1 to 2^31 - 1 (U5); safe. -/
  | memSizeOutOfBounds
  /-- `launch`: `LIMIT` below 1 (U6); safe. -/
  | limitBelowOne
  /-- `launch`: `INT_VECTOR_ADDR` outside memory (00_scope.md R6); safe. -/
  | vectorOutsideMemory
  /-- `launch`: an `OPCODE_MAP` that is no one-to-one table without 0x00 (log 7); safe. -/
  | opcodeMapIllFormed
  /-- `launch`: an image address outside memory (R282); safe. -/
  | imageAddressOutOfRange (a : Int)
  /-- `launch`: an image address given twice (R282); safe. -/
  | imageAddressRepeated
  /-- `launch`: no entry address given and no text word to take it from (log 13); safe. -/
  | noEntry
  /-- `launch`: a scheduled tick that is no natural number (R285); safe. -/
  | inputTickNotNatural (t : Int)
  /-- `launch`: an integer token outside S32 (R285); safe. -/
  | inputTokenOutOfRange (v : Int)
  /-- `launch`: a token that is not a single character (R285); safe. -/
  | inputTokenNotOneCharacter
  deriving DecidableEq, Repr

/-- The state (10_state.md). -/
structure State where
  /-- the parameters of the run; no step changes them (10_state.md R36) -/
  params : Params
  /-- register 0, the accumulator (R20) -/
  rax : Slot Value
  /-- register 1, base (R20) -/
  rbx : Slot Value
  /-- register 2, data (R20) -/
  rdx : Slot Value
  /-- register 3, the instruction pointer; never unwritten (R24, 40_control_cycle.md R111) -/
  rip : Value
  /-- register 4, the stack pointer (R25) -/
  rsp : Slot Value
  /-- register 5, the interrupt-control register: EN is bit 0, PEND bit 1 (R26) -/
  ric : Value
  /-- N (R27) -/
  flagN : Slot Bool
  /-- Z (R27) -/
  flagZ : Slot Bool
  /-- OF (R27) -/
  flagOF : Slot Bool
  /-- trap mode (R28) -/
  trap : Bool
  /-- the tick counter (R29) -/
  tick : Nat
  /-- the instruction counter (R30) -/
  icount : Nat
  /-- the run state (R31) -/
  status : Status
  /-- memory (R32) -/
  mem : Memory
  /-- the input queue of port 0, head first (R33) -/
  inq : List Entry
  /-- the characters written to port 1, first first (R33) -/
  outq : List CodePoint
  deriving DecidableEq, Repr

/-- The state after reset, for given parameters, image cells and input (10_state.md R35). -/
def State.resetWith (p : Params) (image : Memory) (input : List Entry) : State where
  params := p
  rax := .unwritten
  rbx := .unwritten
  rdx := .unwritten
  rip := p.entry
  rsp := p.spReset
  ric := 0#32
  flagN := .unwritten
  flagZ := .unwritten
  flagOF := .unwritten
  trap := false
  tick := 0
  icount := 0
  status := .running
  mem := image
  inq := input
  outq := []

/-- The machine right after reset, before the host loads a program: the default parameters, an empty image and
an empty input (logs 2 to 6 and 11). -/
def State.reset : State := State.resetWith Config.defaultParams [] []

end Sys2Proof.Machine
end

