-- ==== Sys2Proof/Machine/Flags.lean ====
section
/-! DEFINITION. The ALU: the nine operations, the overflow correction and the three flags (spec/43_alu.md
R180 to R184), as a function of the operands alone; and the range S32 (spec/00_scope.md R8). -/

namespace Sys2Proof.Machine

/-- `v` is in S32 = [-2^31, 2^31 - 1] (00_scope.md R8). -/
def inS32 (v : Int) : Bool := decide (-2147483648 ≤ v ∧ v ≤ 2147483647)

/-- The operations of the ALU (43_alu.md R180). -/
inductive AluOp where
  | add | sub | mul | div | mod | xor | and | or | cmp
  deriving DecidableEq, Repr

/-- What one call of the ALU gives: the corrected result, which for `mul` may lie outside S32 (R183), and the
flags. -/
structure AluOut where
  result : Int
  n : Bool
  z : Bool
  ovf : Bool
  deriving DecidableEq, Repr

/-- The exact result `r` before correction (R180), or `DivisionByZero` with the dividend (R184). `Int.fdiv` and
`Int.fmod` are the floor division and floor modulo of 00_scope.md R13. -/
def aluRaw (op : AluOp) (a b : Value) : Except Cond Int :=
  match op with
  | .add => .ok (a.toInt + b.toInt)
  | .sub => .ok (a.toInt - b.toInt)
  | .mul => .ok (a.toInt * b.toInt)
  | .div => if b.toInt = 0 then .error (.divisionByZero a.toInt) else .ok (Int.fdiv a.toInt b.toInt)
  | .mod => if b.toInt = 0 then .error (.divisionByZero a.toInt) else .ok (Int.fmod a.toInt b.toInt)
  | .xor => .ok (a ^^^ b).toInt
  | .and => .ok (a &&& b).toInt
  | .or => .ok (a ||| b).toInt
  | .cmp => .ok (a.toInt - b.toInt)

/-- `Correct(r)`: the single shift by 2^31, and whether it happened (R181). -/
def correct (r : Int) : Int × Bool :=
  if 2147483648 ≤ r then (r - 2147483648, true)
  else if r ≤ -2147483648 then (r + 2147483648, true)
  else (r, false)

/-- The corrected result and the flags of an exact result: N and Z from the corrected one (R182). -/
def aluOut (r : Int) : AluOut where
  result := (correct r).1
  n := decide ((correct r).1 < 0)
  z := decide ((correct r).1 = 0)
  ovf := (correct r).2

/-- `ALU(op, a, b)` (R180). -/
def alu (op : AluOp) (a b : Value) : Except Cond AluOut :=
  match aluRaw op a b with
  | .ok r => .ok (aluOut r)
  | .error c => .error c

end Sys2Proof.Machine
end

