-- ==== Sys2Proof/Machine/Memory.lean ====
section
/-! DEFINITION. Reading and writing one cell of the memory list (spec/10_state.md R32, spec/20_memory.md R51), and its canonical
form. -/

namespace Sys2Proof.Machine

/-- The canonical form: addresses strictly rising. What an unlisted address holds is the mark `unwritten`, which
is no word, so no entry can equal it. -/
def Memory.wf : Memory → Bool
  | [] => true
  | [_] => true
  | x :: y :: rest => decide (x.1 < y.1) && Memory.wf (y :: rest)

/-- The word a cell holds, or nothing where it is `unwritten`. -/
def Memory.cell : Memory → Nat → Option Word
  | [], _ => none
  | (b, w) :: rest, a => if a = b then some w else Memory.cell rest a

/-- Memory with the word `w` in cell `a`, canonical if it was. -/
def Memory.put : Memory → Nat → Word → Memory
  | [], a, w => [(a, w)]
  | (b, x) :: rest, a, w =>
    if a < b then (a, w) :: (b, x) :: rest
    else if a = b then (a, w) :: rest
    else (b, x) :: Memory.put rest a w

end Sys2Proof.Machine
end

