-- ==== Sys2Proof/Machine/Ops.lean ====
section
/-! DEFINITION. The named operations over registers, memory and the control state: raising a condition, the
micro-step, register, flag and memory access, the stack, the instruction-pointer advance, interrupt service (trap entry)
and its return, the interrupt boundary, counting, and the fetch (spec/10_state.md, spec/20_memory.md,
spec/40_control_cycle.md, spec/60_exceptions.md). -/

namespace Sys2Proof.Machine

/-! ## Raising and micro-steps -/

/-- `raise C(info)`: the run ends with the condition and the value of `x[3]`; nothing else changes
(00_scope.md R12, 40_control_cycle.md R118). -/
def raise (c : Cond) (s : State) : State := { s with status := .raised c s.rip }

/-- `step_end()` (00_scope.md R14). -/
def stepEnd (s : State) : State := { s with tick := s.tick + 1 }

/-- One micro-step and what follows it: if the body raises, the raising micro-step leaves no effect and no tick;
otherwise its effect stands, the tick is counted, and the rest runs (40_control_cycle.md R113, R118). -/
def micro {α : Type} (body : State → Except Cond (α × State)) (rest : α → State → State) (s : State) : State :=
  match body s with
  | .error c => raise c s
  | .ok (a, t) => rest a (stepEnd t)

/-! ## Registers and flags -/

/-- What a register holds (10_state.md R20). -/
def regSlot (r : Reg) (s : State) : Slot Value :=
  match r with
  | .rax => s.rax
  | .rbx => s.rbx
  | .rdx => s.rdx
  | .rip => .written s.rip
  | .rsp => s.rsp
  | .ric => .written s.ric

/-- `x[i] <- v` for `v` in S32. -/
def setReg (r : Reg) (v : Value) (s : State) : State :=
  match r with
  | .rax => { s with rax := .written v }
  | .rbx => { s with rbx := .written v }
  | .rdx => { s with rdx := .written v }
  | .rip => { s with rip := v }
  | .rsp => { s with rsp := .written v }
  | .ric => { s with ric := v }

/-- Reading an item that may be unwritten: `UninitialisedRead` or 0, by the policy (10_state.md R21). -/
def readSlot {α : Type} (x : Slot α) (zero : α) (item : Item) (s : State) : Except Cond α :=
  match x with
  | .written v => .ok v
  | .unwritten =>
    match s.params.policy with
    | .fault => .error (.uninitialisedRead item)
    | .zero => .ok zero

/-- `ReadReg(i)` (20_memory.md R57). -/
def readReg (r : Reg) (s : State) : Except Cond Value := readSlot (regSlot r s) 0#32 (.reg r) s

/-- `WriteReg(i, v)`: `ValueOutOfRange` if `v` is not in S32 (10_state.md R23). -/
def writeReg (r : Reg) (v : Int) (s : State) : Except Cond State :=
  if inS32 v then .ok (setReg r (BitVec.ofInt 32 v) s) else .error (.valueOutOfRange v)

/-- Reading the flag N or Z or OF (10_state.md R21, R27). -/
def readFlag (f : Flag) (s : State) : Except Cond Bool :=
  match f with
  | .n => readSlot s.flagN false (.flag .n) s
  | .z => readSlot s.flagZ false (.flag .z) s
  | .ovf => readSlot s.flagOF false (.flag .ovf) s

/-- An ALU call writes all three flags (43_alu.md R182). -/
def setFlags (o : AluOut) (s : State) : State :=
  { s with flagN := .written o.n, flagZ := .written o.z, flagOF := .written o.ovf }

/-! ## Memory -/

/-- `a` is in [0, MEM_SIZE - 1] (20_memory.md R53). -/
def inMemory (a : Int) (s : State) : Bool := decide (0 ≤ a ∧ a < s.params.memSize)

/-- `MemRead(a, 1)`: the address check, then the word; an unwritten cell raises or reads as the all-zero word, by
the policy (20_memory.md R53, R54). -/
def memRead (a : Int) (s : State) : Except Cond Word :=
  if inMemory a s then
    match s.mem.cell a.toNat with
    | some w => .ok w
    | none =>
      match s.params.policy with
      | .fault => .error (.uninitialisedRead (.cell a))
      | .zero => .ok (dataword 0#32)
  else .error (.addressOutOfRange a)

/-- `MemWrite(a, 1, w)` (00_scope.md R10, 20_memory.md R53). -/
def memWrite (a : Int) (w : Word) (s : State) : Except Cond State :=
  if inMemory a s then .ok { s with mem := s.mem.put a.toNat w } else .error (.addressOutOfRange a)

/-- `ReadPayload(a)` (00_scope.md R11). -/
def readPayload (a : Int) (s : State) : Except Cond Value :=
  match memRead a s with
  | .ok w => .ok (payload w)
  | .error c => .error c

/-- `WritePayload(a, v)`: first the range of `v`, then the address (20_memory.md R59). -/
def writePayload (a : Int) (v : Int) (s : State) : Except Cond State :=
  if inS32 v then memWrite a (dataword (BitVec.ofInt 32 v)) s else .error (.valueOutOfRange v)

/-! ## The stack (10_state.md R25) -/

/-- Store at `rsp`, then decrement it (60_exceptions.md R252). -/
def push (v : Value) (s : State) : Except Cond State := do
  let sp ← readReg .rsp s
  let t ← writePayload sp.toInt v.toInt s
  pure (setReg .rsp (BitVec.ofInt 32 (sp.toInt - 1)) t)

/-- Increment `rsp`, then load (41_zero_operand.md R143). -/
def pop (s : State) : Except Cond (Value × State) := do
  let sp ← readReg .rsp s
  let v ← readPayload (sp.toInt + 1) s
  pure (v, setReg .rsp (BitVec.ofInt 32 (sp.toInt + 1)) s)

/-! ## The instruction-pointer advance -/

/-- `Advance(r)`: to the target, or one past `x[3]`; past 2^31 - 1 it raises `AddressOutOfRange` and never wraps
(40_control_cycle.md R116, R117). No tick. -/
def advance (target : Option Value) (s : State) : State :=
  let n : Int := match target with
    | none => s.rip.toInt + 1
    | some t => t.toInt - 1 + 1
  if inS32 n then { s with rip := BitVec.ofInt 32 n } else raise (.addressOutOfRange n) s

/-! ## The interrupt-control register (10_state.md R26) -/

/-- EN <- 1, other bits kept (41_zero_operand.md R141). -/
def enable (v : Value) : Value := v ||| 1#32

/-- EN <- 0, other bits kept (41_zero_operand.md R142). -/
def disable (v : Value) : Value := v &&& 0xFFFFFFFE#32

/-- PEND <- 1, other bits kept (60_exceptions.md R250). -/
def setPending (v : Value) : Value := v ||| 2#32

/-! ## Trap entry and trap return -/

/-- `Service()`, trap entry (60_exceptions.md R252): clear `ric` and push the instruction pointer; push the
accumulator; load the vector and enter trap mode. A raise ends the run inside it (R256). -/
def service (s : State) : State :=
  micro (fun s => do
      let t ← push s.rip { s with ric := 0#32 }
      pure ((), t))
    (fun _ s =>
      micro (fun s => do
          let a ← readReg .rax s
          let t ← push a s
          pure ((), t))
        (fun _ s =>
          micro (fun s => do
              let h ← readPayload s.params.vectorAddr s
              pure ((), { s with rip := h, trap := true }))
            (fun _ s => s) s) s) s

/-- The micro-steps of `iret` and its advance, trap return (41_zero_operand.md R143, 60_exceptions.md R254): pop the
accumulator; pop the instruction pointer; set EN and leave trap mode. -/
def trapReturn (s : State) : State :=
  micro (fun s => do
      let (a, t) ← pop s
      pure ((), setReg .rax a t))
    (fun _ s =>
      micro pop
        (fun target s =>
          micro (fun s => pure ((), { s with ric := enable s.ric, trap := false }))
            (fun _ s => advance (some target) s) s) s) s

/-! ## The interrupt boundary and the end of the cycle -/

/-- `PendingLogic()`: only the head of `inq` is looked at (60_exceptions.md R250, R245). -/
def pendingLogic (s : State) : State :=
  match s.inq with
  | [] => s
  | e :: _ => if e.tick ≤ s.tick then { s with ric := setPending s.ric } else s

/-- EN and PEND are set and the machine is not in trap mode (60_exceptions.md R251). -/
def serviceDue (s : State) : Bool := s.ric.getLsbD 0 && s.ric.getLsbD 1 && !s.trap

/-- `InterruptBoundary()` (60_exceptions.md R251). -/
def interruptBoundary (s : State) : State :=
  if serviceDue (pendingLogic s) then service (pendingLogic s) else pendingLogic s

/-- Step 5 of the cycle: count the instruction, and end the run at the limit (40_control_cycle.md R119, R120). -/
def countInstruction (s : State) : State :=
  if s.icount + 1 = s.params.limit then
    { s with icount := s.icount + 1, status := .limitExceeded (s.icount + 1) }
  else { s with icount := s.icount + 1 }

/-- Do `f` if the run is still live: a terminal state is left as it is (10_state.md R31). -/
def whileRunning (f : State → State) (s : State) : State :=
  match s.status with
  | .running => f s
  | .halted => s
  | .limitExceeded _ => s
  | .raised _ _ => s

/-- What the cycle does after the instruction and its advance: the boundary, then the count; neither happens once
the run has ended (40_control_cycle.md R110, R118). -/
def finishCycle (s : State) : State :=
  whileRunning (fun s => whileRunning countInstruction (interruptBoundary s)) s

/-- `r = HALT`: the run ends, counting the `halt` (40_control_cycle.md R110, 41_zero_operand.md R140). -/
def haltRun (s : State) : State := { s with icount := s.icount + 1, status := .halted }

/-! ## Fetch -/

/-- The reads and checks of `Fetch()`: the word at `x[3]`, decoded (40_control_cycle.md R111). -/
def fetchDecode (s : State) : Except Cond Instr :=
  match memRead s.rip.toInt s with
  | .error c => .error c
  | .ok w =>
    match decode s.params.opcodeMap w with
    | .ok i => .ok i
    | .error _ => .error (.malformedWord w)

end Sys2Proof.Machine
end

