-- ==== Sys2Proof/Machine/Operands.lean ====
section
/-! DEFINITION. The addressing-mode resolver and the port primitives (spec/20_memory.md R57 to R62). -/

namespace Sys2Proof.Machine

/-- `ResolveValue(mode, v)` (20_memory.md R57). In mode 4 the pointer cell is read before the target cell. -/
def resolveValue (x : Src) (s : State) : Except Cond Value :=
  match x with
  | .imm v => .ok v
  | .reg r => readReg r s
  | .direct a => readPayload a.toInt s
  | .indirect a => do
    let p ← readPayload a.toInt s
    readPayload p.toInt s

/-- The value operand with a destination's tag and value: an ALU instruction's left input (43_alu.md R185). -/
def leftOperand (d : Dest) : Src :=
  match d with
  | .reg r => .reg r
  | .direct a => .direct a
  | .indirect a => .indirect a

/-- A location an operand names (20_memory.md R58). -/
inductive Loc where
  | reg (r : Reg)
  | mem (a : Int)
  deriving DecidableEq, Repr

/-- `ResolveDest(mode, v)`; the range of the address is checked when the location is written
(20_memory.md R58). -/
def resolveDest (d : Dest) (s : State) : Except Cond Loc :=
  match d with
  | .reg r => .ok (.reg r)
  | .direct a => .ok (.mem a.toInt)
  | .indirect a => do
    let p ← readPayload a.toInt s
    pure (.mem p.toInt)

/-- `WriteLoc(loc, v)` (20_memory.md R59). -/
def writeLoc (l : Loc) (v : Int) (s : State) : Except Cond State :=
  match l with
  | .reg r => writeReg r v s
  | .mem a => writePayload a v s

/-- `WriteLoc(ResolveDest(mode, v), val)`. -/
def writeDest (d : Dest) (v : Int) (s : State) : Except Cond State := do
  let l ← resolveDest d s
  writeLoc l v s

/-- `PortWrite(p, v)`: the port check, the code-point check, the append (20_memory.md R61). -/
def portWrite (p v : Int) (s : State) : Except Cond State :=
  if p ≠ Config.outPort then .error (.illegalPort p)
  else if v < 0 ∨ Config.maxCodePoint < v then .error (.illegalCharacter v)
  else .ok { s with outq := s.outq ++ [Fin.ofNat 1114112 v.toNat] }

/-- The value a token is stored as: an integer as itself, a character as its code point (20_memory.md R62). -/
def tokenValue (t : Token) : Value :=
  match t with
  | .int v => v
  | .char c => BitVec.ofNat 32 c.val

/-- `PortRead(p)`: the port check, then the head token, whatever its scheduled tick (20_memory.md R62). -/
def portRead (p : Int) (s : State) : Except Cond (Value × State) :=
  if p ≠ Config.inPort then .error (.illegalPort p)
  else match s.inq with
    | [] => .error .inputExhausted
    | e :: rest => .ok (tokenValue e.token, { s with inq := rest })

end Sys2Proof.Machine
end

