-- ==== Sys2Proof/Machine/Alu.lean ====
section
/-! DEFINITION. The ALU instructions (spec/43_alu.md R185 to R198). -/

namespace Sys2Proof.Machine

/-- The micro-step that resolves the right operand and applies the ALU to a left value, writing the flags
(43_alu.md R185, R182). -/
def aluApply (op : AluOp) (a : Value) (src : Src) (s : State) : Except Cond (Int × State) := do
  let b ← resolveValue src s
  let o ← alu op a b
  pure (o.result, setFlags o s)

/-- The last micro-step of the memory form: write the result, or nothing for `cmp`. -/
def aluStore (op : AluOp) (d : Dest) (v : Int) (s : State) : Except Cond (Unit × State) :=
  match op with
  | .cmp => pure ((), s)
  | _ => do
    let t ← writeDest d v s
    pure ((), t)

/-- `AluInstr(op)` with a register left operand (R185): resolve and compute in one micro-step, write back in a
second, which `cmp` does not have. -/
def aluRegister (op : AluOp) (r : Reg) (src : Src) (s : State) : State :=
  micro (fun s => do
      let a ← readReg r s
      aluApply op a src s)
    (fun v s =>
      match op with
      | .cmp => advance none s
      | _ =>
        micro (fun s => do
            let t ← writeReg r v s
            pure ((), t))
          (fun _ s => advance none s) s) s

/-- `AluInstr(op)` with a memory left operand (R185): read left, read right and compute, write the result, in three
micro-steps; `cmp` keeps its third, empty one (90_conflicts.md C11). -/
def aluMemory (op : AluOp) (d : Dest) (src : Src) (s : State) : State :=
  micro (fun s => do
      let a ← resolveValue (leftOperand d) s
      pure (a, s))
    (fun a s =>
      micro (aluApply op a src)
        (fun v s => micro (aluStore op d v) (fun _ s => advance none s) s) s) s

/-- `AluInstr(op)` (R185), with the advance. -/
def aluInstr (op : AluOp) (d : Dest) (src : Src) (s : State) : State :=
  match d with
  | .reg r => aluRegister op r src s
  | .direct a => aluMemory op (.direct a) src s
  | .indirect a => aluMemory op (.indirect a) src s

/-- `add dst src` (R190). -/
def execAdd (dst : Dest) (src : Src) (s : State) : Host.Outcome State Fault Refusal :=
  .next (aluInstr .add dst src s)

/-- `sub dst src` (R191). -/
def execSub (dst : Dest) (src : Src) (s : State) : Host.Outcome State Fault Refusal :=
  .next (aluInstr .sub dst src s)

/-- `mul dst src` (R192). -/
def execMul (dst : Dest) (src : Src) (s : State) : Host.Outcome State Fault Refusal :=
  .next (aluInstr .mul dst src s)

/-- `div dst src` (R193). -/
def execDiv (dst : Dest) (src : Src) (s : State) : Host.Outcome State Fault Refusal :=
  .next (aluInstr .div dst src s)

/-- `mod dst src` (R194). -/
def execMod (dst : Dest) (src : Src) (s : State) : Host.Outcome State Fault Refusal :=
  .next (aluInstr .mod dst src s)

/-- `xor dst src` (R195). -/
def execXor (dst : Dest) (src : Src) (s : State) : Host.Outcome State Fault Refusal :=
  .next (aluInstr .xor dst src s)

/-- `and dst src` (R196). -/
def execAnd (dst : Dest) (src : Src) (s : State) : Host.Outcome State Fault Refusal :=
  .next (aluInstr .and dst src s)

/-- `or dst src` (R197). -/
def execOr (dst : Dest) (src : Src) (s : State) : Host.Outcome State Fault Refusal :=
  .next (aluInstr .or dst src s)

/-- `cmp left right` (R198): the flags of the corrected difference, nothing written. -/
def execCmp (dst : Dest) (src : Src) (s : State) : Host.Outcome State Fault Refusal :=
  .next (aluInstr .cmp dst src s)

end Sys2Proof.Machine
end

