-- ==== Sys2Proof/Machine/Branch.lean ====
section
/-! DEFINITION. The branch instructions (spec/42_branch.md R160 to R165). -/

namespace Sys2Proof.Machine

/-- `Branch(cond)` (R160): the target is resolved whether or not the branch is taken, then the condition is read, in
one micro-step; the advance goes to the target or to the next word. -/
def branchInstr (cond : State → Except Cond Bool) (target : Src) (s : State) : State :=
  micro (fun s => do
      let t ← resolveValue target s
      let c ← cond s
      pure ((if c then some t else none), s))
    (fun r s => advance r s) s

/-- The condition "flag = v" (R162 to R165). -/
def flagIs (f : Flag) (v : Bool) (s : State) : Except Cond Bool := do
  let b ← readFlag f s
  pure (b == v)

/-- `jmp target` (R161). -/
def execJmp (target : Src) (s : State) : Host.Outcome State Fault Refusal :=
  .next (branchInstr (fun _ => pure true) target s)

/-- `jz target` (R162). -/
def execJz (target : Src) (s : State) : Host.Outcome State Fault Refusal :=
  .next (branchInstr (flagIs .z true) target s)

/-- `jnz target` (R163). -/
def execJnz (target : Src) (s : State) : Host.Outcome State Fault Refusal :=
  .next (branchInstr (flagIs .z false) target s)

/-- `jn target` (R164). -/
def execJn (target : Src) (s : State) : Host.Outcome State Fault Refusal :=
  .next (branchInstr (flagIs .n true) target s)

/-- `jnn target` (R165). -/
def execJnn (target : Src) (s : State) : Host.Outcome State Fault Refusal :=
  .next (branchInstr (flagIs .n false) target s)

end Sys2Proof.Machine
end

