-- ==== Sys2Proof/Machine/Control.lean ====
section
/-! DEFINITION. The zero-operand instructions (spec/41_zero_operand.md R140 to R144). Each meaning is the
instruction's micro-steps after the fetch and its advance. -/

namespace Sys2Proof.Machine

/-- `halt` (R140): no micro-step, no advance; the run ends, counted. -/
def execHalt (s : State) : Host.Outcome State Fault Refusal := .next (haltRun s)

/-- `ei` (R141). -/
def execEi (s : State) : Host.Outcome State Fault Refusal :=
  .next (micro (fun s => pure ((), { s with ric := enable s.ric })) (fun _ s => advance none s) s)

/-- `di` (R142). -/
def execDi (s : State) : Host.Outcome State Fault Refusal :=
  .next (micro (fun s => pure ((), { s with ric := disable s.ric })) (fun _ s => advance none s) s)

/-- `iret` (R143): the trap return of Ops.lean, in or out of trap mode. -/
def execIret (s : State) : Host.Outcome State Fault Refusal := .next (trapReturn s)

/-- `nop` (R144). -/
def execNop (s : State) : Host.Outcome State Fault Refusal :=
  .next (micro (fun s => pure ((), s)) (fun _ s => advance none s) s)

end Sys2Proof.Machine
end

