-- ==== Sys2Proof/Machine/Move.lean ====
section
/-! DEFINITION. The move and port instructions (spec/44_move_port.md R220 to R222). -/

namespace Sys2Proof.Machine

/-- The destination is a memory operand (tag 2 or 4). -/
def destInMemory (d : Dest) : Bool :=
  match d with
  | .reg _ => false
  | .direct _ => true
  | .indirect _ => true

/-- The source is a memory operand (tag 2 or 4). -/
def srcInMemory (x : Src) : Bool :=
  match x with
  | .imm _ => false
  | .reg _ => false
  | .direct _ => true
  | .indirect _ => true

/-- `mov` with both operands in memory: read, then write, in two micro-steps (R220). -/
def movTwoSteps (dst : Dest) (src : Src) (s : State) : State :=
  micro (fun s => do
      let v ← resolveValue src s
      pure (v, s))
    (fun v s =>
      micro (fun s => do
          let t ← writeDest dst v.toInt s
          pure ((), t))
        (fun _ s => advance none s) s) s

/-- `mov` in every other form, in one micro-step; the source is resolved before the destination (R220). -/
def movOneStep (dst : Dest) (src : Src) (s : State) : State :=
  micro (fun s => do
      let v ← resolveValue src s
      let t ← writeDest dst v.toInt s
      pure ((), t))
    (fun _ s => advance none s) s

/-- `mov dst src` (R220). -/
def execMov (dst : Dest) (src : Src) (s : State) : Host.Outcome State Fault Refusal :=
  .next (if destInMemory dst && srcInMemory src then movTwoSteps dst src s else movOneStep dst src s)

/-- `movo !port src` (R221). -/
def execMovo (port : Value) (src : Src) (s : State) : Host.Outcome State Fault Refusal :=
  .next (micro (fun s => do
      let v ← resolveValue src s
      let t ← portWrite port.toInt v.toInt s
      pure ((), t))
    (fun _ s => advance none s) s)

/-- `movi dst !port` (R222): the destination is resolved first; a raise at the write cancels the pop. -/
def execMovi (dst : Dest) (port : Value) (s : State) : Host.Outcome State Fault Refusal :=
  .next (micro (fun s => do
      let l ← resolveDest dst s
      let (v, t) ← portRead port.toInt s
      let u ← writeLoc l v.toInt t
      pure ((), u))
    (fun _ s => advance none s) s)

end Sys2Proof.Machine
end

