-- ==== Sys2Proof/Machine/Dispatch.lean ====
section
/-! DEFINITION. `Execute`, the dispatch on the instruction (spec/40_control_cycle.md R112). -/

namespace Sys2Proof.Machine

def exec (i : Instr) (s : State) : Host.Outcome State Fault Refusal :=
  match i with
  | .halt => Sys2Proof.Machine.execHalt s
  | .ei => Sys2Proof.Machine.execEi s
  | .di => Sys2Proof.Machine.execDi s
  | .iret => Sys2Proof.Machine.execIret s
  | .nop => Sys2Proof.Machine.execNop s
  | .jmp target => Sys2Proof.Machine.execJmp target s
  | .jz target => Sys2Proof.Machine.execJz target s
  | .jnz target => Sys2Proof.Machine.execJnz target s
  | .jn target => Sys2Proof.Machine.execJn target s
  | .jnn target => Sys2Proof.Machine.execJnn target s
  | .add dst src => Sys2Proof.Machine.execAdd dst src s
  | .sub dst src => Sys2Proof.Machine.execSub dst src s
  | .mul dst src => Sys2Proof.Machine.execMul dst src s
  | .div dst src => Sys2Proof.Machine.execDiv dst src s
  | .mod dst src => Sys2Proof.Machine.execMod dst src s
  | .xor dst src => Sys2Proof.Machine.execXor dst src s
  | .and dst src => Sys2Proof.Machine.execAnd dst src s
  | .or dst src => Sys2Proof.Machine.execOr dst src s
  | .cmp dst src => Sys2Proof.Machine.execCmp dst src s
  | .mov dst src => Sys2Proof.Machine.execMov dst src s
  | .movo port src => Sys2Proof.Machine.execMovo port src s
  | .movi dst port => Sys2Proof.Machine.execMovi dst port s

end Sys2Proof.Machine
end

