-- ==== Sys2Proof/Machine/Step.lean ====
section
/-! DEFINITION. One step: one whole `Cycle()` of the Control Unit (spec/40_control_cycle.md R110). -/

namespace Sys2Proof.Machine

/-- One cycle: fetch and decode in one micro-step, the instruction with its advance, the interrupt boundary, the
count. Once `status` has left `Running` no state changes (10_state.md R31, 40_control_cycle.md R122). -/
def step (s : State) : Host.Outcome State Fault Refusal :=
  match s.status with
  | .running =>
    match fetchDecode s with
    | .error c => .next (raise c s)
    | .ok i =>
      match exec i (stepEnd s) with
      | .next t => .next (finishCycle t)
      | .fault r => .fault r
      | .refused r => .refused r
  | .halted => .next s
  | .limitExceeded _ => .next s
  | .raised _ _ => .next s

/-- `s` about to fetch the word `w`, numbered by the standard opcode map: the word stands in the cell `rip` names.
Where `s` could not fetch there, the run is live again and `rip` is 0, the map is the standard one (log 11). -/
def State.withFetchWord (s : State) (nbits w : Nat) : State :=
  let ip : Value := if inMemory s.rip.toInt s then s.rip else 0#32
  { s with
    params := { s.params with opcodeMap := standardOpcodeMap }
    status := .running
    rip := ip
    mem := s.mem.put ip.toInt.toNat (BitVec.ofNat 80 (w % 2 ^ nbits)) }

end Sys2Proof.Machine
end

