-- ==== Sys2Proof/Machine/Listing.lean ====
section
/-! DEFINITION. The listing form of a program image (spec/30_encoding.md R82, R98, R100): a line is parsed to an address
and a word, and written from them. Text is a list of characters. -/

namespace Sys2Proof.Machine

/-! ## Reading -/

/-- A blank between the fields of a line (R100, "separated by whitespace"). -/
def isBlank (c : Char) : Bool := c == ' ' || c == '\t'

/-- The fields of a line; `cur` is the field being read. -/
def fieldsFrom : List Char → List Char → List (List Char)
  | [], cur => if cur.isEmpty then [] else [cur]
  | c :: rest, cur =>
    if isBlank c then
      (if cur.isEmpty then fieldsFrom rest [] else cur :: fieldsFrom rest [])
    else fieldsFrom rest (cur ++ [c])

/-- The value of a decimal digit. -/
def decDigit (c : Char) : Option Nat :=
  if 48 ≤ c.toNat ∧ c.toNat ≤ 57 then some (c.toNat - 48) else none

/-- The value of a hexadecimal digit, in either letter case (R100, 92_eei_decisions.md D39). -/
def hexDigit (c : Char) : Option Nat :=
  if 48 ≤ c.toNat ∧ c.toNat ≤ 57 then some (c.toNat - 48)
  else if 97 ≤ c.toNat ∧ c.toNat ≤ 102 then some (c.toNat - 87)
  else if 65 ≤ c.toNat ∧ c.toNat ≤ 70 then some (c.toNat - 55)
  else none

/-- A numeral, most significant digit first, after the value `acc`. -/
def numeral (base : Nat) (digit : Char → Option Nat) : List Char → Nat → Option Nat
  | [], acc => some acc
  | c :: rest, acc =>
    match digit c with
    | some d => numeral base digit rest (acc * base + d)
    | none => none

/-- A decimal address: one digit or more. -/
def parseAddress (cs : List Char) : Option Nat := if cs.isEmpty then none else numeral 10 decDigit cs 0

/-- A word: exactly 20 hexadecimal digits (R82). -/
def parseWord (cs : List Char) : Option Word :=
  if cs.length = 20 then (numeral 16 hexDigit cs 0).map (BitVec.ofNat 80) else none

/-- A listing line: the address and the hex field are used, the rest is a comment (R100). -/
def parseLine (line : List Char) : Option (Int × Word) :=
  match fieldsFrom line [] with
  | a :: w :: _ => (parseAddress a).bind fun n => (parseWord w).map fun x => ((n : Int), x)
  | _ => none

/-- A listing, line by line; nothing if a line cannot be parsed. -/
def parseListing : List (List Char) → Option (List (Int × Word))
  | [] => some []
  | l :: rest => (parseLine l).bind fun x => (parseListing rest).map fun xs => x :: xs

/-! ## Writing -/

/-- A hexadecimal digit in lower case (D39). -/
def hexChar (d : Nat) : Char := Char.ofNat (if d < 10 then 48 + d else 87 + d)

/-- The `n` low hexadecimal digits of a number, most significant first. -/
def hexDigits : Nat → Nat → List Char
  | 0, _ => []
  | n + 1, v => hexDigits n (v / 16) ++ [hexChar (v % 16)]

/-- The 20-digit rendering of a word: the opcode first (R82). -/
def wordText (w : Word) : List Char := hexDigits 20 w.toNat

/-- A signed decimal. -/
def intText (v : Int) : List Char :=
  if v < 0 then '-' :: Nat.toDigits 10 v.natAbs else Nat.toDigits 10 v.natAbs

/-- A register's name with its mark (R98). -/
def regText : Reg → List Char
  | .rax => ['%', 'r', 'a', 'x']
  | .rbx => ['%', 'r', 'b', 'x']
  | .rdx => ['%', 'r', 'd', 'x']
  | .rip => ['%', 'r', 'i', 'p']
  | .rsp => ['%', 'r', 's', 'p']
  | .ric => ['%', 'r', 'i', 'c']

/-- A value operand in its listing form (R84, R98). -/
def srcText : Src → List Char
  | .imm v => intText v.toInt
  | .reg r => regText r
  | .direct a => '#' :: intText a.toInt
  | .indirect a => '*' :: intText a.toInt

/-- A destination operand in its listing form (R84, R98). -/
def destText : Dest → List Char
  | .reg r => regText r
  | .direct a => '#' :: intText a.toInt
  | .indirect a => '*' :: intText a.toInt

/-- A port operand in its listing form (R84, R98). -/
def portText (p : Value) : List Char := '!' :: intText p.toInt

/-- A two-operand instruction's text (R98). -/
def binaryText (name : List Char) (d : Dest) (x : Src) : List Char :=
  name ++ ' ' :: destText d ++ ' ' :: srcText x

/-- An instruction's text: mnemonic and operands separated by single spaces (R98). -/
def instrText : Instr → List Char
  | .halt => ['h', 'a', 'l', 't']
  | .ei => ['e', 'i']
  | .di => ['d', 'i']
  | .iret => ['i', 'r', 'e', 't']
  | .nop => ['n', 'o', 'p']
  | .jmp x => ['j', 'm', 'p', ' '] ++ srcText x
  | .jz x => ['j', 'z', ' '] ++ srcText x
  | .jnz x => ['j', 'n', 'z', ' '] ++ srcText x
  | .jn x => ['j', 'n', ' '] ++ srcText x
  | .jnn x => ['j', 'n', 'n', ' '] ++ srcText x
  | .add d x => binaryText ['a', 'd', 'd'] d x
  | .sub d x => binaryText ['s', 'u', 'b'] d x
  | .mul d x => binaryText ['m', 'u', 'l'] d x
  | .div d x => binaryText ['d', 'i', 'v'] d x
  | .mod d x => binaryText ['m', 'o', 'd'] d x
  | .xor d x => binaryText ['x', 'o', 'r'] d x
  | .and d x => binaryText ['a', 'n', 'd'] d x
  | .or d x => binaryText ['o', 'r'] d x
  | .cmp d x => binaryText ['c', 'm', 'p'] d x
  | .mov d x => binaryText ['m', 'o', 'v'] d x
  | .movo p x => ['m', 'o', 'v', 'o', ' '] ++ portText p ++ ' ' :: srcText x
  | .movi d p => ['m', 'o', 'v', 'i', ' '] ++ destText d ++ ' ' :: portText p

/-- The readable rendering of a word: its instruction, or the value of a data word (R100; the words `data` and
`raw` are those of 95_test_vectors.md). -/
def contentText (m : OpcodeMap) (w : Word) : List Char :=
  match decode m w with
  | .ok i => instrText i
  | .error _ =>
    if w = dataword (payload w) then ['d', 'a', 't', 'a', ' '] ++ intText (payload w).toInt
    else ['r', 'a', 'w', ' '] ++ wordText w

/-- A listing line, `address hex mnemonic` (R100). -/
def listingLine (m : OpcodeMap) (a : Nat) (w : Word) : List Char :=
  Nat.toDigits 10 a ++ ' ' :: wordText w ++ ' ' :: contentText m w

end Sys2Proof.Machine
end

