-- ==== Sys2Proof/Machine/Launch.lean ====
section
/-! DEFINITION. The host's launch of a run (spec/70_reset_and_hazards.md R280, R282, R285, R290): the checks on the
parameters, the image and the input, and the state the run starts from. -/

namespace Sys2Proof.Machine

/-- A token as the host supplies it: an integer, or a text that must be one character (R285). -/
inductive RawToken where
  | int (v : Int)
  | text (cs : List CodePoint)
  deriving DecidableEq, Repr

/-- An input entry as the host supplies it (R285). -/
structure RawEntry where
  tick : Int
  token : RawToken
  deriving DecidableEq, Repr

/-- The image: a data image and a text image, bare or with an address for each word (R282). -/
inductive Image where
  | bare (data text : List Word)
  | listing (data text : List (Int × Word))
  deriving DecidableEq, Repr

/-- What the host sends at launch (R280, R290). Without `entry`, `ENTRY` is the address of the first text word. -/
structure LaunchRequest where
  memSize : Nat
  limit : Nat
  vectorAddr : Nat
  entry : Option Value
  spReset : Slot Value
  policy : UnwrittenPolicy
  opcodeMap : OpcodeMap
  image : Image
  input : List RawEntry
  deriving DecidableEq, Repr

/-- Words placed from address `a` onward (R282, the bare form). -/
def numberFrom : Int → List Word → List (Int × Word)
  | _, [] => []
  | a, w :: rest => (a, w) :: numberFrom (a + 1) rest

/-- The words of the image with their addresses (R282). -/
def Image.cells (i : Image) : List (Int × Word) :=
  match i with
  | .bare data text => numberFrom 0 (data ++ text)
  | .listing data text => data ++ text

/-- The address of the first word of the text image, if there is one (R282). -/
def Image.firstText (i : Image) : Option Int :=
  match i with
  | .bare data (_ :: _) => some (data.length : Int)
  | .listing _ (x :: _) => some x.1
  | .bare _ [] => none
  | .listing _ [] => none

/-- The first image address outside [0, memSize - 1] (R282). -/
def outOfRangeAddress (memSize : Nat) (cells : List (Int × Word)) : Option Int :=
  (cells.find? fun x => !decide (0 ≤ x.1 ∧ x.1 < (memSize : Int))).map Prod.fst

/-- The image in memory. -/
def loadCells (cells : List (Int × Word)) : Memory :=
  cells.foldl (fun mem x => mem.put x.1.toNat x.2) []

/-- An input entry checked (R285). -/
def checkEntry (e : RawEntry) : Except Refusal Entry :=
  if e.tick < 0 then .error (.inputTickNotNatural e.tick)
  else match e.token with
    | .int v => if inS32 v then .ok ⟨e.tick.toNat, .int (BitVec.ofInt 32 v)⟩ else .error (.inputTokenOutOfRange v)
    | .text [c] => .ok ⟨e.tick.toNat, .char c⟩
    | .text _ => .error .inputTokenNotOneCharacter

/-- The input checked, in its given order (R285). -/
def checkInput : List RawEntry → Except Refusal (List Entry)
  | [] => .ok []
  | e :: rest =>
    match checkEntry e with
    | .error r => .error r
    | .ok x =>
      match checkInput rest with
      | .error r => .error r
      | .ok xs => .ok (x :: xs)

/-- The parameters of a request, with `ENTRY` settled. -/
def LaunchRequest.params (r : LaunchRequest) (entry : Value) : Params where
  memSize := r.memSize
  limit := r.limit
  vectorAddr := r.vectorAddr
  entry := entry
  spReset := r.spReset
  policy := r.policy
  opcodeMap := r.opcodeMap

/-- `ENTRY`: the one given, or the address of the first text word (R282). -/
def LaunchRequest.entryValue (r : LaunchRequest) : Option Value :=
  match r.entry with
  | some v => some v
  | none => r.image.firstText.map (BitVec.ofInt 32)

/-- The first launch check a request fails (R282, R285, 93_implementation_defined.md U5, U6, U19). -/
def launchProblem (r : LaunchRequest) : Option Refusal :=
  if r.memSize < 1 ∨ Config.maxMemSize < r.memSize then some .memSizeOutOfBounds
  else if r.limit < 1 then some .limitBelowOne
  else if r.memSize ≤ r.vectorAddr then some .vectorOutsideMemory
  else if !r.opcodeMap.wf then some .opcodeMapIllFormed
  else match outOfRangeAddress r.memSize r.image.cells with
    | some a => some (.imageAddressOutOfRange a)
    | none => if (r.image.cells.map Prod.fst).Nodup then none else some .imageAddressRepeated

/-- Launch: the state the run starts from (R280), or a refusal and no run (92_eei_decisions.md D43). -/
def launch (r : LaunchRequest) : Host.Outcome State Fault Refusal :=
  match launchProblem r with
  | some e => .refused e
  | none =>
    match r.entryValue with
    | none => .refused .noEntry
    | some entry =>
      match checkInput r.input with
      | .error e => .refused e
      | .ok input => .next (State.resetWith (r.params entry) (loadCells r.image.cells) input)

end Sys2Proof.Machine
end

