-- ==== Sys2Proof/Safety.lean ====
section
/-! DEFINITION. The terms claims use: how a run ends and what its result is (spec/60_exceptions.md R240, R243,
spec/40_control_cycle.md R123), the states of a run, and the invariant every step keeps. -/

namespace Sys2Proof.Machine

/-- The number of a raised condition (60_exceptions.md R240). -/
def Cond.code : Cond → Nat
  | .malformedWord _ => 1
  | .inputExhausted => 2
  | .addressOutOfRange _ => 4
  | .divisionByZero _ => 5
  | .valueOutOfRange _ => 6
  | .illegalPort _ => 7
  | .illegalCharacter _ => 8
  | .uninitialisedRead _ => 9

/-- The status code of a terminal status (60_exceptions.md R240). -/
def Status.code : Status → Option Nat
  | .running => none
  | .halted => some 0
  | .limitExceeded _ => some 3
  | .raised c _ => some c.code

/-- The run has ended (40_control_cycle.md R123). -/
def Status.ended (x : Status) : Bool := x.code.isSome

/-- Codes 1 and 4 to 9 are faults (60_exceptions.md R243). -/
def Status.isFault (x : Status) : Bool :=
  match x with
  | .raised .inputExhausted _ => false
  | .raised _ _ => true
  | .running => false
  | .halted => false
  | .limitExceeded _ => false

/-- A state of a safe run: live, or ended by `halt`, at the limit or at the end of the input (60_exceptions.md
R243). -/
def State.safe (s : State) : Bool := !s.status.isFault

/-- The result of a run (70_reset_and_hazards.md R291). -/
structure Result where
  status : Status
  output : List CodePoint
  icount : Nat
  tick : Nat
  deriving DecidableEq, Repr

/-- The result, once the run has ended (40_control_cycle.md R123). -/
def State.result (s : State) : Option Result :=
  if s.status.ended then some ⟨s.status, s.outq, s.icount, s.tick⟩ else none

/-- The state after `k` steps; every step answers a next state. -/
def runSteps : Nat → State → State
  | 0, s => s
  | k + 1, s =>
    match step s with
    | .next t => runSteps k t
    | .fault _ => s
    | .refused _ => s

/-- The info a condition records is one that raises it (60_exceptions.md R240). -/
def Cond.infoOk (p : Params) : Cond → Bool
  | .malformedWord w =>
    match decode p.opcodeMap w with
    | .ok _ => false
    | .error _ => true
  | .inputExhausted => true
  | .addressOutOfRange a => decide (a < 0 ∨ (p.memSize : Int) ≤ a)
  | .divisionByZero a => inS32 a
  | .valueOutOfRange v => !inS32 v
  | .illegalPort a => inS32 a
  | .illegalCharacter v => decide (v < 0 ∨ Config.maxCodePoint < v)
  | .uninitialisedRead _ => p.policy == .fault

/-- The status agrees with the counter, the instruction pointer and the parameters. -/
def State.statusOk (s : State) : Bool :=
  match s.status with
  | .running => decide (s.icount < s.params.limit)
  | .halted => decide (1 ≤ s.icount ∧ s.icount ≤ s.params.limit)
  | .limitExceeded n => decide (n = s.icount ∧ s.icount = s.params.limit)
  | .raised c ip => decide (s.icount < s.params.limit ∧ ip = s.rip) && c.infoOk s.params

/-- The invariant: the parameters are within their bounds, memory is in its canonical form with every written cell
inside it, and the status agrees with the rest. -/
def State.Inv (s : State) : Prop :=
  s.params.ok = true ∧ s.mem.wf = true ∧ (∀ x ∈ s.mem, x.1 < s.params.memSize) ∧ s.statusOk = true

end Sys2Proof.Machine
end

