-- ==== Sys2Proof/Certificates/Slice0/Obligations.lean ====
section
/-! DEFINITION. The statements for the provers, in the terms of the model. The definitions under `Sys2Proof.Claims` are the
words they are said in. -/

namespace Sys2Proof.Claims

open Sys2Proof.Machine

/-! ## Words of the frames -/

/-- Every register but those listed holds what it held. -/
def RegsKept (changed : List Reg) (s t : State) : Prop := ∀ r, r ∉ changed → regSlot r t = regSlot r s

/-- Every cell reads as before. -/
def MemKept (s t : State) : Prop := ∀ a, memRead a t = memRead a s

/-- Every cell but the one the location names reads as before; every cell, where it names none. -/
def StoresOnlyAt (l : Except Cond Loc) (s t : State) : Prop := ∀ a, l ≠ .ok (.mem a) → memRead a t = memRead a s

/-- N, Z and OF are as before. -/
def FlagsKept (s t : State) : Prop := t.flagN = s.flagN ∧ t.flagZ = s.flagZ ∧ t.flagOF = s.flagOF

/-- The parameters, the trap bit and the instruction counter are as before. -/
def ControlKept (s t : State) : Prop := t.params = s.params ∧ t.trap = s.trap ∧ t.icount = s.icount

/-- Both queues are as before. -/
def QueuesKept (s t : State) : Prop := t.inq = s.inq ∧ t.outq = s.outq

/-! ## Words of the result statements -/

/-- The top of the address space, 2^31 - 1 (40_control_cycle.md R117). -/
def top : Int := 2147483647

/-- The nine ALU instructions (10_state.md R27). -/
def isAlu (i : Instr) : Bool :=
  match i with
  | .add _ _ | .sub _ _ | .mul _ _ | .div _ _ | .mod _ _ | .xor _ _ | .and _ _ | .or _ _ | .cmp _ _ => true
  | .halt | .ei | .di | .iret | .nop => false
  | .jmp _ | .jz _ | .jnz _ | .jn _ | .jnn _ => false
  | .mov _ _ | .movo _ _ | .movi _ _ => false

/-- A register form of an ALU instruction that writes its result: for every register, value operand and state in which both
operands can be read, `f` gives the exact result and the next address exists, the corrected result is in the register,
the flags are those of the corrected result, two ticks have passed, the next address is one past `rip` (one past the
result, where `rip` is the destination), and nothing else has changed. -/
def RegisterForm (mk : Dest → Src → Instr) (f : Value → Value → Int) (defined : Value → Value → Prop) : Prop :=
  ∀ (r : Reg) (src : Src) (s : State) (a b : Value),
    readReg r s = .ok a → resolveValue src s = .ok b → defined a b →
    (if r = .rip then (correct (f a b)).1 else s.rip.toInt) ≠ top →
    exec (mk (.reg r) src) s = .next
      { setReg r (BitVec.ofInt 32 (correct (f a b)).1) s with
        flagN := .written (decide ((correct (f a b)).1 < 0))
        flagZ := .written (decide ((correct (f a b)).1 = 0))
        flagOF := .written (correct (f a b)).2
        tick := s.tick + 2
        rip := BitVec.ofInt 32 ((if r = .rip then (correct (f a b)).1 else s.rip.toInt) + 1) }

/-- A memory form of an ALU instruction that writes its result: the destination names cell `p`, whose payload is the left
input; the corrected result is in that cell as a data word, and three ticks have passed. -/
def MemoryForm (mk : Dest → Src → Instr) (f : Value → Value → Int) (defined : Value → Value → Prop) : Prop :=
  ∀ (d : Dest) (src : Src) (s : State) (p : Int) (a b : Value),
    resolveDest d s = .ok (.mem p) → readPayload p s = .ok a → resolveValue src s = .ok b → defined a b →
    s.rip.toInt ≠ top →
    exec (mk d src) s = .next
      { s with
        mem := s.mem.put p.toNat (dataword (BitVec.ofInt 32 (correct (f a b)).1))
        flagN := .written (decide ((correct (f a b)).1 < 0))
        flagZ := .written (decide ((correct (f a b)).1 = 0))
        flagOF := .written (correct (f a b)).2
        tick := s.tick + 3
        rip := BitVec.ofInt 32 (s.rip.toInt + 1) }

/-- A statement about each of the eight ALU instructions that write, with its exact result (43_alu.md R180): `div` and
`mod` for a divisor that is not zero, `mul` for a product whose corrected value fits (R183). -/
def EachWritingAlu
    (form : (Dest → Src → Instr) → (Value → Value → Int) → (Value → Value → Prop) → Prop) : Prop :=
  form .add (fun a b => a.toInt + b.toInt) (fun _ _ => True) ∧
  form .sub (fun a b => a.toInt - b.toInt) (fun _ _ => True) ∧
  form .mul (fun a b => a.toInt * b.toInt)
    (fun a b => -4294967296 ≤ a.toInt * b.toInt ∧ a.toInt * b.toInt < 4294967296) ∧
  form .div (fun a b => Int.fdiv a.toInt b.toInt) (fun _ b => b.toInt ≠ 0) ∧
  form .mod (fun a b => Int.fmod a.toInt b.toInt) (fun _ b => b.toInt ≠ 0) ∧
  form .xor (fun a b => (a ^^^ b).toInt) (fun _ _ => True) ∧
  form .and (fun a b => (a &&& b).toInt) (fun _ _ => True) ∧
  form .or (fun a b => (a ||| b).toInt) (fun _ _ => True)

/-- A register form of an ALU instruction that writes its result, where one past the next address would be past `top` (at
`rip = top`, or with `rip` the destination and `top` the corrected result): the result, the flags and both ticks stay, and
the advance raises. -/
def RegisterFormPastTop (mk : Dest → Src → Instr) (f : Value → Value → Int) (defined : Value → Value → Prop) : Prop :=
  ∀ (r : Reg) (src : Src) (s : State) (a b : Value),
    readReg r s = .ok a → resolveValue src s = .ok b → defined a b →
    (if r = .rip then (correct (f a b)).1 else s.rip.toInt) = top →
    exec (mk (.reg r) src) s = .next (raise (.addressOutOfRange 2147483648)
      { setReg r (BitVec.ofInt 32 (correct (f a b)).1) s with
        flagN := .written (decide ((correct (f a b)).1 < 0))
        flagZ := .written (decide ((correct (f a b)).1 = 0))
        flagOF := .written (correct (f a b)).2
        tick := s.tick + 2 })

/-- A memory form of an ALU instruction that writes its result, at `rip = top`: the store, the flags and the three ticks
stay, and the advance raises. -/
def MemoryFormPastTop (mk : Dest → Src → Instr) (f : Value → Value → Int) (defined : Value → Value → Prop) : Prop :=
  ∀ (d : Dest) (src : Src) (s : State) (p : Int) (a b : Value),
    resolveDest d s = .ok (.mem p) → readPayload p s = .ok a → resolveValue src s = .ok b → defined a b →
    s.rip.toInt = top →
    exec (mk d src) s = .next (raise (.addressOutOfRange 2147483648)
      { s with
        mem := s.mem.put p.toNat (dataword (BitVec.ofInt 32 (correct (f a b)).1))
        flagN := .written (decide ((correct (f a b)).1 < 0))
        flagZ := .written (decide ((correct (f a b)).1 = 0))
        flagOF := .written (correct (f a b)).2
        tick := s.tick + 3 })

/-- A branch: encoded with opcode number `op` and operand 2 zero; taken when `cond` reads true, to the resolved target;
else to the next word; one tick. If the target cannot be resolved, or after it the condition cannot be read, the
instruction raises and nothing else happens. -/
def BranchForm (mk : Src → Instr) (op : Opcode) (cond : State → Except Cond Bool) : Prop :=
  ∀ (x : Src) (s : State),
    encode standardOpcodeMap (mk x) = assemble op x.tag x.value 0#4 0#32 ∧
    (∀ t, resolveValue x s = .ok t → cond s = .ok true →
      exec (mk x) s = .next { s with tick := s.tick + 1, rip := t }) ∧
    (∀ t, resolveValue x s = .ok t → cond s = .ok false → s.rip.toInt ≠ top →
      exec (mk x) s = .next { s with tick := s.tick + 1, rip := BitVec.ofInt 32 (s.rip.toInt + 1) }) ∧
    (∀ c, resolveValue x s = .error c → exec (mk x) s = .next (raise c s)) ∧
    (∀ t c, resolveValue x s = .ok t → cond s = .error c → exec (mk x) s = .next (raise c s))

/-- What the input queue holds for an entry the host gave: its tick, and its integer or its one character
(70_reset_and_hazards.md R285). -/
def EntryHeld (x : RawEntry) (e : Entry) : Prop :=
  x.tick = (e.tick : Int) ∧
  match e.token with
  | .int w => x.token = .int w.toInt
  | .char c => x.token = .text [c]

/-- The condition that flag `f` reads as `v`. -/
def flagReads (f : Flag) (v : Bool) (s : State) : Except Cond Bool :=
  match readFlag f s with
  | .ok b => .ok (decide (b = v))
  | .error c => .error c

/-- The ticks a form takes after its fetch (40_control_cycle.md R114). -/
def tickCost (i : Instr) : Nat :=
  match i with
  | .halt => 0
  | .ei | .di | .nop => 1
  | .iret => 3
  | .jmp _ | .jz _ | .jnz _ | .jn _ | .jnn _ => 1
  | .add (.reg _) _ | .sub (.reg _) _ | .mul (.reg _) _ | .div (.reg _) _ | .mod (.reg _) _ => 2
  | .xor (.reg _) _ | .and (.reg _) _ | .or (.reg _) _ => 2
  | .cmp (.reg _) _ => 1
  | .add _ _ | .sub _ _ | .mul _ _ | .div _ _ | .mod _ _ | .xor _ _ | .and _ _ | .or _ _ | .cmp _ _ => 3
  | .mov (.reg _) _ | .mov _ (.reg _) | .mov _ (.imm _) => 1
  | .mov _ _ => 2
  | .movo _ _ | .movi _ _ => 1

/-- `UninitialisedRead` or `AddressOutOfRange`. -/
def accessCond (c : Cond) : Bool :=
  match c with
  | .uninitialisedRead _ | .addressOutOfRange _ => true
  | .malformedWord _ | .inputExhausted | .divisionByZero _ | .valueOutOfRange _ | .illegalPort _
  | .illegalCharacter _ => false

/-- The conditions an instruction can raise in its micro-steps or at its advance (60_exceptions.md R241). -/
def mayRaise (i : Instr) (c : Cond) : Bool :=
  match i, c with
  | .halt, _ => false
  | .ei, c | .di, c | .nop, c => c == .addressOutOfRange 2147483648
  | .mul _ _, .valueOutOfRange _ => true
  | .div _ _, .divisionByZero _ => true
  | .mod _ _, .divisionByZero _ => true
  | .movo _ _, .illegalPort _ => true
  | .movo _ _, .illegalCharacter _ => true
  | .movi _ _, .illegalPort _ => true
  | .movi _ _, .inputExhausted => true
  | _, c => accessCond c

end Sys2Proof.Claims

open Sys2Proof Sys2Proof.Machine Sys2Proof.Claims

/-! ## Encoding -/

/-- 30_encoding.md R101: the worked encodings, both ways, and the two data words. -/
def Obligations.WorkedEncodings : Prop :=
  (∀ p ∈ [((0x32100000000300000000 : Word), Instr.movi (.reg .rax) 0),
      (0x20100000000000000005, .add (.reg .rax) (.imm 5)),
      (0x10000000007000000000, .jmp (.imm 7)),
      (0x31300000001100000000, .movo 1 (.reg .rax)),
      (0x301000000010ffffffff, .mov (.reg .rbx) (.imm (BitVec.ofInt 32 (-1)))),
      (0x3020000000a40000000b, .mov (.direct 10) (.indirect 11)),
      (0x01000000000000000000, .halt)],
    decode standardOpcodeMap p.1 = .ok p.2 ∧ encode standardOpcodeMap p.2 = p.1) ∧
  dataword 65 = 0x00000000041000000000 ∧ dataword (BitVec.ofInt 32 (-2147483648)) = 0x00080000000000000000

/-- 30_encoding.md R97: `decode` and `encode` are inverse bijections between the accepted tuples (here also as
instructions) and the well-formed words, for every opcode map that gives each mnemonic one number and no number twice. -/
def Obligations.DecodeEncodeRoundTrip : Prop :=
  ∀ m : OpcodeMap, m.wf = true →
    (∀ i, decode m (encode m i) = .ok i) ∧
    (∀ w i, decode m w = .ok i → encode m i = w) ∧
    (∀ t : Tuple, t.wellFormed = true →
      ∃ i, decode m (assemble (m.number t.op) t.m1 t.v1 t.m2 t.v2) = .ok i ∧ i.tuple = t)

/-- 30_encoding.md R91, R92, R94: the decoder accepts a word exactly when its opcode is assigned and its fields are well
formed for it. -/
def Obligations.DecodeAcceptsExactlyWellFormed : Prop :=
  ∀ (m : OpcodeMap) (w : Word),
    (∃ i, decode m w = .ok i) ↔
      ∃ o, m.mnemonic (opField w) = some o ∧
        Tuple.wellFormed ⟨o, m1Field w, v1Field w, m2Field w, v2Field w⟩ = true

/-- 30_encoding.md R81: where the fields lie. -/
def Obligations.WordFieldPositions : Prop :=
  (∀ (op : Opcode) (m1 : Tag) (v1 : Value) (m2 : Tag) (v2 : Value),
    opField (assemble op m1 v1 m2 v2) = op ∧ m1Field (assemble op m1 v1 m2 v2) = m1 ∧
    v1Field (assemble op m1 v1 m2 v2) = v1 ∧ m2Field (assemble op m1 v1 m2 v2) = m2 ∧
    v2Field (assemble op m1 v1 m2 v2) = v2 ∧
    (assemble op m1 v1 m2 v2).toNat = op.toNat * 2 ^ 72 + m1.toNat * 2 ^ 68 + v1.toNat * 2 ^ 36
      + m2.toNat * 2 ^ 32 + v2.toNat) ∧
  ∀ w : Word, assemble (opField w) (m1Field w) (v1Field w) (m2Field w) (v2Field w) = w

/-- 30_encoding.md R83: a data word's fields and its rendering. -/
def Obligations.DataWordLayout : Prop :=
  (∀ v : Value, opField (dataword v) = 0#8 ∧ m1Field (dataword v) = 0#4 ∧ m2Field (dataword v) = 0#4 ∧
    v1Field (dataword v) = v ∧ v2Field (dataword v) = 0#32 ∧
    wordText (dataword v) =
      ['0', '0', '0'] ++ hexDigits 8 v.toNat ++ ['0', '0', '0', '0', '0', '0', '0', '0', '0']) ∧
  parseWord (wordText (dataword 65)) = some 0x00000000041000000000 ∧
  parseWord (wordText (dataword (BitVec.ofInt 32 (-1)))) = some 0x000ffffffff000000000

/-- 30_encoding.md R93: opcode 0x00 is that of every data word and of no instruction, whatever the opcode map; fetching a
data word raises `MalformedWord`. -/
def Obligations.DataWordsNeverExecute : Prop :=
  (∀ v : Value, opField (dataword v) = 0#8) ∧
  (∀ (m : OpcodeMap) (w : Word), opField w = 0#8 → decode m w = .error .opcode) ∧
  ∀ (s : State) (v : Value), s.status = .running → memRead s.rip.toInt s = .ok (dataword v) →
    step s = .next (raise (.malformedWord (dataword v)) s)

/-- 30_encoding.md R100, R82, 92_eei_decisions.md D39: a listing line gives back its address and word, whatever its text
says, and the hex field is read in either letter case. -/
def Obligations.ListingLineRoundTrip : Prop :=
  (∀ (m : OpcodeMap) (a : Nat) (w : Word), parseLine (listingLine m a w) = some ((a : Int), w)) ∧
  (∀ (a : Nat) (w : Word) (comment : List Char),
    parseLine (Nat.toDigits 10 a ++ ' ' :: wordText w ++ ' ' :: comment) = some ((a : Int), w)) ∧
  ∀ w : Word, parseWord ((wordText w).map Char.toUpper) = some w

/-! ## Launch and reset -/

/-- 10_state.md R35: the state a run starts from. The input queue is `INPUT` in its given order: as many entries, and each
place of the queue holds the entry given at that place. -/
def Obligations.LaunchGivesResetState : Prop :=
  ∀ (r : LaunchRequest) (t : State), launch r = .next t →
    t.rax = .unwritten ∧ t.rbx = .unwritten ∧ t.rdx = .unwritten ∧ r.entryValue = some t.rip ∧
    t.rsp = r.spReset ∧ t.ric = 0#32 ∧ t.flagN = .unwritten ∧ t.flagZ = .unwritten ∧ t.flagOF = .unwritten ∧
    t.trap = false ∧ t.tick = 0 ∧ t.icount = 0 ∧ t.status = .running ∧
    (∀ x ∈ r.image.cells, t.mem.cell x.1.toNat = some x.2) ∧
    (∀ a : Nat, (∀ x ∈ r.image.cells, x.1 ≠ (a : Int)) → t.mem.cell a = none) ∧
    t.inq.length = r.input.length ∧
    (∀ (k : Nat) (x : RawEntry) (e : Entry), r.input[k]? = some x → t.inq[k]? = some e → EntryHeld x e) ∧ t.outq = []

/-- 00_scope.md R6, 70_reset_and_hazards.md R282, R285, 92_eei_decisions.md D43: exactly the well-formed requests start a
run. That the opcode map must be one to one (log 7) and that a request needs an entry or a text word (log 13) are the
model's choices. -/
def Obligations.LaunchAcceptsExactly : Prop :=
  ∀ r : LaunchRequest, (∃ t, launch r = .next t) ↔
    1 ≤ r.memSize ∧ r.memSize ≤ 2147483647 ∧ 1 ≤ r.limit ∧ r.vectorAddr < r.memSize ∧ r.opcodeMap.wf = true ∧
    (∀ x ∈ r.image.cells, 0 ≤ x.1 ∧ x.1 < r.memSize) ∧ (r.image.cells.map Prod.fst).Nodup ∧
    (r.entry.isSome = true ∨ r.image.firstText.isSome = true) ∧
    ∀ e ∈ r.input, 0 ≤ e.tick ∧
      ((∃ v, e.token = .int v ∧ -2147483648 ≤ v ∧ v ≤ 2147483647) ∨ ∃ c, e.token = .text [c])

/-- The model's reset state meets the invariant. Its parameters `memSize`, `limit`, `vectorAddr` and `entry` are the
model's choices (logs 3 to 6). -/
def Obligations.ResetMeetsInvariant : Prop := State.reset.Inv

/-- A launched run starts in the invariant. -/
def Obligations.LaunchMeetsInvariant : Prop :=
  ∀ (r : LaunchRequest) (t : State), launch r = .next t → t.Inv

/-! ## The cycle -/

/-- Every step keeps the invariant. -/
def Obligations.StepKeepsInvariant : Prop := ∀ s t : State, s.Inv → step s = .next t → t.Inv

/-- 40_control_cycle.md R124: a cycle ends the run or counts one instruction; so a run has at most LIMIT cycles and at
most 7 * LIMIT ticks. -/
def Obligations.EveryRunEnds : Prop :=
  (∀ s t : State, s.status = .running → step s = .next t →
    t.status.ended = true ∨ t.icount = s.icount + 1) ∧
  (∀ s : State, s.status = .running → s.icount < s.params.limit →
    (runSteps (s.params.limit - s.icount) s).status.ended = true ∧
    (runSteps (s.params.limit - s.icount) s).tick ≤ s.tick + 7 * (s.params.limit - s.icount)) ∧
  ∀ (r : LaunchRequest) (t : State), launch r = .next t →
    (runSteps r.limit t).status.ended = true ∧ (runSteps r.limit t).tick ≤ 7 * r.limit

/-- 93_implementation_defined.md: every state has exactly one next step; no step faults or is refused. -/
def Obligations.StepAlwaysAnswersNext : Prop := ∀ s : State, ∃ t, step s = .next t

/-- 10_state.md R31: once the run has ended no state changes. -/
def Obligations.EndedRunNeverChanges : Prop :=
  ∀ (s : State) (k : Nat), s.status.ended = true → step s = .next s ∧ runSteps k s = s

/-- 40_control_cycle.md R111: the fetch reads the word at `rip`, decodes it and takes one tick, and the cycle runs the
decoded instruction, then its boundary and count; a word that cannot be read or decoded raises, without a tick. -/
def Obligations.StepRunsDecodedInstruction : Prop :=
  ∀ s : State, s.status = .running →
    (∀ w i t, memRead s.rip.toInt s = .ok w → decode s.params.opcodeMap w = .ok i →
      exec i { s with tick := s.tick + 1 } = .next t → step s = .next (finishCycle t)) ∧
    (∀ w e, memRead s.rip.toInt s = .ok w → decode s.params.opcodeMap w = .error e →
      step s = .next (raise (.malformedWord w) s)) ∧
    (∀ c, memRead s.rip.toInt s = .error c → step s = .next (raise c s))

/-- 40_control_cycle.md R119 and R118: what a cycle counts, by the status it ends in. -/
def Obligations.CountingAndLimit : Prop :=
  ∀ s t : State, s.status = .running → step s = .next t →
    (t.status = .running → t.icount = s.icount + 1 ∧ t.icount ≠ s.params.limit) ∧
    (t.status = .halted → t.icount = s.icount + 1) ∧
    (∀ n, t.status = .limitExceeded n → n = t.icount ∧ t.icount = s.icount + 1 ∧ t.icount = s.params.limit) ∧
    (∀ c ip, t.status = .raised c ip → t.icount = s.icount ∧ ip = t.rip)

/-- 40_control_cycle.md R110, R121, 60_exceptions.md R257: after the instruction and its advance the boundary runs, then
the count, then the limit check; nothing of it after `halt` or a raise, and no count after a raise in the service. -/
def Obligations.BoundaryBeforeCount : Prop :=
  ∀ s : State,
    (s.status ≠ .running → finishCycle s = s) ∧
    (s.status = .running → (interruptBoundary s).status ≠ .running → finishCycle s = interruptBoundary s) ∧
    (s.status = .running → (interruptBoundary s).status = .running →
      finishCycle s =
        { interruptBoundary s with
          icount := s.icount + 1
          status := if s.icount + 1 = s.params.limit then .limitExceeded (s.icount + 1) else .running })

/-- 40_control_cycle.md R117: an advance past 2^31 - 1 raises at the advance; the instruction's own effects and ticks stay.
The forms that reach it in a run have `rip` as their destination and write 2^31 - 1 to it: an ALU instruction's result, a
`mov` and a `movi`. The others, a branch that is not taken among them, do at `rip` = 2^31 - 1, where no run can fetch;
`halt`, `iret` and a taken branch never do. -/
def Obligations.AdvancePastTopRaises : Prop :=
  EachWritingAlu RegisterFormPastTop ∧
  (∀ (s : State) (r : Reg) (v : Value), (if r = .rip then v.toInt else s.rip.toInt) = top →
    (∀ src, resolveValue src s = .ok v → exec (.mov (.reg r) src) s =
      .next (raise (.addressOutOfRange 2147483648) { setReg r v s with tick := s.tick + 1 })) ∧
    (∀ e rest, s.inq = e :: rest → ((e.token = .int v) ∨ ∃ c, e.token = .char c ∧ v.toInt = (c.val : Int)) →
      exec (.movi (.reg r) 0#32) s =
        .next (raise (.addressOutOfRange 2147483648) { setReg r v s with inq := rest, tick := s.tick + 1 }))) ∧
  EachWritingAlu MemoryFormPastTop ∧
  ∀ s : State, s.rip.toInt = top →
    exec .nop s = .next (raise (.addressOutOfRange 2147483648) { s with tick := s.tick + 1 }) ∧
    exec .ei s =
      .next (raise (.addressOutOfRange 2147483648) { s with tick := s.tick + 1, ric := enable s.ric }) ∧
    exec .di s =
      .next (raise (.addressOutOfRange 2147483648) { s with tick := s.tick + 1, ric := disable s.ric }) ∧
    (∀ p ∈ [(Instr.jz, Flag.z, false), (.jnz, .z, true), (.jn, .n, false), (.jnn, .n, true)], ∀ x t,
      resolveValue x s = .ok t → readFlag p.2.1 s = .ok p.2.2 →
      exec (p.1 x) s = .next (raise (.addressOutOfRange 2147483648) { s with tick := s.tick + 1 })) ∧
    (∀ src b, resolveValue src s = .ok b →
      (∀ r a, readReg r s = .ok a → exec (.cmp (.reg r) src) s = .next (raise (.addressOutOfRange 2147483648)
        { s with
          flagN := .written (decide ((correct (a.toInt - b.toInt)).1 < 0))
          flagZ := .written (decide ((correct (a.toInt - b.toInt)).1 = 0))
          flagOF := .written (correct (a.toInt - b.toInt)).2
          tick := s.tick + 1 })) ∧
      (∀ d p a, resolveDest d s = .ok (.mem p) → readPayload p s = .ok a →
        exec (.cmp d src) s = .next (raise (.addressOutOfRange 2147483648)
          { s with
            flagN := .written (decide ((correct (a.toInt - b.toInt)).1 < 0))
            flagZ := .written (decide ((correct (a.toInt - b.toInt)).1 = 0))
            flagOF := .written (correct (a.toInt - b.toInt)).2
            tick := s.tick + 3 })) ∧
      (∀ d p, resolveDest d s = .ok (.mem p) → 0 ≤ p → p < s.params.memSize →
        exec (.mov d src) s = .next (raise (.addressOutOfRange 2147483648)
          { s with
            mem := s.mem.put p.toNat (dataword b)
            tick := s.tick + (match src with | .imm _ => 1 | .reg _ => 1 | .direct _ => 2 | .indirect _ => 2) })) ∧
      (∀ c : CodePoint, b.toInt = (c.val : Int) →
        exec (.movo 1#32 src) s = .next (raise (.addressOutOfRange 2147483648)
          { s with outq := s.outq ++ [c], tick := s.tick + 1 }))) ∧
    (∀ e rest v d p, s.inq = e :: rest → ((e.token = .int v) ∨ ∃ c, e.token = .char c ∧ v.toInt = (c.val : Int)) →
      resolveDest d s = .ok (.mem p) → 0 ≤ p → p < s.params.memSize →
      exec (.movi d 0#32) s = .next (raise (.addressOutOfRange 2147483648)
        { s with mem := s.mem.put p.toNat (dataword v), inq := rest, tick := s.tick + 1 }))

/-! ## Access -/

/-- 20_memory.md R53: every access outside memory raises `AddressOutOfRange` with its address. -/
def Obligations.AccessOutsideMemoryRaises : Prop :=
  ∀ (s : State) (a : Value) (x : Int), (x < 0 ∨ (s.params.memSize : Int) ≤ x) →
    memRead x s = .error (.addressOutOfRange x) ∧
    (∀ w, memWrite x w s = .error (.addressOutOfRange x)) ∧
    (∀ v : Value, writeLoc (.mem x) v.toInt s = .error (.addressOutOfRange x)) ∧
    (s.rip.toInt = x → fetchDecode s = .error (.addressOutOfRange x)) ∧
    (a.toInt = x → resolveValue (.direct a) s = .error (.addressOutOfRange x) ∧
      resolveValue (.indirect a) s = .error (.addressOutOfRange x) ∧
      resolveDest (.indirect a) s = .error (.addressOutOfRange x)) ∧
    (∀ p : Value, readPayload a.toInt s = .ok p → p.toInt = x →
      resolveValue (.indirect a) s = .error (.addressOutOfRange x)) ∧
    (∀ sp v : Value, readReg .rsp s = .ok sp → sp.toInt = x → push v s = .error (.addressOutOfRange x)) ∧
    (∀ sp : Value, readReg .rsp s = .ok sp → sp.toInt + 1 = x → pop s = .error (.addressOutOfRange x)) ∧
    ((s.params.vectorAddr : Int) = x → readPayload s.params.vectorAddr s = .error (.addressOutOfRange x))

/-- 20_memory.md R54 for cells, 10_state.md R21 for registers and flags: reading what nothing has written. -/
def Obligations.UnwrittenReads : Prop :=
  ∀ s : State,
    (s.params.policy = .fault →
      (∀ a : Int, 0 ≤ a → a < s.params.memSize → s.mem.cell a.toNat = none →
        memRead a s = .error (.uninitialisedRead (.cell a))) ∧
      (∀ r, regSlot r s = .unwritten → readReg r s = .error (.uninitialisedRead (.reg r))) ∧
      (s.flagN = .unwritten → readFlag .n s = .error (.uninitialisedRead (.flag .n))) ∧
      (s.flagZ = .unwritten → readFlag .z s = .error (.uninitialisedRead (.flag .z)))) ∧
    (s.params.policy = .zero →
      (∀ a : Int, 0 ≤ a → a < s.params.memSize → s.mem.cell a.toNat = none →
        memRead a s = .ok (dataword 0#32) ∧ dataword 0#32 = 0#80) ∧
      (∀ r, regSlot r s = .unwritten → readReg r s = .ok 0#32) ∧
      (s.flagN = .unwritten → readFlag .n s = .ok false) ∧
      (s.flagZ = .unwritten → readFlag .z s = .ok false))

/-- 20_memory.md R57, R58, R60: what an operand of each mode stands for, on cells that hold words. -/
def Obligations.OperandResolution : Prop :=
  ∀ s : State,
    (∀ v, resolveValue (.imm v) s = .ok v) ∧
    (∀ r v, regSlot r s = .written v →
      resolveValue (.reg r) s = .ok v ∧ resolveDest (.reg r) s = .ok (.reg r)) ∧
    (∀ a : Value, resolveDest (.direct a) s = .ok (.mem a.toInt)) ∧
    (∀ (a : Value) (w : Word), 0 ≤ a.toInt → a.toInt < s.params.memSize → s.mem.cell a.toInt.toNat = some w →
      resolveValue (.direct a) s = .ok (v1Field w) ∧
      resolveDest (.indirect a) s = .ok (.mem (v1Field w).toInt) ∧
      ∀ w', 0 ≤ (v1Field w).toInt → (v1Field w).toInt < s.params.memSize →
        s.mem.cell (v1Field w).toInt.toNat = some w' → resolveValue (.indirect a) s = .ok (v1Field w'))

/-- 20_memory.md R52, R65: what a `mov` stores in a cell, a later `mov` loads from it. -/
def Obligations.StoreThenLoadReturnsValue : Prop :=
  ∀ (s : State) (a v : Value) (r : Reg), 0 ≤ a.toInt → a.toInt < s.params.memSize → s.rip.toInt < 2147483646 →
    r ≠ .rip →
    ∃ t u, exec (.mov (.direct a) (.imm v)) s = .next t ∧ exec (.mov (.reg r) (.direct a)) t = .next u ∧
      regSlot r u = .written v ∧ u.status = s.status ∧ u.rip.toInt = s.rip.toInt + 2

/-! ## The ALU -/

/-- 43_alu.md R183: which corrected results are in S32, and that writing one that is not raises. -/
def Obligations.AluResultRange : Prop :=
  (∀ (op : AluOp) (a b : Value) (o : AluOut), alu op a b = .ok o → op ≠ .mul →
    -2147483648 ≤ o.result ∧ o.result < 2147483648 ∧
    (o.result = -2147483648 ↔ op = .add ∧ a.toInt = -2147483648 ∧ b.toInt = -2147483648) ∧
    (o.result = -2147483648 → o.n = true ∧ o.ovf = true)) ∧
  (∀ (a b : Value) (o : AluOut), alu .mul a b = .ok o →
    (inS32 o.result = false ↔ 4294967296 ≤ a.toInt * b.toInt ∨ a.toInt * b.toInt < -4294967296)) ∧
  ∀ (v : Int) (s : State), inS32 v = false →
    (∀ r, writeReg r v s = .error (.valueOutOfRange v)) ∧
    ∀ a, writeLoc (.mem a) v s = .error (.valueOutOfRange v)

/-- 43_alu.md R181, R182: the single shift, and the flags of the corrected result. -/
def Obligations.CorrectionAndFlags : Prop :=
  ∀ (op : AluOp) (a b : Value) (r : Int), aluRaw op a b = .ok r →
    ∃ o, alu op a b = .ok o ∧
      (2147483648 ≤ r → o.result = r - 2147483648 ∧ o.ovf = true) ∧
      (r ≤ -2147483648 → o.result = r + 2147483648 ∧ o.ovf = true) ∧
      (-2147483648 < r → r < 2147483648 → o.result = r ∧ o.ovf = false) ∧
      (o.n = true ↔ o.result < 0) ∧ (o.z = true ↔ o.result = 0)

/-- 00_scope.md R13, 43_alu.md R180: division and modulo are floor division and floor modulo, and `mod` never sets OF. -/
def Obligations.FloorDivisionLaw : Prop :=
  ∀ a b : Value, b.toInt ≠ 0 →
    ∃ q m o, aluRaw .div a b = .ok q ∧ aluRaw .mod a b = .ok m ∧ alu .mod a b = .ok o ∧
      a.toInt = b.toInt * q + m ∧ (0 < b.toInt → 0 ≤ m ∧ m < b.toInt) ∧ (b.toInt < 0 → b.toInt < m ∧ m ≤ 0) ∧
      o.result = m ∧ o.ovf = false

/-- 43_alu.md R184: division or modulo by zero raises, with flags and destination unchanged; in the memory form the tick
of the left read stays. -/
def Obligations.DivideByZeroRaises : Prop :=
  ∀ mk, mk = Instr.div ∨ mk = Instr.mod →
    (∀ (r : Reg) (src : Src) (s : State) (a b : Value), readReg r s = .ok a → resolveValue src s = .ok b →
      b = 0#32 → exec (mk (.reg r) src) s = .next (raise (.divisionByZero a.toInt) s)) ∧
    ∀ (d : Dest) (src : Src) (s : State) (p : Int) (a b : Value), resolveDest d s = .ok (.mem p) →
      readPayload p s = .ok a → resolveValue src s = .ok b → b = 0#32 →
      exec (mk d src) s = .next (raise (.divisionByZero a.toInt) { s with tick := s.tick + 1 })

/-- 43_alu.md R190 to R197 with R185: the register forms. -/
def Obligations.AluRegisterForms : Prop := EachWritingAlu RegisterForm

/-- 43_alu.md R190 to R197 with R185: the memory forms. -/
def Obligations.AluMemoryForms : Prop := EachWritingAlu MemoryForm

/-- 43_alu.md R198: `cmp` sets the flags of the corrected difference and writes nothing; 1 tick with a register left
operand, 3 with one in memory. -/
def Obligations.CompareSetsFlagsOnly : Prop :=
  ∀ (src : Src) (s : State) (a b : Value), resolveValue src s = .ok b → s.rip.toInt ≠ top →
    (∀ r, readReg r s = .ok a → exec (.cmp (.reg r) src) s = .next
      { s with
        flagN := .written (decide ((correct (a.toInt - b.toInt)).1 < 0))
        flagZ := .written (decide ((correct (a.toInt - b.toInt)).1 = 0))
        flagOF := .written (correct (a.toInt - b.toInt)).2
        tick := s.tick + 1
        rip := BitVec.ofInt 32 (s.rip.toInt + 1) }) ∧
    (∀ d p, resolveDest d s = .ok (.mem p) → readPayload p s = .ok a → exec (.cmp d src) s = .next
      { s with
        flagN := .written (decide ((correct (a.toInt - b.toInt)).1 < 0))
        flagZ := .written (decide ((correct (a.toInt - b.toInt)).1 = 0))
        flagOF := .written (correct (a.toInt - b.toInt)).2
        tick := s.tick + 3
        rip := BitVec.ofInt 32 (s.rip.toInt + 1) })

/-- 43_alu.md R183, R192: a product whose corrected value does not fit raises at the write, after the flags. -/
def Obligations.ProductOutOfRangeRaises : Prop :=
  ∀ (src : Src) (s : State) (a b : Value), resolveValue src s = .ok b →
    (4294967296 ≤ a.toInt * b.toInt ∨ a.toInt * b.toInt < -4294967296) →
    (∀ r, readReg r s = .ok a →
      exec (.mul (.reg r) src) s = .next (raise (.valueOutOfRange (correct (a.toInt * b.toInt)).1)
        { s with
          flagN := .written (decide (a.toInt * b.toInt < 0)), flagZ := .written false, flagOF := .written true
          tick := s.tick + 1 })) ∧
    (∀ d p, resolveDest d s = .ok (.mem p) → readPayload p s = .ok a →
      exec (.mul d src) s = .next (raise (.valueOutOfRange (correct (a.toInt * b.toInt)).1)
        { s with
          flagN := .written (decide (a.toInt * b.toInt < 0)), flagZ := .written false, flagOF := .written true
          tick := s.tick + 2 }))

/-- 43_alu.md R186, R118: an ALU instruction whose left operand, or after it right operand, cannot be read raises without
writing a flag; in the memory form the tick of the left read stays. -/
def Obligations.AluOperandRaises : Prop :=
  ∀ mk ∈ [Instr.add, .sub, .mul, .div, .mod, .xor, .and, .or, .cmp],
    (∀ (r : Reg) (src : Src) (s : State) (c : Cond),
      (readReg r s = .error c ∨ (∃ a, readReg r s = .ok a) ∧ resolveValue src s = .error c) →
      exec (mk (.reg r) src) s = .next (raise c s)) ∧
    (∀ (d : Dest) (src : Src) (s : State) (p : Int) (c : Cond), resolveDest d s = .ok (.mem p) →
      (readPayload p s = .error c → exec (mk d src) s = .next (raise c s)) ∧
      ((∃ a, readPayload p s = .ok a) → resolveValue src s = .error c →
        exec (mk d src) s = .next (raise c { s with tick := s.tick + 1 }))) ∧
    (∀ (d : Dest) (src : Src) (s : State) (c : Cond), resolveDest d s = .error c →
      exec (mk d src) s = .next (raise c s))

/-! ## Zero-operand instructions and branches -/

/-- 41_zero_operand.md R140: `halt` counts and ends the run, with no tick after its fetch, no advance and no boundary. -/
def Obligations.HaltEndsRun : Prop :=
  encode standardOpcodeMap .halt = 0x01000000000000000000 ∧
  (∀ s : State, exec .halt s = .next { s with icount := s.icount + 1, status := .halted }) ∧
  ∀ s : State, s.status = .running → fetchDecode s = .ok .halt →
    step s = .next { s with tick := s.tick + 1, icount := s.icount + 1, status := .halted }

/-- 41_zero_operand.md R141, R142, R144: `ei` sets EN, `di` clears it, both keep the other bits of `ric`; `nop` does
nothing; each takes one tick and advances. -/
def Obligations.EnableDisableNop : Prop :=
  encode standardOpcodeMap .ei = 0x02000000000000000000 ∧ encode standardOpcodeMap .di = 0x03000000000000000000 ∧
  encode standardOpcodeMap .nop = 0x05000000000000000000 ∧
  ∀ s : State, s.rip.toInt ≠ top →
    (∃ v : Value, exec .ei s =
        .next { s with ric := v, tick := s.tick + 1, rip := BitVec.ofInt 32 (s.rip.toInt + 1) } ∧
      v.getLsbD 0 = true ∧ ∀ k, k ≠ 0 → v.getLsbD k = s.ric.getLsbD k) ∧
    (∃ v : Value, exec .di s =
        .next { s with ric := v, tick := s.tick + 1, rip := BitVec.ofInt 32 (s.rip.toInt + 1) } ∧
      v.getLsbD 0 = false ∧ ∀ k, k ≠ 0 → v.getLsbD k = s.ric.getLsbD k) ∧
    exec .nop s = .next { s with tick := s.tick + 1, rip := BitVec.ofInt 32 (s.rip.toInt + 1) }

/-- 41_zero_operand.md R143: `iret` in or out of trap mode, and where it raises. The bound on `memSize` is that of
00_scope.md R6, part of the invariant. -/
def Obligations.IretPopsAndReturns : Prop :=
  encode standardOpcodeMap .iret = 0x04000000000000000000 ∧
  ∀ s : State, s.params.memSize ≤ Config.maxMemSize →
    (∀ c, readReg .rsp s = .error c → exec .iret s = .next (raise c s)) ∧
    ∀ sp, readReg .rsp s = .ok sp →
      (∀ c, readPayload (sp.toInt + 1) s = .error c → exec .iret s = .next (raise c s)) ∧
      ∀ a, readPayload (sp.toInt + 1) s = .ok a →
        (∀ c, readPayload (sp.toInt + 2) s = .error c → exec .iret s = .next (raise c
          { s with rax := .written a, rsp := .written (BitVec.ofInt 32 (sp.toInt + 1)), tick := s.tick + 1 })) ∧
        ∀ p, readPayload (sp.toInt + 2) s = .ok p → exec .iret s = .next
          { s with
            rax := .written a
            rsp := .written (BitVec.ofInt 32 (sp.toInt + 2))
            rip := p
            ric := s.ric ||| 1#32
            trap := false
            tick := s.tick + 3 }

/-- 42_branch.md R160 to R165: the five branches. -/
def Obligations.BranchForms : Prop :=
  BranchForm .jmp 0x10#8 (fun _ => .ok true) ∧ BranchForm .jz 0x11#8 (flagReads .z true) ∧
  BranchForm .jnz 0x12#8 (flagReads .z false) ∧ BranchForm .jn 0x13#8 (flagReads .n true) ∧
  BranchForm .jnn 0x14#8 (flagReads .n false)

/-! ## Moves and ports -/

/-- 44_move_port.md R220: `mov` copies its source, in one tick, or in two when both operands are in memory. -/
def Obligations.MovCopies : Prop :=
  ∀ (src : Src) (s : State) (v : Value), resolveValue src s = .ok v →
    (∀ r, (if r = .rip then v.toInt else s.rip.toInt) ≠ top → exec (.mov (.reg r) src) s = .next
      { setReg r v s with
        tick := s.tick + 1, rip := BitVec.ofInt 32 ((if r = .rip then v.toInt else s.rip.toInt) + 1) }) ∧
    (∀ d p, resolveDest d s = .ok (.mem p) → 0 ≤ p → p < s.params.memSize → s.rip.toInt ≠ top →
      exec (.mov d src) s = .next
        { s with
          mem := s.mem.put p.toNat (dataword v)
          tick := s.tick + (match src with | .imm _ => 1 | .reg _ => 1 | .direct _ => 2 | .indirect _ => 2)
          rip := BitVec.ofInt 32 (s.rip.toInt + 1) })

/-- 44_move_port.md R220, 40_control_cycle.md R118: where `mov` raises; the source comes first, and in the two-tick form a
raise at the write keeps the first tick. -/
def Obligations.MovRaises : Prop :=
  ∀ (d : Dest) (src : Src) (s : State),
    (∀ c, resolveValue src s = .error c → exec (.mov d src) s = .next (raise c s)) ∧
    ∀ v, resolveValue src s = .ok v → ∀ c,
      (resolveDest d s = .error c ∨
        ∃ p, resolveDest d s = .ok (.mem p) ∧ (p < 0 ∨ (s.params.memSize : Int) ≤ p) ∧ c = .addressOutOfRange p) →
      exec (.mov d src) s = .next (raise c
        { s with tick := s.tick + (match src with | .imm _ => 0 | .reg _ => 0 | .direct _ => 1 | .indirect _ => 1) })

/-- 44_move_port.md R221, 20_memory.md R61: `movo` appends one character, or raises, the port being checked before the
code point. -/
def Obligations.MovoAppendsCharacter : Prop :=
  ∀ (port : Value) (src : Src) (s : State),
    (∀ c, resolveValue src s = .error c → exec (.movo port src) s = .next (raise c s)) ∧
    ∀ v, resolveValue src s = .ok v →
      (port ≠ 1#32 → exec (.movo port src) s = .next (raise (.illegalPort port.toInt) s)) ∧
      (port = 1#32 → (v.toInt < 0 ∨ 1114111 < v.toInt) →
        exec (.movo port src) s = .next (raise (.illegalCharacter v.toInt) s)) ∧
      (port = 1#32 → 0 ≤ v.toInt → v.toInt ≤ 1114111 → s.rip.toInt ≠ top →
        ∃ c : CodePoint, (c.val : Int) = v.toInt ∧ exec (.movo port src) s = .next
          { s with
            outq := s.outq ++ [c], tick := s.tick + 1, rip := BitVec.ofInt 32 (s.rip.toInt + 1) })

/-- 44_move_port.md R222, 20_memory.md R62: `movi` pops the head token, whatever its scheduled tick, into a register or a
cell; an integer is stored as itself, a character as its code point. -/
def Obligations.MoviReadsToken : Prop :=
  ∀ (s : State) (e : Entry) (rest : List Entry) (v : Value), s.inq = e :: rest →
    ((e.token = .int v) ∨ ∃ c, e.token = .char c ∧ v.toInt = (c.val : Int)) →
    (∀ r, (if r = .rip then v.toInt else s.rip.toInt) ≠ top → exec (.movi (.reg r) 0#32) s = .next
      { setReg r v s with
        inq := rest
        tick := s.tick + 1, rip := BitVec.ofInt 32 ((if r = .rip then v.toInt else s.rip.toInt) + 1) }) ∧
    (∀ d p, resolveDest d s = .ok (.mem p) → 0 ≤ p → p < s.params.memSize → s.rip.toInt ≠ top →
      exec (.movi d 0#32) s = .next
        { s with
          mem := s.mem.put p.toNat (dataword v), inq := rest
          tick := s.tick + 1, rip := BitVec.ofInt 32 (s.rip.toInt + 1) })

/-- 44_move_port.md R222, 20_memory.md R62: where `movi` raises, in order; each time the queue is unchanged. -/
def Obligations.MoviRaises : Prop :=
  ∀ (d : Dest) (port : Value) (s : State),
    (∀ c, resolveDest d s = .error c → exec (.movi d port) s = .next (raise c s)) ∧
    ∀ l, resolveDest d s = .ok l →
      (port ≠ 0#32 → exec (.movi d port) s = .next (raise (.illegalPort port.toInt) s)) ∧
      (port = 0#32 → s.inq = [] → exec (.movi d port) s = .next (raise .inputExhausted s)) ∧
      (∀ p, port = 0#32 → s.inq ≠ [] → l = .mem p → (p < 0 ∨ (s.params.memSize : Int) ≤ p) →
        exec (.movi d port) s = .next (raise (.addressOutOfRange p) s))

/-! ## Interrupts -/

/-- 60_exceptions.md R250: when the pending logic sets PEND, and that it changes nothing else. -/
def Obligations.PendingLogicSetsPend : Prop :=
  ∀ s : State,
    ((∃ e rest, s.inq = e :: rest ∧ e.tick ≤ s.tick) →
      ∃ v : Value, pendingLogic s = { s with ric := v } ∧ v.getLsbD 1 = true ∧
        ∀ k, k ≠ 1 → v.getLsbD k = s.ric.getLsbD k) ∧
    ((∀ e rest, s.inq = e :: rest → s.tick < e.tick) → pendingLogic s = s)

/-- 60_exceptions.md R246, R251, R255: with EN = 0 or in trap mode the boundary only runs the pending logic; with EN = 1
and no trap mode it services if PEND was set, with or without input, or if the head token's tick has come. -/
def Obligations.ServiceCondition : Prop :=
  ∀ s : State,
    ((s.ric.getLsbD 0 = false ∨ s.trap = true) → interruptBoundary s = pendingLogic s) ∧
    (s.ric.getLsbD 0 = true → s.ric.getLsbD 1 = true → s.trap = false →
      interruptBoundary s = service (pendingLogic s)) ∧
    (s.ric.getLsbD 0 = true → s.trap = false → (∃ e rest, s.inq = e :: rest ∧ e.tick ≤ s.tick) →
      interruptBoundary s = service (pendingLogic s)) ∧
    (s.ric.getLsbD 1 = false → (∀ e rest, s.inq = e :: rest → s.tick < e.tick) → interruptBoundary s = s)

/-- 60_exceptions.md R252, R253: what trap entry saves, where, and where it goes. -/
def Obligations.ServiceEntersHandler : Prop :=
  ∀ (s : State) (sp a h : Value), readReg .rsp s = .ok sp → readReg .rax s = .ok a →
    1 ≤ sp.toInt → sp.toInt < s.params.memSize →
    readPayload s.params.vectorAddr
      { s with mem := (s.mem.put sp.toInt.toNat (dataword s.rip)).put (sp.toInt - 1).toNat (dataword a) } = .ok h →
    service s =
      { s with
        mem := (s.mem.put sp.toInt.toNat (dataword s.rip)).put (sp.toInt - 1).toNat (dataword a)
        ric := 0#32
        rsp := .written (BitVec.ofInt 32 (sp.toInt - 2))
        rip := h
        trap := true
        tick := s.tick + 3 }

/-- 60_exceptions.md R252, R256, 40_control_cycle.md R118: a raise in a service ends the run with the earlier micro-steps
kept and `ric` cleared only if the first one completed. -/
def Obligations.ServiceRaises : Prop :=
  ∀ s : State,
    (∀ c, readReg .rsp s = .error c → service s = raise c s) ∧
    ∀ sp, readReg .rsp s = .ok sp →
      ((sp.toInt < 0 ∨ (s.params.memSize : Int) ≤ sp.toInt) →
        service s = raise (.addressOutOfRange sp.toInt) s) ∧
      (0 ≤ sp.toInt → sp.toInt < s.params.memSize →
        (∀ c, readReg .rax s = .error c → service s = raise c
          { s with
            mem := s.mem.put sp.toInt.toNat (dataword s.rip), ric := 0#32
            rsp := .written (BitVec.ofInt 32 (sp.toInt - 1)), tick := s.tick + 1 }) ∧
        (∀ a, readReg .rax s = .ok a → sp.toInt = 0 → service s = raise (.addressOutOfRange (-1))
          { s with
            mem := s.mem.put 0 (dataword s.rip), ric := 0#32
            rsp := .written (BitVec.ofInt 32 (-1)), tick := s.tick + 1 }) ∧
        ∀ a c m, readReg .rax s = .ok a → 1 ≤ sp.toInt →
          m = (s.mem.put sp.toInt.toNat (dataword s.rip)).put (sp.toInt - 1).toNat (dataword a) →
          readPayload s.params.vectorAddr { s with mem := m } = .error c →
          service s = raise c
            { s with
              mem := m, ric := 0#32
              rsp := .written (BitVec.ofInt 32 (sp.toInt - 2)), tick := s.tick + 2 })

/-- 60_exceptions.md R254: after a service, `iret` from any state with `rsp` and the two stack cells unchanged restores
exactly the `rip` and `rax` that service saved, sets EN and clears `trap`; the flags, `rbx`, `rdx`, PEND and the upper bits
of `ric` stay as the handler left them. -/
def Obligations.ReturnRestoresInterrupted : Prop :=
  ∀ s u : State, s.status = .running → (service s).status = .running → u.params = s.params →
    u.rsp = (service s).rsp →
    (∀ sp, readReg .rsp u = .ok sp → memRead (sp.toInt + 1) u = memRead (sp.toInt + 1) (service s) ∧
      memRead (sp.toInt + 2) u = memRead (sp.toInt + 2) (service s)) →
    ∃ v a sp, exec .iret u = .next v ∧ v.status = u.status ∧ readReg .rax s = .ok a ∧ v.rax = .written a ∧
      v.rip = s.rip ∧ readReg .rsp s = .ok sp ∧ v.rsp = .written sp ∧ v.ric.getLsbD 0 = true ∧ v.trap = false ∧
      FlagsKept u v ∧ v.rbx = u.rbx ∧ v.rdx = u.rdx ∧ ∀ k, k ≠ 0 → v.ric.getLsbD k = u.ric.getLsbD k

/-- 10_state.md R28, 60_exceptions.md R259: only service sets `trap`, only `iret` clears it. -/
def Obligations.TrapChangesOnlyByServiceAndIret : Prop :=
  (∀ i s t, exec i s = .next t → t.trap = s.trap ∨ (i = .iret ∧ t.trap = false)) ∧
  (∀ s : State, (finishCycle s).trap = s.trap ∨
    (s.status = .running ∧ serviceDue (pendingLogic s) = true ∧ (finishCycle s).trap = true)) ∧
  ∀ s t, step s = .next t → s.trap = true → t.trap = false → fetchDecode s = .ok .iret

/-! ## Whole-machine rules -/

/-- 20_memory.md R69: a step turns a cell only into a data word, so a program can never make a new instruction word. -/
def Obligations.StepsWriteOnlyDataWords : Prop :=
  ∀ s t : State, step s = .next t → ∀ a,
    (t.mem.cell a = s.mem.cell a ∨ ∃ v, t.mem.cell a = some (dataword v)) ∧
    (∀ w i, t.mem.cell a = some w → decode t.params.opcodeMap w = .ok i → s.mem.cell a = some w) ∧
    (∀ v, t.status = .running → t.mem.cell a = some (dataword v) → t.rip.toInt = (a : Int) →
      a < t.params.memSize → step t = .next (raise (.malformedWord (dataword v)) t))

/-- 10_state.md R27: a cycle whose instruction is none of the nine ALU instructions leaves the flags alone, interrupt
service included. -/
def Obligations.FlagsWrittenOnlyByAlu : Prop :=
  (∀ s t : State, step s = .next t → (∀ i, fetchDecode s = .ok i → isAlu i = false) → FlagsKept s t) ∧
  (∀ s : State, FlagsKept s (finishCycle s)) ∧ ∀ s : State, FlagsKept s (service s)

/-- 20_memory.md R56, R61, R62: only `movi` takes from the input queue, one head at a time; only `movo` appends to the
output, one character at a time; no cycle end does either. -/
def Obligations.PortsChangeOnlyByPortInstructions : Prop :=
  (∀ i s t, exec i s = .next t →
    ((∀ d p, i ≠ .movi d p) → t.inq = s.inq) ∧ (t.inq = s.inq ∨ ∃ e, s.inq = e :: t.inq) ∧
    ((∀ p x, i ≠ .movo p x) → t.outq = s.outq) ∧ (t.outq = s.outq ∨ ∃ c, t.outq = s.outq ++ [c])) ∧
  ∀ s : State, QueuesKept s (finishCycle s)

/-- 10_state.md R36: no step changes a parameter. -/
def Obligations.ParametersNeverChange : Prop := ∀ s t : State, step s = .next t → t.params = s.params

/-- 60_exceptions.md R241: the conditions each instruction, a fetch and a service can raise. -/
def Obligations.ConditionsEachCanRaise : Prop :=
  (∀ i s t c ip, s.status = .running → exec i s = .next t → t.status = .raised c ip → mayRaise i c = true) ∧
  (∀ s c, fetchDecode s = .error c → accessCond c = true ∨ ∃ w, c = .malformedWord w) ∧
  ∀ s c ip, s.status = .running → (service s).status = .raised c ip → accessCond c = true

/-- 40_control_cycle.md R114: the tick cost of every form that completes, of a service, and the bound where one raises. -/
def Obligations.TickCosts : Prop :=
  (∀ i s t, s.status = .running → exec i s = .next t →
    ((t.status = .running ∨ t.status = .halted) → t.tick = s.tick + tickCost i) ∧
    (∀ c ip, t.status = .raised c ip → s.tick ≤ t.tick ∧ t.tick ≤ s.tick + tickCost i)) ∧
  ∀ s : State, s.status = .running → (service s).status = .running → (service s).tick = s.tick + 3

/-! ## Frames, whatever the instruction's outcome: where it raises, too -/

/-- Frame of `halt`, `ei`, `di`, `nop` and the branches: only `rip`, and `ric` for `ei` and `di`, can change among the
registers; no flag, no cell, no queue; the instruction counter only by `halt`. -/
def Obligations.ControlInstructionFrame : Prop :=
  ∀ (s t : State) (x : Src),
    (exec .halt s = .next t →
      RegsKept [] s t ∧ FlagsKept s t ∧ MemKept s t ∧ QueuesKept s t ∧ t.params = s.params ∧ t.trap = s.trap ∧
        t.tick = s.tick) ∧
    (∀ i ∈ [Instr.ei, .di],
      exec i s = .next t →
        RegsKept [.rip, .ric] s t ∧ FlagsKept s t ∧ MemKept s t ∧ QueuesKept s t ∧ ControlKept s t) ∧
    (∀ i ∈ [Instr.nop, .jmp x, .jz x, .jnz x, .jn x, .jnn x],
      exec i s = .next t →
        RegsKept [.rip] s t ∧ FlagsKept s t ∧ MemKept s t ∧ QueuesKept s t ∧ ControlKept s t)

/-- Frame of `iret`: `rbx`, `rdx`, the flags, memory and the queues stay; of `ric` only bit 0 can change. -/
def Obligations.IretFrame : Prop :=
  ∀ s t : State, exec .iret s = .next t →
    RegsKept [.rax, .rip, .rsp, .ric] s t ∧ (∀ k, k ≠ 0 → t.ric.getLsbD k = s.ric.getLsbD k) ∧ FlagsKept s t ∧
    MemKept s t ∧ QueuesKept s t ∧ t.params = s.params ∧ t.icount = s.icount

/-- Frame of the ALU instructions: a register destination changes that register and `rip` and no cell; a memory
destination changes `rip` and the one cell it names; `cmp` changes `rip` only; the flags may change. -/
def Obligations.AluInstructionFrame : Prop :=
  (∀ mk ∈ [Instr.add, .sub, .mul, .div, .mod, .xor, .and, .or], ∀ (d : Dest) (src : Src) (s t : State),
    exec (mk d src) s = .next t →
      (match d with
        | .reg r => RegsKept [r, .rip] s t
        | .direct _ => RegsKept [.rip] s t
        | .indirect _ => RegsKept [.rip] s t) ∧
      StoresOnlyAt (resolveDest d s) s t ∧ QueuesKept s t ∧ ControlKept s t) ∧
  ∀ (d : Dest) (src : Src) (s t : State), exec (.cmp d src) s = .next t →
    RegsKept [.rip] s t ∧ MemKept s t ∧ QueuesKept s t ∧ ControlKept s t

/-- Frame of `mov`, `movo` and `movi`: no flag; `mov` no queue, `movo` no cell and not the input, `movi` not the output;
a destination changes only what it names. -/
def Obligations.MoveInstructionFrame : Prop :=
  ∀ (d : Dest) (src : Src) (port : Value) (s t : State),
    (exec (.mov d src) s = .next t →
      (match d with
        | .reg r => RegsKept [r, .rip] s t
        | .direct _ => RegsKept [.rip] s t
        | .indirect _ => RegsKept [.rip] s t) ∧
      FlagsKept s t ∧ StoresOnlyAt (resolveDest d s) s t ∧ QueuesKept s t ∧ ControlKept s t) ∧
    (exec (.movo port src) s = .next t →
      RegsKept [.rip] s t ∧ FlagsKept s t ∧ MemKept s t ∧ t.inq = s.inq ∧ ControlKept s t) ∧
    (exec (.movi d port) s = .next t →
      (match d with
        | .reg r => RegsKept [r, .rip] s t
        | .direct _ => RegsKept [.rip] s t
        | .indirect _ => RegsKept [.rip] s t) ∧
      FlagsKept s t ∧ StoresOnlyAt (resolveDest d s) s t ∧ t.outq = s.outq ∧ ControlKept s t)

/-! ## The image -/

/-- 70_reset_and_hazards.md R280, R282: a launched run has the request's parameters; the bare form puts the data image from
0 onward and the text image right after it, the listing form puts each word at its address; `ENTRY` is the one given, or
the address of the first text word. -/
def Obligations.LaunchPlacesImage : Prop :=
  ∀ (r : LaunchRequest) (t : State), launch r = .next t →
    (t.params.memSize = r.memSize ∧ t.params.limit = r.limit ∧ t.params.vectorAddr = r.vectorAddr ∧
      t.params.entry = t.rip ∧ t.params.spReset = r.spReset ∧ t.params.policy = r.policy ∧
      t.params.opcodeMap = r.opcodeMap) ∧
    (∀ v, r.entry = some v → t.rip = v) ∧
    (∀ data text, r.image = .bare data text →
      (∀ (k : Nat) (w : Word), data[k]? = some w → t.mem.cell k = some w) ∧
      (∀ (k : Nat) (w : Word), text[k]? = some w → t.mem.cell (data.length + k) = some w) ∧
      (∀ a, data.length + text.length ≤ a → t.mem.cell a = none) ∧
      (r.entry = none → text ≠ [] ∧ t.rip.toInt = (data.length : Int))) ∧
    (∀ data text, r.image = .listing data text →
      (∀ x, x ∈ data ∨ x ∈ text → 0 ≤ x.1 ∧ t.mem.cell x.1.toNat = some x.2) ∧
      (∀ a : Nat, (∀ w, ((a : Int), w) ∉ data ∧ ((a : Int), w) ∉ text) → t.mem.cell a = none) ∧
      (r.entry = none → ∃ x rest, text = x :: rest ∧ t.rip.toInt = x.1))
end

