-- ==== Sys2Proof/Laws/Memory.lean ====
section
/-! SUPPORT. What reading a cell gives after a write, and that a write keeps memory in its canonical form. -/

namespace Sys2Proof.Machine

theorem Memory.cell_put_same (m : Memory) (a : Nat) (w : Word) : (m.put a w).cell a = some w := by
  induction m with
  | nil => simp [Memory.put, Memory.cell]
  | cons x rest ih =>
    obtain ⟨b, y⟩ := x
    simp only [Memory.put]
    split
    · simp [Memory.cell]
    · split
      · simp [Memory.cell]
      · rename_i h
        simp [Memory.cell, h, ih]

theorem Memory.cell_put_other (m : Memory) {a b : Nat} (w : Word) (h : b ≠ a) :
    (m.put a w).cell b = m.cell b := by
  induction m with
  | nil => simp [Memory.put, Memory.cell, h]
  | cons x rest ih =>
    obtain ⟨k, y⟩ := x
    simp only [Memory.put]
    split
    · simp [Memory.cell, h]
    · split
      · rename_i hk
        subst hk
        simp [Memory.cell, h]
      · by_cases hb : b = k <;> simp [Memory.cell, hb, ih]

/-- An entry after a write is the one written or an old one. -/
theorem Memory.mem_put {m : Memory} {a : Nat} {w : Word} {x : Nat × Word} (h : x ∈ m.put a w) :
    x = (a, w) ∨ x ∈ m := by
  induction m with
  | nil => simpa [Memory.put] using h
  | cons y rest ih =>
    obtain ⟨b, v⟩ := y
    simp only [Memory.put] at h
    split at h
    · simpa using h
    · split at h
      · rcases List.mem_cons.mp h with h | h
        · exact .inl h
        · exact .inr (List.mem_cons_of_mem _ h)
      · rcases List.mem_cons.mp h with h | h
        · exact .inr (by simp [h])
        · exact (ih h).imp id (List.mem_cons_of_mem _)

/-- The canonical form, said of the head and the tail. -/
theorem Memory.wf_cons (x : Nat × Word) (m : Memory) :
    Memory.wf (x :: m) = true ↔ (∀ y ∈ m.head?, x.1 < y.1) ∧ m.wf = true := by
  cases m <;> simp [Memory.wf]

/-- The address at the head after a write. -/
theorem Memory.head_put {m : Memory} {a : Nat} {w : Word} {y : Nat × Word} (h : y ∈ (m.put a w).head?) :
    y.1 = a ∨ y ∈ m.head? := by
  cases m with
  | nil => simp [Memory.put] at h; simp [← h]
  | cons x rest =>
    obtain ⟨b, v⟩ := x
    simp only [Memory.put] at h
    split at h
    · simp at h; simp [← h]
    · split at h <;> simp at h
      · simp [← h]
      · simp [← h]

/-- A write keeps the canonical form. -/
theorem Memory.wf_put (m : Memory) (a : Nat) (w : Word) (h : m.wf = true) : (m.put a w).wf = true := by
  induction m with
  | nil => rfl
  | cons x rest ih =>
    obtain ⟨b, v⟩ := x
    rw [Memory.wf_cons] at h
    simp only [Memory.put]
    split
    · rename_i hab
      rw [Memory.wf_cons, Memory.wf_cons]
      exact ⟨by simpa using hab, h⟩
    · split
      · rename_i hab
        subst hab
        exact (Memory.wf_cons _ _).mpr h
      · rename_i h1 h2
        refine (Memory.wf_cons _ _).mpr ⟨fun y hy => ?_, ih h.2⟩
        rcases Memory.head_put hy with hy | hy
        · simp only [hy]; omega
        · exact h.1 y hy

/-- A cell that holds a word is listed. -/
theorem Memory.mem_of_cell {m : Memory} {a : Nat} {w : Word} (h : m.cell a = some w) : (a, w) ∈ m := by
  induction m with
  | nil => simp [Memory.cell] at h
  | cons x rest ih =>
    obtain ⟨b, v⟩ := x
    simp only [Memory.cell] at h
    split at h
    · rename_i hab
      simp_all
    · exact List.mem_cons_of_mem _ (ih h)

end Sys2Proof.Machine
end

