-- ==== Sys2Proof/Laws/State.lean ====
section
/-! SUPPORT. What each named state update leaves in each field, and in each register: the lemmas that make unfolding a
record update unnecessary. -/

namespace Sys2Proof.Machine

variable (s : State) (c : Cond) (o : AluOut) (r : Reg) (v : Value)

/-! ## `raise` -/

@[simp] theorem raise_params : (raise c s).params = s.params := rfl
@[simp] theorem raise_rax : (raise c s).rax = s.rax := rfl
@[simp] theorem raise_rbx : (raise c s).rbx = s.rbx := rfl
@[simp] theorem raise_rdx : (raise c s).rdx = s.rdx := rfl
@[simp] theorem raise_rip : (raise c s).rip = s.rip := rfl
@[simp] theorem raise_rsp : (raise c s).rsp = s.rsp := rfl
@[simp] theorem raise_ric : (raise c s).ric = s.ric := rfl
@[simp] theorem raise_flagN : (raise c s).flagN = s.flagN := rfl
@[simp] theorem raise_flagZ : (raise c s).flagZ = s.flagZ := rfl
@[simp] theorem raise_flagOF : (raise c s).flagOF = s.flagOF := rfl
@[simp] theorem raise_trap : (raise c s).trap = s.trap := rfl
@[simp] theorem raise_tick : (raise c s).tick = s.tick := rfl
@[simp] theorem raise_icount : (raise c s).icount = s.icount := rfl
@[simp] theorem raise_status : (raise c s).status = .raised c s.rip := rfl
@[simp] theorem raise_mem : (raise c s).mem = s.mem := rfl
@[simp] theorem raise_inq : (raise c s).inq = s.inq := rfl
@[simp] theorem raise_outq : (raise c s).outq = s.outq := rfl

/-! ## `stepEnd` -/

@[simp] theorem stepEnd_params : (stepEnd s).params = s.params := rfl
@[simp] theorem stepEnd_rax : (stepEnd s).rax = s.rax := rfl
@[simp] theorem stepEnd_rbx : (stepEnd s).rbx = s.rbx := rfl
@[simp] theorem stepEnd_rdx : (stepEnd s).rdx = s.rdx := rfl
@[simp] theorem stepEnd_rip : (stepEnd s).rip = s.rip := rfl
@[simp] theorem stepEnd_rsp : (stepEnd s).rsp = s.rsp := rfl
@[simp] theorem stepEnd_ric : (stepEnd s).ric = s.ric := rfl
@[simp] theorem stepEnd_flagN : (stepEnd s).flagN = s.flagN := rfl
@[simp] theorem stepEnd_flagZ : (stepEnd s).flagZ = s.flagZ := rfl
@[simp] theorem stepEnd_flagOF : (stepEnd s).flagOF = s.flagOF := rfl
@[simp] theorem stepEnd_trap : (stepEnd s).trap = s.trap := rfl
@[simp] theorem stepEnd_tick : (stepEnd s).tick = s.tick + 1 := rfl
@[simp] theorem stepEnd_icount : (stepEnd s).icount = s.icount := rfl
@[simp] theorem stepEnd_status : (stepEnd s).status = s.status := rfl
@[simp] theorem stepEnd_mem : (stepEnd s).mem = s.mem := rfl
@[simp] theorem stepEnd_inq : (stepEnd s).inq = s.inq := rfl
@[simp] theorem stepEnd_outq : (stepEnd s).outq = s.outq := rfl

/-! ## `setFlags` -/

@[simp] theorem setFlags_params : (setFlags o s).params = s.params := rfl
@[simp] theorem setFlags_rax : (setFlags o s).rax = s.rax := rfl
@[simp] theorem setFlags_rbx : (setFlags o s).rbx = s.rbx := rfl
@[simp] theorem setFlags_rdx : (setFlags o s).rdx = s.rdx := rfl
@[simp] theorem setFlags_rip : (setFlags o s).rip = s.rip := rfl
@[simp] theorem setFlags_rsp : (setFlags o s).rsp = s.rsp := rfl
@[simp] theorem setFlags_ric : (setFlags o s).ric = s.ric := rfl
@[simp] theorem setFlags_flagN : (setFlags o s).flagN = .written o.n := rfl
@[simp] theorem setFlags_flagZ : (setFlags o s).flagZ = .written o.z := rfl
@[simp] theorem setFlags_flagOF : (setFlags o s).flagOF = .written o.ovf := rfl
@[simp] theorem setFlags_trap : (setFlags o s).trap = s.trap := rfl
@[simp] theorem setFlags_tick : (setFlags o s).tick = s.tick := rfl
@[simp] theorem setFlags_icount : (setFlags o s).icount = s.icount := rfl
@[simp] theorem setFlags_status : (setFlags o s).status = s.status := rfl
@[simp] theorem setFlags_mem : (setFlags o s).mem = s.mem := rfl
@[simp] theorem setFlags_inq : (setFlags o s).inq = s.inq := rfl
@[simp] theorem setFlags_outq : (setFlags o s).outq = s.outq := rfl

/-! ## `setReg` -/

@[simp] theorem setReg_params : (setReg r v s).params = s.params := by cases r <;> rfl
@[simp] theorem setReg_flagN : (setReg r v s).flagN = s.flagN := by cases r <;> rfl
@[simp] theorem setReg_flagZ : (setReg r v s).flagZ = s.flagZ := by cases r <;> rfl
@[simp] theorem setReg_flagOF : (setReg r v s).flagOF = s.flagOF := by cases r <;> rfl
@[simp] theorem setReg_trap : (setReg r v s).trap = s.trap := by cases r <;> rfl
@[simp] theorem setReg_tick : (setReg r v s).tick = s.tick := by cases r <;> rfl
@[simp] theorem setReg_icount : (setReg r v s).icount = s.icount := by cases r <;> rfl
@[simp] theorem setReg_status : (setReg r v s).status = s.status := by cases r <;> rfl
@[simp] theorem setReg_mem : (setReg r v s).mem = s.mem := by cases r <;> rfl
@[simp] theorem setReg_inq : (setReg r v s).inq = s.inq := by cases r <;> rfl
@[simp] theorem setReg_outq : (setReg r v s).outq = s.outq := by cases r <;> rfl
theorem setReg_rax : (setReg r v s).rax = if r = .rax then .written v else s.rax := by cases r <;> rfl
theorem setReg_rbx : (setReg r v s).rbx = if r = .rbx then .written v else s.rbx := by cases r <;> rfl
theorem setReg_rdx : (setReg r v s).rdx = if r = .rdx then .written v else s.rdx := by cases r <;> rfl
theorem setReg_rip : (setReg r v s).rip = if r = .rip then v else s.rip := by cases r <;> rfl
theorem setReg_rsp : (setReg r v s).rsp = if r = .rsp then .written v else s.rsp := by cases r <;> rfl
theorem setReg_ric : (setReg r v s).ric = if r = .ric then v else s.ric := by cases r <;> rfl

/-! ## What a register holds -/

@[simp] theorem regSlot_raise (x : Reg) : regSlot x (raise c s) = regSlot x s := by cases x <;> rfl
@[simp] theorem regSlot_stepEnd (x : Reg) : regSlot x (stepEnd s) = regSlot x s := by cases x <;> rfl
@[simp] theorem regSlot_setFlags (x : Reg) : regSlot x (setFlags o s) = regSlot x s := by cases x <;> rfl
@[simp] theorem regSlot_setReg_same : regSlot r (setReg r v s) = .written v := by cases r <;> rfl
theorem regSlot_setReg_other {x : Reg} (h : x ≠ r) : regSlot x (setReg r v s) = regSlot x s := by
  cases x <;> cases r <;> first | rfl | exact absurd rfl h

end Sys2Proof.Machine
end

