-- ==== Sys2Proof/Laws/Ops.lean ====
section
/-! SUPPORT. One lemma for each shared operation that says what it can do: the micro-step, register and memory access, the
stack, the advance, the boundary. The instruction proofs cite these and do not unfold the operations. -/

namespace Sys2Proof.Machine

/-! ## The micro-step -/

theorem micro_ok {α : Type} {body : State → Except Cond (α × State)} {rest : α → State → State} {s t : State} {a : α}
    (h : body s = .ok (a, t)) : micro body rest s = rest a (stepEnd t) := by
  simp [micro, h]

theorem micro_error {α : Type} {body : State → Except Cond (α × State)} {rest : α → State → State} {s : State}
    {c : Cond} (h : body s = .error c) : micro body rest s = raise c s := by
  simp [micro, h]

/-- To show a property of a micro-step and its rest: show it of the raise, and of the rest after each success. -/
theorem micro_rule {α : Type} (P : State → Prop) {body : State → Except Cond (α × State)} {rest : α → State → State}
    {s : State} (hr : ∀ c, body s = .error c → P (raise c s))
    (ho : ∀ a t, body s = .ok (a, t) → P (rest a (stepEnd t))) : P (micro body rest s) := by
  unfold micro
  split
  · exact hr _ ‹_›
  · exact ho _ _ ‹_›

/-! ## `do` in `Except`, one equation for each outcome -/

theorem bind_ok {α β : Type} {x : Except Cond α} {f : α → Except Cond β} {b : β} :
    (x >>= f) = .ok b ↔ ∃ a, x = .ok a ∧ f a = .ok b := by
  cases x <;> simp [bind, Except.bind]

theorem bind_error {α β : Type} {x : Except Cond α} {f : α → Except Cond β} {c : Cond} :
    (x >>= f) = .error c ↔ x = .error c ∨ ∃ a, x = .ok a ∧ f a = .error c := by
  cases x <;> simp [bind, Except.bind]

@[simp] theorem ok_bind {α β : Type} (a : α) (f : α → Except Cond β) : ((.ok a : Except Cond α) >>= f) = f a := rfl

@[simp] theorem error_bind {α β : Type} (c : Cond) (f : α → Except Cond β) :
    ((.error c : Except Cond α) >>= f) = .error c := rfl

/-! ## Reads do not see ticks or flags -/

/-- The reads of `t` are those of `s`. -/
structure SameReads (s t : State) : Prop where
  params : t.params = s.params
  regs : ∀ r, regSlot r t = regSlot r s
  mem : t.mem = s.mem

theorem SameReads.refl (s : State) : SameReads s s := ⟨rfl, fun _ => rfl, rfl⟩

theorem sameReads_stepEnd (s : State) : SameReads s (stepEnd s) := ⟨rfl, fun r => by simp, rfl⟩

theorem sameReads_setFlags (o : AluOut) (s : State) : SameReads s (setFlags o s) := ⟨rfl, fun r => by simp, rfl⟩

theorem sameReads_raise (c : Cond) (s : State) : SameReads s (raise c s) := ⟨rfl, fun r => by simp, rfl⟩

theorem SameReads.trans {s t u : State} (h : SameReads s t) (k : SameReads t u) : SameReads s u :=
  ⟨k.params.trans h.params, fun r => (k.regs r).trans (h.regs r), k.mem.trans h.mem⟩

theorem SameReads.readReg {s t : State} (h : SameReads s t) (r : Reg) : readReg r t = readReg r s := by
  simp [Machine.readReg, readSlot, h.regs, h.params]

theorem SameReads.inMemory {s t : State} (h : SameReads s t) (a : Int) : inMemory a t = inMemory a s := by
  simp [Machine.inMemory, h.params]

theorem SameReads.memRead {s t : State} (h : SameReads s t) (a : Int) : memRead a t = memRead a s := by
  simp [Machine.memRead, h.inMemory, h.mem, h.params]

theorem SameReads.readPayload {s t : State} (h : SameReads s t) (a : Int) : readPayload a t = readPayload a s := by
  simp [Machine.readPayload, h.memRead]

theorem SameReads.resolveValue {s t : State} (h : SameReads s t) (x : Src) : resolveValue x t = resolveValue x s := by
  cases x <;> simp [Machine.resolveValue, h.readReg, h.readPayload]

theorem SameReads.resolveDest {s t : State} (h : SameReads s t) (d : Dest) : resolveDest d t = resolveDest d s := by
  cases d <;> simp [Machine.resolveDest, h.readPayload]

@[simp] theorem memRead_stepEnd (a : Int) (s : State) : memRead a (stepEnd s) = memRead a s :=
  (sameReads_stepEnd s).memRead a
@[simp] theorem readReg_stepEnd (r : Reg) (s : State) : readReg r (stepEnd s) = readReg r s :=
  (sameReads_stepEnd s).readReg r
@[simp] theorem readPayload_stepEnd (a : Int) (s : State) : readPayload a (stepEnd s) = readPayload a s :=
  (sameReads_stepEnd s).readPayload a
@[simp] theorem resolveValue_stepEnd (x : Src) (s : State) : resolveValue x (stepEnd s) = resolveValue x s :=
  (sameReads_stepEnd s).resolveValue x
@[simp] theorem resolveDest_stepEnd (d : Dest) (s : State) : resolveDest d (stepEnd s) = resolveDest d s :=
  (sameReads_stepEnd s).resolveDest d
@[simp] theorem resolveDest_setFlags (d : Dest) (o : AluOut) (s : State) :
    resolveDest d (setFlags o s) = resolveDest d s :=
  (sameReads_setFlags o s).resolveDest d
@[simp] theorem memRead_raise (a : Int) (c : Cond) (s : State) : memRead a (raise c s) = memRead a s :=
  (sameReads_raise c s).memRead a
@[simp] theorem inMemory_stepEnd (a : Int) (s : State) : inMemory a (stepEnd s) = inMemory a s :=
  (sameReads_stepEnd s).inMemory a
@[simp] theorem inMemory_setFlags (a : Int) (o : AluOut) (s : State) : inMemory a (setFlags o s) = inMemory a s :=
  (sameReads_setFlags o s).inMemory a

/-! ## Registers -/

theorem inS32_toInt (v : Value) : inS32 v.toInt = true := by
  have h1 := @BitVec.le_toInt 32 v
  have h2 := @BitVec.toInt_lt 32 v
  simp only [inS32, decide_eq_true_eq]
  omega

theorem toInt_ofInt {v : Int} (h : inS32 v = true) : (BitVec.ofInt 32 v).toInt = v := by
  simp only [inS32, decide_eq_true_eq] at h
  rw [BitVec.toInt_ofInt]
  exact Int.bmod_eq_of_le (by omega) (by omega)

theorem writeReg_ok {r : Reg} {v : Int} {s t : State} :
    writeReg r v s = .ok t ↔ inS32 v = true ∧ t = setReg r (BitVec.ofInt 32 v) s := by
  cases h : inS32 v <;> simp [writeReg, h, eq_comm (b := t)]

theorem writeReg_error {r : Reg} {v : Int} {s : State} {c : Cond} :
    writeReg r v s = .error c ↔ inS32 v = false ∧ c = .valueOutOfRange v := by
  cases h : inS32 v <;> simp [writeReg, h, eq_comm (b := c)]

/-- An unwritten item raises only under the fault policy, and names itself. -/
theorem readSlot_error {α : Type} {x : Slot α} {z : α} {i : Item} {s : State} {c : Cond} :
    readSlot x z i s = .error c ↔ x = .unwritten ∧ s.params.policy = .fault ∧ c = .uninitialisedRead i := by
  cases x <;> cases h : s.params.policy <;> simp [readSlot, h, eq_comm (b := c)]

theorem readReg_error {r : Reg} {s : State} {c : Cond} :
    readReg r s = .error c ↔
      regSlot r s = .unwritten ∧ s.params.policy = .fault ∧ c = .uninitialisedRead (.reg r) := readSlot_error

theorem readReg_of_written {r : Reg} {s : State} {v : Value} (h : regSlot r s = .written v) :
    readReg r s = .ok v := by
  simp [readReg, readSlot, h]

/-! ## Memory -/

theorem inMemory_iff {a : Int} {s : State} : inMemory a s = true ↔ 0 ≤ a ∧ a < s.params.memSize := by
  simp [inMemory]

/-- What a memory read can raise. -/
theorem memRead_error {a : Int} {s : State} {c : Cond} (h : memRead a s = .error c) :
    (inMemory a s = false ∧ c = .addressOutOfRange a) ∨
      (inMemory a s = true ∧ s.params.policy = .fault ∧ c = .uninitialisedRead (.cell a)) := by
  cases hm : inMemory a s
  · simp only [memRead, hm] at h
    exact .inl ⟨rfl, by simpa using h.symm⟩
  · cases hc : s.mem.cell a.toNat <;> cases hp : s.params.policy <;> simp [memRead, hm, hc, hp] at h
    exact .inr ⟨rfl, rfl, h.symm⟩

theorem memWrite_ok {a : Int} {w : Word} {s t : State} :
    memWrite a w s = .ok t ↔ inMemory a s = true ∧ t = { s with mem := s.mem.put a.toNat w } := by
  cases h : inMemory a s <;> simp [memWrite, h, eq_comm (b := t)]

theorem memWrite_error {a : Int} {w : Word} {s : State} {c : Cond} :
    memWrite a w s = .error c ↔ inMemory a s = false ∧ c = .addressOutOfRange a := by
  cases h : inMemory a s <;> simp [memWrite, h, eq_comm (b := c)]

theorem writePayload_ok {a v : Int} {s t : State} :
    writePayload a v s = .ok t ↔ inS32 v = true ∧ inMemory a s = true ∧
      t = { s with mem := s.mem.put a.toNat (dataword (BitVec.ofInt 32 v)) } := by
  cases h : inS32 v <;> simp [writePayload, h, memWrite_ok]

theorem writePayload_error {a v : Int} {s : State} {c : Cond} :
    writePayload a v s = .error c ↔ (inS32 v = false ∧ c = .valueOutOfRange v) ∨
      (inS32 v = true ∧ inMemory a s = false ∧ c = .addressOutOfRange a) := by
  cases h : inS32 v <;> simp [writePayload, h, memWrite_error, eq_comm (b := c)]

theorem readPayload_ok {a : Int} {s : State} {v : Value} :
    readPayload a s = .ok v ↔ ∃ w, memRead a s = .ok w ∧ v = payload w := by
  cases h : memRead a s <;> simp [readPayload, h, eq_comm (b := v)]

theorem readPayload_error {a : Int} {s : State} {c : Cond} :
    readPayload a s = .error c ↔ memRead a s = .error c := by
  cases h : memRead a s <;> simp [readPayload, h]

theorem memRead_ok_inMemory {a : Int} {s : State} {w : Word} (h : memRead a s = .ok w) : inMemory a s = true := by
  unfold memRead at h
  split at h
  · assumption
  · cases h

/-- After a write to a cell, that cell reads as what was written. -/
theorem memRead_put_same {a : Int} {w : Word} {s : State} (h : inMemory a s = true) :
    memRead a { s with mem := s.mem.put a.toNat w } = .ok w := by
  have h' : inMemory a { s with mem := s.mem.put a.toNat w } = true := by simpa [inMemory] using h
  simp [memRead, h', Memory.cell_put_same]

/-- After a write to a cell in memory, every other address reads as before. -/
theorem memRead_put_other {a b : Int} {w : Word} {s : State} (ha : inMemory a s = true) (h : b ≠ a) :
    memRead b { s with mem := s.mem.put a.toNat w } = memRead b s := by
  have h' : inMemory b { s with mem := s.mem.put a.toNat w } = inMemory b s := rfl
  simp only [memRead, h']
  split
  · rename_i hb
    rw [inMemory_iff] at ha hb
    have : b.toNat ≠ a.toNat := by omega
    simp [Memory.cell_put_other _ _ this]
  · rfl

/-- The payload of a data word is its value. -/
@[simp] theorem payload_dataword (v : Value) : payload (dataword v) = v := by
  apply BitVec.eq_of_getLsbD_eq
  intro i hi
  simp only [payload, v1Field, dataword, BitVec.getLsbD_extractLsb', assemble, BitVec.getLsbD_append]
  simp [show ¬ (36 + i < 32) by omega, hi, show ¬ (36 + i - 32 < 4) by omega, show 36 + i - 32 - 4 = i by omega]

/-! ## Operands -/

theorem resolveDest_reg (r : Reg) (s : State) : resolveDest (.reg r) s = .ok (.reg r) := rfl

/-- What resolving a value can raise. -/
theorem resolveValue_error {x : Src} {s : State} {c : Cond} (h : resolveValue x s = .error c) :
    (∃ r, readReg r s = .error c) ∨ ∃ a, memRead a s = .error c := by
  cases x with
  | imm v => cases h
  | reg r => exact .inl ⟨r, h⟩
  | direct a => exact .inr ⟨_, readPayload_error.mp h⟩
  | indirect a =>
    rcases bind_error.mp h with h | ⟨p, _, h⟩
    · exact .inr ⟨_, readPayload_error.mp h⟩
    · exact .inr ⟨_, readPayload_error.mp h⟩

/-- What resolving a destination can raise. -/
theorem resolveDest_error {d : Dest} {s : State} {c : Cond} (h : resolveDest d s = .error c) :
    ∃ a, memRead a s = .error c := by
  cases d with
  | reg r => cases h
  | direct a => cases h
  | indirect a =>
    rcases bind_error.mp h with h | ⟨p, _, h⟩
    · exact ⟨_, readPayload_error.mp h⟩
    · cases h

theorem writeDest_ok {d : Dest} {v : Int} {s t : State} :
    writeDest d v s = .ok t ↔ ∃ l, resolveDest d s = .ok l ∧ writeLoc l v s = .ok t := bind_ok

/-- A destination write that succeeds wrote one register or one cell. -/
theorem writeLoc_ok {l : Loc} {v : Int} {s t : State} (h : writeLoc l v s = .ok t) :
    inS32 v = true ∧
      ((∃ r, l = .reg r ∧ t = setReg r (BitVec.ofInt 32 v) s) ∨
        ∃ a, l = .mem a ∧ inMemory a s = true ∧
          t = { s with mem := s.mem.put a.toNat (dataword (BitVec.ofInt 32 v)) }) := by
  cases l with
  | reg r =>
    have h := writeReg_ok.mp h
    exact ⟨h.1, .inl ⟨r, rfl, h.2⟩⟩
  | mem a =>
    have h := writePayload_ok.mp h
    exact ⟨h.1, .inr ⟨a, rfl, h.2⟩⟩

/-- What a destination write can raise. -/
theorem writeLoc_error {l : Loc} {v : Int} {s : State} {c : Cond} (h : writeLoc l v s = .error c) :
    (inS32 v = false ∧ c = .valueOutOfRange v) ∨
      ∃ a, l = .mem a ∧ inS32 v = true ∧ inMemory a s = false ∧ c = .addressOutOfRange a := by
  cases l with
  | reg r => exact .inl (writeReg_error.mp h)
  | mem a =>
    rcases writePayload_error.mp h with h | h
    · exact .inl h
    · exact .inr ⟨a, rfl, h⟩

/-! ## The stack -/

theorem push_ok {v : Value} {s t : State} (h : push v s = .ok t) :
    ∃ sp, readReg .rsp s = .ok sp ∧ inMemory sp.toInt s = true ∧
      t = setReg .rsp (BitVec.ofInt 32 (sp.toInt - 1)) { s with mem := s.mem.put sp.toInt.toNat (dataword v) } := by
  obtain ⟨sp, h1, h⟩ := bind_ok.mp h
  obtain ⟨u, h2, h⟩ := bind_ok.mp h
  cases h
  obtain ⟨_, h3, rfl⟩ := writePayload_ok.mp h2
  exact ⟨sp, h1, h3, by simp [BitVec.ofInt_toInt]⟩

theorem push_error {v : Value} {s : State} {c : Cond} (h : push v s = .error c) :
    readReg .rsp s = .error c ∨
      ∃ sp, readReg .rsp s = .ok sp ∧ inMemory sp.toInt s = false ∧ c = .addressOutOfRange sp.toInt := by
  rcases bind_error.mp h with h | ⟨sp, h1, h⟩
  · exact .inl h
  · rcases bind_error.mp h with h | ⟨u, _, h⟩
    · rcases writePayload_error.mp h with ⟨h, _⟩ | ⟨_, h⟩
      · simp [inS32_toInt] at h
      · exact .inr ⟨sp, h1, h⟩
    · cases h

theorem pop_ok {s t : State} {v : Value} (h : pop s = .ok (v, t)) :
    ∃ sp, readReg .rsp s = .ok sp ∧ readPayload (sp.toInt + 1) s = .ok v ∧
      t = setReg .rsp (BitVec.ofInt 32 (sp.toInt + 1)) s := by
  obtain ⟨sp, h1, h⟩ := bind_ok.mp h
  obtain ⟨u, h2, h⟩ := bind_ok.mp h
  cases h
  exact ⟨sp, h1, h2, rfl⟩

theorem pop_error {s : State} {c : Cond} (h : pop s = .error c) :
    readReg .rsp s = .error c ∨ ∃ sp, readReg .rsp s = .ok sp ∧ memRead (sp.toInt + 1) s = .error c := by
  rcases bind_error.mp h with h | ⟨sp, h1, h⟩
  · exact .inl h
  · rcases bind_error.mp h with h | ⟨u, _, h⟩
    · exact .inr ⟨sp, h1, readPayload_error.mp h⟩
    · cases h

/-! ## The advance -/

/-- To a target the advance always goes. -/
theorem advance_some (t : Value) (s : State) : advance (some t) s = { s with rip := t } := by
  have e : t.toInt - 1 + 1 = t.toInt := by omega
  simp [advance, e, inS32_toInt, BitVec.ofInt_toInt]

/-- Without a target it goes one further, unless the instruction pointer is at the top. -/
theorem advance_none {s : State} (h : s.rip.toInt ≠ 2147483647) :
    advance none s = { s with rip := BitVec.ofInt 32 (s.rip.toInt + 1) } := by
  have h1 := inS32_toInt s.rip
  simp only [inS32, decide_eq_true_eq] at h1
  have e : inS32 (s.rip.toInt + 1) = true := by
    simp only [inS32, decide_eq_true_eq]
    omega
  simp [advance, e]

/-- At the top it raises. -/
theorem advance_none_top {s : State} (h : s.rip.toInt = 2147483647) :
    advance none s = raise (.addressOutOfRange 2147483648) s := by
  simp [advance, h, inS32]

/-- Either way only `rip` and `status` can change. -/
theorem advance_cases (x : Option Value) (s : State) :
    (∃ v, advance x s = { s with rip := v }) ∨
      (x = none ∧ s.rip.toInt = 2147483647 ∧ advance x s = raise (.addressOutOfRange 2147483648) s) := by
  cases x with
  | some t => exact .inl ⟨t, advance_some t s⟩
  | none =>
    by_cases h : s.rip.toInt = 2147483647
    · exact .inr ⟨rfl, h, advance_none_top h⟩
    · exact .inl ⟨_, advance_none h⟩

/-! ## The boundary and the end of the cycle -/

/-- The pending logic changes nothing but `ric`. -/
theorem pendingLogic_cases (s : State) :
    pendingLogic s = s ∨ pendingLogic s = { s with ric := setPending s.ric } := by
  unfold pendingLogic
  split
  · exact .inl rfl
  · split
    · exact .inr rfl
    · exact .inl rfl

theorem whileRunning_running {f : State → State} {s : State} (h : s.status = .running) :
    whileRunning f s = f s := by
  simp [whileRunning, h]

theorem whileRunning_ended {f : State → State} {s : State} (h : s.status ≠ .running) :
    whileRunning f s = s := by
  unfold whileRunning
  split <;> simp_all

end Sys2Proof.Machine
end

