-- ==== Sys2Proof/Laws/Families.lean ====
section
/-! SUPPORT. For each family of instructions and for service, one lemma that lists everything it can do: which reads
succeeded or what was raised, and the state it gives in each case. -/

namespace Sys2Proof.Machine

/-! ## Two shapes of the micro-step -/

/-- A micro-step with a value and no effect. -/
theorem bind_pure_ok {α β : Type} {x : Except Cond α} {f : α → β} {b : β} :
    (x >>= fun a => pure (f a)) = .ok b ↔ ∃ a, x = .ok a ∧ b = f a := by
  cases x <;> simp [bind, Except.bind, pure, Except.pure, eq_comm (b := b)]

theorem bind_pure_error {α β : Type} {x : Except Cond α} {f : α → β} {c : Cond} :
    ((x >>= fun a => pure (f a)) : Except Cond β) = .error c ↔ x = .error c := by
  cases x <;> simp [bind, Except.bind, pure, Except.pure]

@[simp] theorem map_ok {α β : Type} (f : α → β) (a : α) : (f <$> (.ok a : Except Cond α)) = .ok (f a) := rfl

@[simp] theorem map_error {α β : Type} (f : α → β) (c : Cond) : (f <$> (.error c : Except Cond α)) = .error c := rfl

@[simp] theorem pure_ok {α : Type} (a : α) : (pure a : Except Cond α) = .ok a := rfl

/-! ## Branches -/

/-- A branch raises on its target, or on its condition, or advances to the target or the next word. -/
theorem branchInstr_cases (cond : State → Except Cond Bool) (x : Src) (s : State) :
    (∃ c, resolveValue x s = .error c ∧ branchInstr cond x s = raise c s) ∨
    (∃ t c, resolveValue x s = .ok t ∧ cond s = .error c ∧ branchInstr cond x s = raise c s) ∨
    (∃ t b, resolveValue x s = .ok t ∧ cond s = .ok b ∧
      branchInstr cond x s = advance (if b then some t else none) (stepEnd s)) := by
  unfold branchInstr
  cases h1 : resolveValue x s with
  | error c => exact .inl ⟨c, rfl, micro_error (by simp [h1])⟩
  | ok t =>
    cases h2 : cond s with
    | error c => exact .inr (.inl ⟨t, c, rfl, rfl, micro_error (by simp [h1, h2])⟩)
    | ok b => exact .inr (.inr ⟨t, b, rfl, rfl, micro_ok (by simp [h1, h2])⟩)

/-! ## The ALU family -/

/-- Resolving the right operand and applying the ALU. -/
theorem aluApply_cases (op : AluOp) (a : Value) (src : Src) (s : State) :
    (∃ c, resolveValue src s = .error c ∧ aluApply op a src s = .error c) ∨
    (∃ b c, resolveValue src s = .ok b ∧ alu op a b = .error c ∧ aluApply op a src s = .error c) ∨
    (∃ b o, resolveValue src s = .ok b ∧ alu op a b = .ok o ∧
      aluApply op a src s = .ok (o.result, setFlags o s)) := by
  unfold aluApply
  cases h1 : resolveValue src s with
  | error c => exact .inl ⟨c, rfl, by simp⟩
  | ok b =>
    cases h2 : alu op a b with
    | error c => exact .inr (.inl ⟨b, c, rfl, h2, by simp [h2]⟩)
    | ok o => exact .inr (.inr ⟨b, o, rfl, h2, by simp [h2]⟩)

/-- The state after the ALU has been applied in a micro-step that began in `s`. -/
def afterAlu (o : AluOut) (s : State) : State := stepEnd (setFlags o s)

/-- The register form raises before the ALU's flags, or at the write-back, or advances. -/
theorem aluRegister_cases (op : AluOp) (r : Reg) (src : Src) (s : State) :
    (∃ c, readReg r s = .error c ∧ aluRegister op r src s = raise c s) ∨
    (∃ a c, readReg r s = .ok a ∧ resolveValue src s = .error c ∧ aluRegister op r src s = raise c s) ∨
    (∃ a b c, readReg r s = .ok a ∧ resolveValue src s = .ok b ∧ alu op a b = .error c ∧
      aluRegister op r src s = raise c s) ∨
    (∃ a b o, readReg r s = .ok a ∧ resolveValue src s = .ok b ∧ alu op a b = .ok o ∧
      ((op = .cmp ∧ aluRegister op r src s = advance none (afterAlu o s)) ∨
        (op ≠ .cmp ∧ inS32 o.result = false ∧
          aluRegister op r src s = raise (.valueOutOfRange o.result) (afterAlu o s)) ∨
        (op ≠ .cmp ∧ inS32 o.result = true ∧
          aluRegister op r src s =
            advance none (stepEnd (setReg r (BitVec.ofInt 32 o.result) (afterAlu o s)))))) := by
  unfold aluRegister
  cases h1 : readReg r s with
  | error c => exact .inl ⟨c, rfl, micro_error (by simp [h1])⟩
  | ok a =>
    rcases aluApply_cases op a src s with ⟨c, h2, h3⟩ | ⟨b, c, h2, h2', h3⟩ | ⟨b, o, h2, h2', h3⟩
    · exact .inr (.inl ⟨a, c, rfl, h2, micro_error (by simp [h1, h3])⟩)
    · exact .inr (.inr (.inl ⟨a, b, c, rfl, h2, h2', micro_error (by simp [h1, h3])⟩))
    · refine .inr (.inr (.inr ⟨a, b, o, rfl, h2, h2', ?_⟩))
      rw [micro_ok (a := o.result) (t := setFlags o s) (by simp [h1, h3])]
      by_cases hc : op = .cmp
      · subst hc
        exact .inl ⟨rfl, rfl⟩
      · refine .inr ?_
        simp only []
        cases hr : inS32 o.result with
        | false =>
          refine .inl ⟨hc, rfl, micro_error ?_⟩
          exact bind_pure_error.mpr (writeReg_error.mpr ⟨hr, rfl⟩)
        | true =>
          refine .inr ⟨hc, rfl, micro_ok (a := ()) ?_⟩
          exact bind_pure_ok.mpr ⟨_, writeReg_ok.mpr ⟨hr, rfl⟩, rfl⟩

/-- The last micro-step of the memory form. -/
theorem aluStore_cmp (d : Dest) (v : Int) (s : State) : aluStore .cmp d v s = .ok ((), s) := rfl

theorem aluStore_write {op : AluOp} (h : op ≠ .cmp) (d : Dest) (v : Int) (s : State) :
    aluStore op d v s = (writeDest d v s >>= fun t => pure ((), t)) := by
  cases op <;> first | rfl | exact absurd rfl h

/-- The memory form raises at the left read, at the right read or the ALU with one tick, at the write with two, or
advances after three. -/
theorem aluMemory_cases (op : AluOp) (d : Dest) (src : Src) (s : State) :
    (∃ c, resolveValue (leftOperand d) s = .error c ∧ aluMemory op d src s = raise c s) ∨
    (∃ a c, resolveValue (leftOperand d) s = .ok a ∧ resolveValue src s = .error c ∧
      aluMemory op d src s = raise c (stepEnd s)) ∨
    (∃ a b c, resolveValue (leftOperand d) s = .ok a ∧ resolveValue src s = .ok b ∧ alu op a b = .error c ∧
      aluMemory op d src s = raise c (stepEnd s)) ∨
    (∃ a b o, resolveValue (leftOperand d) s = .ok a ∧ resolveValue src s = .ok b ∧ alu op a b = .ok o ∧
      ((op = .cmp ∧ aluMemory op d src s = advance none (stepEnd (afterAlu o (stepEnd s)))) ∨
        (∃ c, op ≠ .cmp ∧ writeDest d o.result (afterAlu o (stepEnd s)) = .error c ∧
          aluMemory op d src s = raise c (afterAlu o (stepEnd s))) ∨
        (∃ t, op ≠ .cmp ∧ writeDest d o.result (afterAlu o (stepEnd s)) = .ok t ∧
          aluMemory op d src s = advance none (stepEnd t)))) := by
  unfold aluMemory
  cases h1 : resolveValue (leftOperand d) s with
  | error c => exact .inl ⟨c, rfl, micro_error (by simp [h1])⟩
  | ok a =>
    rw [micro_ok (a := a) (t := s) (by simp [h1])]
    rcases aluApply_cases op a src (stepEnd s) with ⟨c, h2, h3⟩ | ⟨b, c, h2, h2', h3⟩ | ⟨b, o, h2, h2', h3⟩ <;>
      rw [resolveValue_stepEnd] at h2
    · exact .inr (.inl ⟨a, c, rfl, h2, micro_error h3⟩)
    · exact .inr (.inr (.inl ⟨a, b, c, rfl, h2, h2', micro_error h3⟩))
    · refine .inr (.inr (.inr ⟨a, b, o, rfl, h2, h2', ?_⟩))
      rw [micro_ok h3]
      by_cases hc : op = .cmp
      · subst hc
        exact .inl ⟨rfl, micro_ok (aluStore_cmp d _ _)⟩
      · refine .inr ?_
        cases hw : writeDest d o.result (afterAlu o (stepEnd s)) with
        | error c =>
          refine .inl ⟨c, hc, rfl, micro_error ?_⟩
          rw [aluStore_write hc]
          exact bind_pure_error.mpr hw
        | ok t =>
          refine .inr ⟨t, hc, rfl, micro_ok (a := ()) ?_⟩
          rw [aluStore_write hc]
          exact bind_pure_ok.mpr ⟨t, hw, rfl⟩

/-! ## Moves and ports -/

/-- `mov` in two steps. -/
theorem movTwoSteps_cases (d : Dest) (src : Src) (s : State) :
    (∃ c, resolveValue src s = .error c ∧ movTwoSteps d src s = raise c s) ∨
    (∃ v c, resolveValue src s = .ok v ∧ writeDest d v.toInt (stepEnd s) = .error c ∧
      movTwoSteps d src s = raise c (stepEnd s)) ∨
    (∃ v t, resolveValue src s = .ok v ∧ writeDest d v.toInt (stepEnd s) = .ok t ∧
      movTwoSteps d src s = advance none (stepEnd t)) := by
  unfold movTwoSteps
  cases h1 : resolveValue src s with
  | error c => exact .inl ⟨c, rfl, micro_error (by simp [h1])⟩
  | ok v =>
    rw [micro_ok (a := v) (t := s) (by simp [h1])]
    cases h2 : writeDest d v.toInt (stepEnd s) with
    | error c => exact .inr (.inl ⟨v, c, rfl, h2, micro_error (by simp [h2])⟩)
    | ok t => exact .inr (.inr ⟨v, t, rfl, h2, micro_ok (a := ()) (by simp [h2])⟩)

/-- `mov` in one step. -/
theorem movOneStep_cases (d : Dest) (src : Src) (s : State) :
    (∃ c, resolveValue src s = .error c ∧ movOneStep d src s = raise c s) ∨
    (∃ v c, resolveValue src s = .ok v ∧ writeDest d v.toInt s = .error c ∧ movOneStep d src s = raise c s) ∨
    (∃ v t, resolveValue src s = .ok v ∧ writeDest d v.toInt s = .ok t ∧
      movOneStep d src s = advance none (stepEnd t)) := by
  unfold movOneStep
  cases h1 : resolveValue src s with
  | error c => exact .inl ⟨c, rfl, micro_error (by simp [h1])⟩
  | ok v =>
    cases h2 : writeDest d v.toInt s with
    | error c => exact .inr (.inl ⟨v, c, rfl, h2, micro_error (by simp [h1, h2])⟩)
    | ok t => exact .inr (.inr ⟨v, t, rfl, h2, micro_ok (a := ()) (by simp [h1, h2])⟩)

/-- `movo`. -/
theorem execMovo_cases (port : Value) (src : Src) (s : State) :
    (∃ c, resolveValue src s = .error c ∧ execMovo port src s = .next (raise c s)) ∨
    (∃ v c, resolveValue src s = .ok v ∧ portWrite port.toInt v.toInt s = .error c ∧
      execMovo port src s = .next (raise c s)) ∨
    (∃ v t, resolveValue src s = .ok v ∧ portWrite port.toInt v.toInt s = .ok t ∧
      execMovo port src s = .next (advance none (stepEnd t))) := by
  unfold execMovo
  cases h1 : resolveValue src s with
  | error c => exact .inl ⟨c, rfl, congrArg _ (micro_error (by simp [h1]))⟩
  | ok v =>
    cases h2 : portWrite port.toInt v.toInt s with
    | error c => exact .inr (.inl ⟨v, c, rfl, h2, congrArg _ (micro_error (by simp [h1, h2]))⟩)
    | ok t => exact .inr (.inr ⟨v, t, rfl, h2, congrArg _ (micro_ok (a := ()) (by simp [h1, h2]))⟩)

/-- What a port write can do. -/
theorem portWrite_ok {p v : Int} {s t : State} (h : portWrite p v s = .ok t) :
    p = Config.outPort ∧ 0 ≤ v ∧ v ≤ Config.maxCodePoint ∧
      t = { s with outq := s.outq ++ [Fin.ofNat 1114112 v.toNat] } := by
  unfold portWrite at h
  split at h
  · cases h
  · split at h
    · cases h
    · cases h
      rename_i h1 h2
      exact ⟨by simpa using h1, by omega, by omega, rfl⟩

theorem portWrite_error {p v : Int} {s : State} {c : Cond} (h : portWrite p v s = .error c) :
    (p ≠ Config.outPort ∧ c = .illegalPort p) ∨
      (p = Config.outPort ∧ (v < 0 ∨ Config.maxCodePoint < v) ∧ c = .illegalCharacter v) := by
  unfold portWrite at h
  split at h
  · cases h
    exact .inl ⟨‹_›, rfl⟩
  · split at h
    · cases h
      rename_i h1 h2
      exact .inr ⟨by simpa using h1, h2, rfl⟩
    · cases h

/-- What a port read can do. -/
theorem portRead_ok {p : Int} {s t : State} {v : Value} (h : portRead p s = .ok (v, t)) :
    p = Config.inPort ∧ ∃ e rest, s.inq = e :: rest ∧ v = tokenValue e.token ∧ t = { s with inq := rest } := by
  unfold portRead at h
  split at h
  · cases h
  · rename_i hp
    split at h
    · cases h
    · rename_i e rest hq
      cases h
      exact ⟨by simpa using hp, e, rest, hq, rfl, rfl⟩

theorem portRead_error {p : Int} {s : State} {c : Cond} (h : portRead p s = .error c) :
    (p ≠ Config.inPort ∧ c = .illegalPort p) ∨ (p = Config.inPort ∧ s.inq = [] ∧ c = .inputExhausted) := by
  unfold portRead at h
  split at h
  · cases h
    exact .inl ⟨‹_›, rfl⟩
  · rename_i hp
    split at h
    · cases h
      exact .inr ⟨by simpa using hp, ‹_›, rfl⟩
    · cases h

/-- `movi`. -/
theorem execMovi_cases (d : Dest) (port : Value) (s : State) :
    (∃ c, resolveDest d s = .error c ∧ execMovi d port s = .next (raise c s)) ∨
    (∃ l c, resolveDest d s = .ok l ∧ portRead port.toInt s = .error c ∧ execMovi d port s = .next (raise c s)) ∨
    (∃ l v t c, resolveDest d s = .ok l ∧ portRead port.toInt s = .ok (v, t) ∧ writeLoc l v.toInt t = .error c ∧
      execMovi d port s = .next (raise c s)) ∨
    (∃ l v t u, resolveDest d s = .ok l ∧ portRead port.toInt s = .ok (v, t) ∧ writeLoc l v.toInt t = .ok u ∧
      execMovi d port s = .next (advance none (stepEnd u))) := by
  unfold execMovi
  cases h1 : resolveDest d s with
  | error c => exact .inl ⟨c, rfl, congrArg _ (micro_error (by simp [h1]))⟩
  | ok l =>
    cases h2 : portRead port.toInt s with
    | error c => exact .inr (.inl ⟨l, c, rfl, rfl, congrArg _ (micro_error (by simp [h1, h2]))⟩)
    | ok x =>
      obtain ⟨v, t⟩ := x
      cases h3 : writeLoc l v.toInt t with
      | error c => exact .inr (.inr (.inl ⟨l, v, t, c, rfl, rfl, h3, congrArg _ (micro_error (by simp [h1, h2, h3]))⟩))
      | ok u =>
        exact .inr (.inr (.inr ⟨l, v, t, u, rfl, rfl, h3,
          congrArg _ (micro_ok (a := ()) (by simp [h1, h2, h3]))⟩))

/-! ## Trap return and trap entry -/

/-- The state after the first micro-step of `iret`. -/
def afterPopAcc (sp a : Value) (s : State) : State :=
  stepEnd (setReg .rax a (setReg .rsp (BitVec.ofInt 32 (sp.toInt + 1)) s))

/-- `iret` raises at its first pop, at its second with the first kept, or returns. -/
theorem trapReturn_cases (s : State) :
    (∃ c, pop s = .error c ∧ trapReturn s = raise c s) ∨
    (∃ sp a c, readReg .rsp s = .ok sp ∧ readPayload (sp.toInt + 1) s = .ok a ∧
      pop (afterPopAcc sp a s) = .error c ∧ trapReturn s = raise c (afterPopAcc sp a s)) ∨
    (∃ sp a p t, readReg .rsp s = .ok sp ∧ readPayload (sp.toInt + 1) s = .ok a ∧
      pop (afterPopAcc sp a s) = .ok (p, t) ∧
      trapReturn s =
        { stepEnd { stepEnd t with ric := enable t.ric, trap := false } with rip := p }) := by
  unfold trapReturn
  cases h1 : pop s with
  | error c => exact .inl ⟨c, rfl, micro_error (by simp [h1])⟩
  | ok x =>
    obtain ⟨a, t⟩ := x
    obtain ⟨sp, hsp, ha, ht⟩ := pop_ok h1
    rw [micro_ok (a := ()) (t := setReg .rax a t) (by simp [h1])]
    have e : stepEnd (setReg .rax a t) = afterPopAcc sp a s := by rw [ht]; rfl
    rw [e]
    cases h2 : pop (afterPopAcc sp a s) with
    | error c => exact .inr (.inl ⟨sp, a, c, hsp, ha, h2, micro_error h2⟩)
    | ok y =>
      obtain ⟨p, u⟩ := y
      refine .inr (.inr ⟨sp, a, p, u, hsp, ha, h2, ?_⟩)
      rw [micro_ok h2, micro_ok (a := ()) (t := { stepEnd u with ric := enable (stepEnd u).ric, trap := false }) rfl,
        advance_some]
      rfl

/-- The state after a push that succeeded with stack pointer `sp`, in a micro-step that began in `s`. -/
def afterPush (sp v : Value) (s : State) : State :=
  stepEnd (setReg .rsp (BitVec.ofInt 32 (sp.toInt - 1)) { s with mem := s.mem.put sp.toInt.toNat (dataword v) })

/-- Service raises at its first push with nothing kept, at its second micro-step with the first kept, at the vector with
both kept, or enters the handler. -/
theorem service_cases (s : State) :
    (∃ c, push s.rip { s with ric := 0#32 } = .error c ∧ service s = raise c s) ∨
    (∃ sp, readReg .rsp s = .ok sp ∧ inMemory sp.toInt s = true ∧
      ((∃ c, readReg .rax s = .error c ∧ service s = raise c (afterPush sp s.rip { s with ric := 0#32 })) ∨
        (∃ a c, readReg .rax s = .ok a ∧ push a (afterPush sp s.rip { s with ric := 0#32 }) = .error c ∧
          service s = raise c (afterPush sp s.rip { s with ric := 0#32 })) ∨
        (∃ a sp2 c, readReg .rax s = .ok a ∧ sp2 = BitVec.ofInt 32 (sp.toInt - 1) ∧ inMemory sp2.toInt s = true ∧
          readPayload s.params.vectorAddr (afterPush sp2 a (afterPush sp s.rip { s with ric := 0#32 })) = .error c ∧
          service s = raise c (afterPush sp2 a (afterPush sp s.rip { s with ric := 0#32 }))) ∨
        (∃ a sp2 h, readReg .rax s = .ok a ∧ sp2 = BitVec.ofInt 32 (sp.toInt - 1) ∧ inMemory sp2.toInt s = true ∧
          readPayload s.params.vectorAddr (afterPush sp2 a (afterPush sp s.rip { s with ric := 0#32 })) = .ok h ∧
          service s =
            stepEnd { afterPush sp2 a (afterPush sp s.rip { s with ric := 0#32 }) with rip := h, trap := true }))) := by
  unfold service
  cases h1 : push s.rip { s with ric := 0#32 } with
  | error c => exact .inl ⟨c, rfl, micro_error (by simp [h1])⟩
  | ok t =>
    obtain ⟨sp, hsp, hin, ht⟩ := push_ok h1
    refine .inr ⟨sp, hsp, hin, ?_⟩
    rw [micro_ok (a := ()) (t := t) (by simp [h1])]
    have e : stepEnd t = afterPush sp s.rip { s with ric := 0#32 } := by rw [ht]; rfl
    rw [e]
    generalize hu : afterPush sp s.rip { s with ric := 0#32 } = u
    have hrax : readReg .rax u = readReg .rax s := by rw [← hu]; rfl
    have hrsp : readReg .rsp u = .ok (BitVec.ofInt 32 (sp.toInt - 1)) := by rw [← hu]; rfl
    have hpar : u.params = s.params := by rw [← hu]; rfl
    cases h2 : readReg .rax s with
    | error c => exact .inl ⟨c, rfl, micro_error (by simp [hrax, h2])⟩
    | ok a =>
      refine .inr ?_
      cases h3 : push a u with
      | error c => exact .inl ⟨a, c, rfl, h3, micro_error (by simp [hrax, h2, h3])⟩
      | ok w =>
        obtain ⟨sp2, hsp2, hin2, hw⟩ := push_ok h3
        rw [hrsp] at hsp2
        cases hsp2
        refine .inr ?_
        rw [micro_ok (a := ()) (t := w) (by simp [hrax, h2, h3])]
        have e2 : stepEnd w = afterPush (BitVec.ofInt 32 (sp.toInt - 1)) a u := by rw [hw]; rfl
        rw [e2]
        have hin2' : inMemory (BitVec.ofInt 32 (sp.toInt - 1)).toInt s = true := by
          simpa [inMemory, hpar] using hin2
        have hpar2 : (afterPush (BitVec.ofInt 32 (sp.toInt - 1)) a u).params = s.params := by
          rw [← hpar]; rfl
        cases h4 : readPayload s.params.vectorAddr (afterPush (BitVec.ofInt 32 (sp.toInt - 1)) a u) with
        | error c => exact .inl ⟨a, _, c, rfl, rfl, hin2', h4, micro_error (by rw [hpar2, h4]; rfl)⟩
        | ok h => exact .inr ⟨a, _, h, rfl, rfl, hin2', h4, micro_ok (a := ()) (t := { afterPush (BitVec.ofInt 32 (sp.toInt - 1)) a u with rip := h, trap := true })
            (by simp only [hpar2, h4, ok_bind, pure_ok])⟩

end Sys2Proof.Machine
end

