-- ==== Sys2Proof/Laws/PerInstr.lean ====
section
/-! SUPPORT. The per-instruction family `Codec`: the tuple an instruction is encoded from is one that spec/30_encoding.md
R91 accepts, and the tuple's own decoder gives the instruction back. -/

namespace Sys2Proof.Laws.Codec

/-- The tuple is well formed (R91, R92, R94), passes the decoder's checks, and decodes to the instruction (R97). -/
def Statement (i : Instr) : Prop :=
  i.tuple.wellFormed = true ∧ i.tuple.malformed = none ∧ i.tuple.build = some i

/-- An operand passes the four checks of its position. -/
def Passes (tags : List Tag) (m : Tag) (v : Value) : Prop :=
  tagReserved tags m = false ∧ tagDisallowed tags m = false ∧ numberBad tags m v = false ∧ unusedBad tags m v = false

theorem malformed_none {t : Tuple} (h1 : Passes t.op.tags1 t.m1 t.v1) (h2 : Passes t.op.tags2 t.m2 t.v2) :
    t.malformed = none := by
  obtain ⟨a1, b1, c1, d1⟩ := h1
  obtain ⟨a2, b2, c2, d2⟩ := h2
  simp [Tuple.malformed, a1, b1, c1, d1, a2, b2, c2, d2]

theorem dest_ok (d : Dest) : WellFormed.destOk d.tag d.value = true := by
  cases d with
  | reg r => cases r <;> decide
  | direct a => rfl
  | indirect a => rfl

theorem dest_passes (d : Dest) : Passes [1#4, 2#4, 4#4] d.tag d.value := by
  cases d with
  | reg r => cases r <;> unfold Passes <;> decide
  | direct a => exact ⟨rfl, rfl, rfl, rfl⟩
  | indirect a => exact ⟨rfl, rfl, rfl, rfl⟩

theorem dest_back (d : Dest) : Dest.ofFields d.tag d.value = some d := by
  cases d with
  | reg r => cases r <;> rfl
  | direct a => rfl
  | indirect a => rfl

theorem src_ok (x : Src) : WellFormed.srcOk x.tag x.value = true := by
  cases x with
  | imm v => rfl
  | reg r => cases r <;> decide
  | direct a => rfl
  | indirect a => rfl

theorem src_passes (x : Src) : Passes [0#4, 1#4, 2#4, 4#4] x.tag x.value := by
  cases x with
  | imm v => exact ⟨rfl, rfl, rfl, rfl⟩
  | reg r => cases r <;> unfold Passes <;> decide
  | direct a => exact ⟨rfl, rfl, rfl, rfl⟩
  | indirect a => exact ⟨rfl, rfl, rfl, rfl⟩

theorem src_back (x : Src) : Src.ofFields x.tag x.value = some x := by
  cases x with
  | imm v => rfl
  | reg r => cases r <;> rfl
  | direct a => rfl
  | indirect a => rfl

theorem port_passes (p : Value) : Passes [3#4] 3#4 p := ⟨rfl, rfl, rfl, rfl⟩

theorem unused_passes : Passes [] 0#4 0#32 := ⟨rfl, rfl, rfl, rfl⟩

/-- A zero-operand instruction. -/
theorem zero_statement {i : Instr} {o : Op} (ht : i.tuple = .ofZero o) (h1 : o.tags1 = []) (h2 : o.tags2 = [])
    (hw : (Tuple.ofZero o).wellFormed = true) (hb : (Tuple.ofZero o).build = some i) : Statement i := by
  refine ⟨ht ▸ hw, ht ▸ malformed_none ?_ ?_, ht ▸ hb⟩
  · exact h1 ▸ unused_passes
  · exact h2 ▸ unused_passes

/-- A branch. -/
theorem branch_statement {c : Src → Instr} {o : Op} (x : Src) (ht : (c x).tuple = .ofBranch o x)
    (h1 : o.tags1 = [0#4, 1#4, 2#4, 4#4]) (h2 : o.tags2 = [])
    (hw : (Tuple.ofBranch o x).wellFormed = (WellFormed.srcOk x.tag x.value && WellFormed.unusedOk 0#4 0#32))
    (hb : (Tuple.ofBranch o x).build = (Tuple.ofBranch o x).branch c) : Statement (c x) := by
  refine ⟨ht ▸ hw.trans ?_, ht ▸ malformed_none ?_ ?_, ht ▸ hb.trans ?_⟩
  · rw [src_ok]; rfl
  · exact h1 ▸ src_passes x
  · exact h2 ▸ unused_passes
  · exact congrArg (Option.map c) (src_back x)

/-- An instruction with a destination and a value. -/
theorem binary_statement {c : Dest → Src → Instr} {o : Op} (d : Dest) (x : Src)
    (ht : (c d x).tuple = .ofBinary o d x) (h1 : o.tags1 = [1#4, 2#4, 4#4]) (h2 : o.tags2 = [0#4, 1#4, 2#4, 4#4])
    (hw : (Tuple.ofBinary o d x).wellFormed =
      (WellFormed.destOk d.tag d.value && WellFormed.srcOk x.tag x.value))
    (hb : (Tuple.ofBinary o d x).build = (Tuple.ofBinary o d x).binary c) : Statement (c d x) := by
  refine ⟨ht ▸ hw.trans ?_, ht ▸ malformed_none ?_ ?_, ht ▸ hb.trans ?_⟩
  · rw [dest_ok, src_ok]; rfl
  · exact h1 ▸ dest_passes d
  · exact h2 ▸ src_passes x
  · simp only [Tuple.binary, Tuple.ofBinary, dest_back, src_back, Option.bind_some, Option.map_some]

theorem halt : Statement .halt := zero_statement rfl rfl rfl rfl rfl

theorem ei : Statement .ei := zero_statement rfl rfl rfl rfl rfl

theorem di : Statement .di := zero_statement rfl rfl rfl rfl rfl

theorem iret : Statement .iret := zero_statement rfl rfl rfl rfl rfl

theorem nop : Statement .nop := zero_statement rfl rfl rfl rfl rfl

theorem jmp (x : Src) : Statement (.jmp x) := branch_statement x rfl rfl rfl rfl rfl

theorem jz (x : Src) : Statement (.jz x) := branch_statement x rfl rfl rfl rfl rfl

theorem jnz (x : Src) : Statement (.jnz x) := branch_statement x rfl rfl rfl rfl rfl

theorem jn (x : Src) : Statement (.jn x) := branch_statement x rfl rfl rfl rfl rfl

theorem jnn (x : Src) : Statement (.jnn x) := branch_statement x rfl rfl rfl rfl rfl

theorem add (d : Dest) (x : Src) : Statement (.add d x) := binary_statement d x rfl rfl rfl rfl rfl

theorem sub (d : Dest) (x : Src) : Statement (.sub d x) := binary_statement d x rfl rfl rfl rfl rfl

theorem mul (d : Dest) (x : Src) : Statement (.mul d x) := binary_statement d x rfl rfl rfl rfl rfl

theorem div (d : Dest) (x : Src) : Statement (.div d x) := binary_statement d x rfl rfl rfl rfl rfl

theorem mod (d : Dest) (x : Src) : Statement (.mod d x) := binary_statement d x rfl rfl rfl rfl rfl

theorem xor (d : Dest) (x : Src) : Statement (.xor d x) := binary_statement d x rfl rfl rfl rfl rfl

theorem and (d : Dest) (x : Src) : Statement (.and d x) := binary_statement d x rfl rfl rfl rfl rfl

theorem or (d : Dest) (x : Src) : Statement (.or d x) := binary_statement d x rfl rfl rfl rfl rfl

theorem cmp (d : Dest) (x : Src) : Statement (.cmp d x) := binary_statement d x rfl rfl rfl rfl rfl

theorem mov (d : Dest) (x : Src) : Statement (.mov d x) := binary_statement d x rfl rfl rfl rfl rfl

theorem movo (p : Value) (x : Src) : Statement (.movo p x) :=
  ⟨src_ok x, malformed_none (port_passes p) (src_passes x), congrArg (Option.map (Instr.movo p)) (src_back x)⟩

theorem movi (d : Dest) (p : Value) : Statement (.movi d p) :=
  ⟨Bool.and_eq_true_iff.mpr ⟨dest_ok d, rfl⟩, malformed_none (dest_passes d) (port_passes p),
    congrArg (Option.map fun d => Instr.movi d p) (dest_back d)⟩

end Sys2Proof.Laws.Codec
end

