-- ==== Sys2Proof/Laws/Steps.lean ====
section
/-! SUPPORT. What a step and the end of a cycle can do, case by case; and how an ALU instruction's memory destination is read. -/

namespace Sys2Proof.Machine

/-- Whatever the instruction, `exec` answers a next state. -/
theorem exec_answers (i : Instr) (s : State) : ∃ t, exec i s = .next t := by
  cases i <;> exact ⟨_, rfl⟩

/-- A step of a live state raises in its fetch, or runs one instruction and the end of its cycle; an ended state steps to
itself. -/
theorem step_cases {s t : State} (h : step s = .next t) :
    (s.status ≠ .running ∧ t = s) ∨
      (s.status = .running ∧
        ((∃ c, fetchDecode s = .error c ∧ t = raise c s) ∨
          ∃ i u, fetchDecode s = .ok i ∧ exec i (stepEnd s) = .next u ∧ t = finishCycle u)) := by
  unfold step at h
  split at h
  · rename_i hs
    refine .inr ⟨hs, ?_⟩
    split at h
    · cases h
      exact .inl ⟨_, ‹_›, rfl⟩
    · split at h <;> cases h
      exact .inr ⟨_, _, ‹_›, ‹_›, rfl⟩
  all_goals
    cases h
    exact .inl ⟨by simp_all, rfl⟩

/-- The boundary is the pending logic, or a service after it. -/
theorem interruptBoundary_cases (s : State) :
    (serviceDue (pendingLogic s) = false ∧ interruptBoundary s = pendingLogic s) ∨
      (serviceDue (pendingLogic s) = true ∧ interruptBoundary s = service (pendingLogic s)) := by
  unfold interruptBoundary
  cases serviceDue (pendingLogic s) <;> simp

/-- Counting ends the run at the limit and only there. -/
theorem countInstruction_cases (s : State) :
    (s.icount + 1 = s.params.limit ∧
        countInstruction s = { s with icount := s.icount + 1, status := .limitExceeded (s.icount + 1) }) ∨
      (s.icount + 1 ≠ s.params.limit ∧ countInstruction s = { s with icount := s.icount + 1 }) := by
  unfold countInstruction
  split
  · exact .inl ⟨‹_›, rfl⟩
  · exact .inr ⟨‹_›, rfl⟩

/-- The end of a cycle: nothing on an ended state, else the boundary, and after it the count if the run is still live. -/
theorem finishCycle_cases (s : State) :
    (s.status ≠ .running ∧ finishCycle s = s) ∨
      (s.status = .running ∧ (interruptBoundary s).status ≠ .running ∧ finishCycle s = interruptBoundary s) ∨
      (s.status = .running ∧ (interruptBoundary s).status = .running ∧
        finishCycle s = countInstruction (interruptBoundary s)) := by
  by_cases hs : s.status = .running
  · refine .inr ?_
    have e : finishCycle s = whileRunning countInstruction (interruptBoundary s) := whileRunning_running hs
    by_cases hb : (interruptBoundary s).status = .running
    · exact .inr ⟨hs, hb, e.trans (whileRunning_running hb)⟩
    · exact .inl ⟨hs, hb, e.trans (whileRunning_ended hb)⟩
  · exact .inl ⟨hs, whileRunning_ended hs⟩

/-! ## A destination in memory -/

/-- The left operand of a memory form is the payload of the cell the destination names. -/
theorem leftOperand_mem {d : Dest} {s : State} {p : Int} (h : resolveDest d s = .ok (.mem p)) :
    resolveValue (leftOperand d) s = readPayload p s := by
  cases d with
  | reg r => cases h
  | direct a =>
    cases h
    rfl
  | indirect a =>
    obtain ⟨q, h1, h⟩ := bind_ok.mp h
    cases h
    simp [leftOperand, resolveValue, h1]

/-- A destination that names a cell is no register, so the instruction takes its memory form. -/
theorem aluInstr_mem {op : AluOp} {d : Dest} {src : Src} {s : State} {p : Int} (h : resolveDest d s = .ok (.mem p)) :
    aluInstr op d src s = aluMemory op d src s := by
  cases d with
  | reg r => cases h
  | direct a => rfl
  | indirect a => rfl

/-- Resolving a destination sees neither ticks nor flags. -/
theorem resolveDest_afterAlu (d : Dest) (o : AluOut) (s : State) :
    resolveDest d (afterAlu o s) = resolveDest d s :=
  ((sameReads_setFlags o s).trans (sameReads_stepEnd _)).resolveDest d

end Sys2Proof.Machine
end

