-- ==== Sys2Proof/Tests/Slice0.lean ====
section
/-! SUPPORT. Tests: encodings written out from spec/30_encoding.md and spec/95_test_vectors.md, one ill-formed tuple per
check, one step per test from the vectors of spec/95_test_vectors.md, and a witness for the hypotheses of each obligation
that has some. Expected values are the spec's, not the model's. -/

namespace Sys2Proof.Tests

open Sys2Proof.Machine

/-! ## Decoding: words written out field by field (30_encoding.md R81: opcode, m1, v1, m2, v2) -/

/-- Zero-operand instructions (95_test_vectors.md, vectors Z1 to Z11). -/
theorem test_decode_zero_operand :
    decodeTableWord 80 0x01000000000000000000 = some .halt ∧
    decodeTableWord 80 0x02000000000000000000 = some .ei ∧
    decodeTableWord 80 0x03000000000000000000 = some .di ∧
    decodeTableWord 80 0x04000000000000000000 = some .iret ∧
    decodeTableWord 80 0x05000000000000000000 = some .nop := by decide

/-- Branches, in each form of the target (vectors B1 to B12). -/
theorem test_decode_branch :
    decodeTableWord 80 0x10200000014000000000 = some (.jmp (.direct 20)) ∧
    decodeTableWord 80 0x11000000028000000000 = some (.jz (.imm 40)) ∧
    decodeTableWord 80 0x12100000001000000000 = some (.jnz (.reg .rbx)) ∧
    decodeTableWord 80 0x13400000014000000000 = some (.jn (.indirect 20)) ∧
    decodeTableWord 80 0x1400000000e000000000 = some (.jnn (.imm 14)) := by decide

/-- ALU instructions (vectors A and M). -/
theorem test_decode_alu :
    decodeTableWord 80 0x20100000000100000000 = some (.add (.reg .rax) (.reg .rax)) ∧
    decodeTableWord 80 0x2120000000a000000009 = some (.sub (.direct 10) (.imm 9)) ∧
    decodeTableWord 80 0x22100000001000000007 = some (.mul (.reg .rbx) (.imm 7)) ∧
    decodeTableWord 80 0x2320000000a20000000b = some (.div (.direct 10) (.direct 11)) ∧
    decodeTableWord 80 0x241000000000fffffffe = some (.mod (.reg .rax) (.imm (BitVec.ofInt 32 (-2)))) := by decide

/-- The rest of the ALU instructions. -/
theorem test_decode_logic :
    decodeTableWord 80 0x2510000000000000000a = some (.xor (.reg .rax) (.imm 10)) ∧
    decodeTableWord 80 0x2610000000000000000a = some (.and (.reg .rax) (.imm 10)) ∧
    decodeTableWord 80 0x27100000005000000001 = some (.or (.reg .ric) (.imm 1)) ∧
    decodeTableWord 80 0x2820000000a000000004 = some (.cmp (.direct 10) (.imm 4)) := by decide

/-- Moves and ports (vectors V and O; 30_encoding.md R101). -/
theorem test_decode_move :
    decodeTableWord 80 0x3020000000a40000000b = some (.mov (.direct 10) (.indirect 11)) ∧
    decodeTableWord 80 0x31300000001100000000 = some (.movo 1 (.reg .rax)) ∧
    decodeTableWord 80 0x3240000000a300000000 = some (.movi (.indirect 10) 0) := by decide

/-- What the encoder writes for them (30_encoding.md R96, R101). -/
theorem test_encode :
    encode standardOpcodeMap (.movi (.reg .rax) 0) = 0x32100000000300000000 ∧
    encode standardOpcodeMap (.mov (.reg .rbx) (.imm (BitVec.ofInt 32 (-1)))) = 0x301000000010ffffffff ∧
    encode standardOpcodeMap .halt = 0x01000000000000000000 := by decide

/-- The zero word of a row whose operand 1 may not be an immediate is malformed (30_encoding.md R94; vectors E4, E8). -/
theorem test_decode_refuses :
    decodeTableWord 80 0x20000000005000000005 = none ∧ decodeTableWord 80 0x31100000000100000000 = none ∧
    decodeTableWord 80 0x32100000000000000000 = none ∧ decodeTableWord 80 0 = none := by decide

/-! ## Well-formedness: one ill-formed term per check of 30_encoding.md R91, refused by that check's name -/

/-- Check 1: an opcode assigned to nothing, and 0x00 (vectors E1, E2). -/
theorem test_wf_opcode :
    decode standardOpcodeMap 0xff000000000000000000 = .error .opcode ∧
    decode standardOpcodeMap 0x00000000041000000000 = .error .opcode := ⟨rfl, rfl⟩

/-- Check 2: a reserved tag in a used operand (vector E3). -/
theorem test_wf_reserved_tag :
    Tuple.wellFormed ⟨.add, 5#4, 0#32, 0#4, 5#32⟩ = false ∧
    Tuple.malformed ⟨.add, 5#4, 0#32, 0#4, 5#32⟩ = some .reservedTag := by decide

/-- Check 3: a tag the position does not allow: immediate destination, port as a value, no port (vectors E4, E8, E9). -/
theorem test_wf_disallowed_tag :
    Tuple.malformed ⟨.add, 0#4, 5#32, 0#4, 5#32⟩ = some .disallowedTag ∧
    Tuple.malformed ⟨.add, 1#4, 0#32, 3#4, 0#32⟩ = some .disallowedTag ∧
    Tuple.malformed ⟨.movo, 1#4, 0#32, 1#4, 0#32⟩ = some .disallowedTag ∧
    Tuple.wellFormed ⟨.movi, 1#4, 0#32, 0#4, 0#32⟩ = false := by decide

/-- Check 4: register 6, and a negative register number; register 5 is the last (vector E5). -/
theorem test_wf_register_number :
    Tuple.malformed ⟨.add, 1#4, 6#32, 0#4, 5#32⟩ = some .registerNumber ∧
    Tuple.malformed ⟨.mov, 2#4, 0#32, 1#4, 0xffffffff#32⟩ = some .registerNumber ∧
    Tuple.wellFormed ⟨.add, 1#4, 6#32, 0#4, 5#32⟩ = false ∧
    Tuple.wellFormed ⟨.add, 1#4, 5#32, 0#4, 5#32⟩ = true := by decide

/-- Check 5: an unused field that is not zero (vectors E6, E7). -/
theorem test_wf_unused_field :
    Tuple.malformed ⟨.halt, 0#4, 1#32, 0#4, 0#32⟩ = some .unusedField ∧
    Tuple.malformed ⟨.jmp, 0#4, 7#32, 1#4, 0#32⟩ = some .unusedField ∧
    Tuple.wellFormed ⟨.halt, 0#4, 1#32, 0#4, 0#32⟩ = false := by decide

/-- Checks in their order: a reserved tag in operand 2 goes before a disallowed one in operand 1. -/
theorem test_wf_order : Tuple.malformed ⟨.add, 0#4, 9#32, 7#4, 0#32⟩ = some .reservedTag := by decide

/-- An opcode map that numbers two mnemonics alike, or one with 0x00, is not well formed. -/
theorem test_wf_opcode_map :
    OpcodeMap.wf standardOpcodeMap = true ∧
    OpcodeMap.wf ((.halt, 0x02#8) :: standardOpcodeMap.tail) = false ∧
    OpcodeMap.wf ((.halt, 0x00#8) :: standardOpcodeMap.tail) = false ∧
    OpcodeMap.wf standardOpcodeMap.tail = false := by decide

/-! ## Small states -/

/-- The start state of the vectors (95_test_vectors.md, "Notation and defaults"). -/
def base : State :=
  { State.reset with params := { Config.defaultParams with memSize := 64, limit := 1000 }, rip := 8 }

/-- A signed value. -/
def val (v : Int) : Value := BitVec.ofInt 32 v

/-- A register or flag that has been written. -/
def has (v : Int) : Slot Value := .written (val v)

/-- A cell that holds a value. -/
def cell (a : Nat) (v : Int) (s : State) : State := { s with mem := s.mem.put a (dataword (val v)) }

/-- The state with a word at 8, where it is fetched. -/
def code (w : Word) (s : State) : State := { s with mem := s.mem.put 8 w }

/-- The state after an outcome. -/
def after (o : Host.Outcome State Fault Refusal) : Option State :=
  match o with
  | .next s => some s
  | .fault _ => none
  | .refused _ => none

/-- What `f` sees after the one step that runs the word `w` at 8. -/
def sees {α : Type} (w : Word) (s : State) (f : State → α) : Option α := (after (step (code w s))).map f

/-- N, Z, OF after an ALU call. -/
def flags (s : State) : Slot Bool × Slot Bool × Slot Bool := (s.flagN, s.flagZ, s.flagOF)

/-- Written flags. -/
def nzo (n z o : Bool) : Slot Bool × Slot Bool × Slot Bool := (.written n, .written z, .written o)

/-- What a cycle is counted by. -/
def counted (s : State) : Value × Nat × Nat × Status := (s.rip, s.tick, s.icount, s.status)

/-- A service can run from here: stack at 40, accumulator 1, handler at 30. -/
def ready : State := cell 0 30 { base with rax := has 1, rsp := has 40 }

/-! ## One step per instruction (95_test_vectors.md part 2; the vector is named) -/

/-- Z1. -/
theorem test_halt : sees 0x01000000000000000000 base counted = some (val 8, 1, 1, .halted) := by decide

/-- I9: no boundary after `halt`. -/
theorem test_halt_no_service :
    sees 0x01000000000000000000 { ready with ric := 3 } (fun s => (s.trap, s.ric)) = some (false, 3#32) := by decide

/-- Z3: `ei` with PEND set is followed by a service. -/
theorem test_ei_services :
    sees 0x02000000000000000000 { ready with ric := 2 }
      (fun s => (s.rsp, s.ric, s.mem.cell 40, s.mem.cell 39)) =
      some (has 38, 0#32, some (dataword 9), some (dataword 1)) := by decide

/-- Z4. -/
theorem test_ei_in_trap_mode :
    sees 0x02000000000000000000 { base with ric := 2, trap := true } (fun s => (s.rip, s.ric)) =
      some (val 9, 3#32) := by decide

/-- Z5. -/
theorem test_di_keeps_pend :
    sees 0x03000000000000000000 { base with ric := 3, trap := true } (fun s => (s.rip, s.ric)) =
      some (val 9, 2#32) := by decide

/-- Z7. -/
theorem test_iret :
    sees 0x04000000000000000000 (cell 42 12 (cell 41 5 { base with rsp := has 40, trap := true }))
      (fun s => (s.rax, s.rip, s.rsp, s.ric, s.trap, s.tick)) =
      some (has 5, val 12, has 42, 1#32, false, 4) := by decide

/-- Z9: the first pop stays. -/
theorem test_iret_second_pop_raises :
    sees 0x04000000000000000000 (cell 63 5 { base with rsp := has 62 }) (fun s => (s.rax, s.rsp, counted s)) =
      some (has 5, has 63, val 8, 2, 0, .raised (.addressOutOfRange 64) (val 8)) := by decide

/-- Z11. -/
theorem test_nop : sees 0x05000000000000000000 base counted = some (val 9, 2, 1, .running) := by decide

/-- B1. -/
theorem test_jmp : sees 0x10200000014000000000 (cell 20 33 base) counted = some (val 33, 2, 1, .running) := by decide

/-- B10, the first of its two cycles. -/
theorem test_jmp_negative : sees 0x100ffffffff000000000 base counted = some (val (-1), 2, 1, .running) := by decide

/-- B2. -/
theorem test_jz_taken :
    sees 0x11000000028000000000 { base with flagZ := .written true } counted = some (val 40, 2, 1, .running) := by
  decide

/-- B9: the target is resolved although the branch is not taken. -/
theorem test_jz_target_raises :
    sees 0x112000001f4000000000 { base with flagZ := .written false } counted =
      some (val 8, 1, 0, .raised (.addressOutOfRange 500) (val 8)) := by decide

/-- B4. -/
theorem test_jnz_taken :
    sees 0x12100000001000000000 { base with flagZ := .written false, rbx := has 2 } counted =
      some (val 2, 2, 1, .running) := by decide

/-- B5. -/
theorem test_jn_taken :
    sees 0x13400000014000000000 (cell 21 3 (cell 20 21 { base with flagN := .written true })) counted =
      some (val 3, 2, 1, .running) := by decide

/-- B6 and B7. -/
theorem test_jnn :
    sees 0x1400000000e000000000 { base with flagN := .written false } counted = some (val 14, 2, 1, .running) ∧
    sees 0x1400000000e000000000 { base with flagN := .written true } counted = some (val 9, 2, 1, .running) := by
  decide

/-- A5: the one sum that stays at -2^31. -/
theorem test_add_corrects :
    sees 0x20100000000100000000 { base with rax := has (-2147483648) } (fun s => (s.rax, flags s, s.tick)) =
      some (has (-2147483648), nzo true false true, 3) := by decide

/-- A34: `rip` as destination; the advance goes one past the result. -/
theorem test_add_to_rip :
    sees 0x2010000000300000000a base (fun s => (s.rip, flags s)) = some (val 19, nzo false false false) := by decide

/-- A8. -/
theorem test_sub_corrects :
    sees 0x21100000000000000001 { base with rax := has (-2147483648) } (fun s => (s.rax, flags s)) =
      some (has (-1), nzo true false true) := by decide

/-- M1. -/
theorem test_sub_memory :
    sees 0x2120000000a000000009 (cell 10 4 base) (fun s => (s.mem.cell 10, flags s, s.tick)) =
      some (some (dataword (val (-5))), nzo true false false, 4) := by decide

/-- A11: the flags and the first micro-step stay. -/
theorem test_mul_out_of_range :
    sees 0x22100000000000010000 { base with rax := has 65536 } (fun s => (s.rax, flags s, s.tick, s.status)) =
      some (has 65536, nzo false false true, 2, .raised (.valueOutOfRange 2147483648) (val 8)) := by decide

/-- A12. -/
theorem test_mul_lowest :
    sees 0x22100000000000010000 { base with rax := has (-65536) } (fun s => (s.rax, flags s)) =
      some (has (-2147483648), nzo true false true) := by decide

/-- A14 and A15: floor division. -/
theorem test_div_floor :
    sees 0x23100000000000000002 { base with rax := has (-7) } (fun s => (s.rax, flags s)) =
      some (has (-4), nzo true false false) ∧
    sees 0x231000000000fffffffe { base with rax := has 7 } (fun s => (s.rax, flags s)) =
      some (has (-4), nzo true false false) := by decide

/-- M5: the tick of the left read stays, no flag is written. -/
theorem test_div_by_zero :
    sees 0x2320000000a20000000b (cell 11 0 (cell 10 9 base)) (fun s => (flags s, counted s)) =
      some ((.unwritten, .unwritten, .unwritten), val 8, 2, 0, .raised (.divisionByZero 9) (val 8)) := by decide

/-- A19 and A20: floor modulo. -/
theorem test_mod_floor :
    sees 0x24100000000000000002 { base with rax := has (-7) } (fun s => (s.rax, flags s)) =
      some (has 1, nzo false false false) ∧
    sees 0x241000000000fffffffe { base with rax := has 7 } (fun s => (s.rax, flags s)) =
      some (has (-1), nzo true false false) := by decide

/-- A24: the result -2^31 is corrected too. -/
theorem test_xor_corrects :
    sees 0x2510000000007fffffff { base with rax := has (-1) } (fun s => (s.rax, flags s)) =
      some (has 0, nzo false true true) := by decide

/-- A26. -/
theorem test_and : sees 0x2610000000000000000a { base with rax := has 12 } (fun s => s.rax) = some (has 8) := by
  decide

/-- A28: enabling interrupts through `or %ric 1`. -/
theorem test_or_ric : sees 0x27100000005000000001 base (fun s => (s.ric, s.rip)) = some (1#32, val 9) := by decide

/-- A31: the flags of a discarded difference. -/
theorem test_cmp_register :
    sees 0x28100000000000000001 { base with rax := has (-2147483648) } (fun s => (s.rax, flags s, s.tick)) =
      some (has (-2147483648), nzo true false true, 2) := by decide

/-- M3: with a left operand in memory `cmp` takes the third tick. -/
theorem test_cmp_memory :
    sees 0x2820000000a000000004 (cell 10 4 base) (fun s => (s.mem.cell 10, flags s, s.tick)) =
      some (some (dataword 4), nzo false true false, 4) := by decide

/-- V2: memory to memory, two ticks after the fetch. -/
theorem test_mov_memory :
    sees 0x3020000000a40000000b (cell 11 20 (cell 20 9 base)) (fun s => (s.mem.cell 10, s.tick)) =
      some (some (dataword 9), 3) := by decide

/-- V9: the tick of the read stays when the write raises. -/
theorem test_mov_write_raises :
    sees 0x3020000004620000000a (cell 10 1 base) counted =
      some (val 8, 2, 0, .raised (.addressOutOfRange 70) (val 8)) := by decide

/-- O1. -/
theorem test_movo :
    sees 0x31300000001100000000 { base with rax := has 72 } (fun s => s.outq.map Fin.val) = some [72] := by decide

/-- O5: one past the last code point. -/
theorem test_movo_illegal :
    sees 0x31300000001000110000 base (fun s => (s.outq, counted s)) =
      some ([], val 8, 1, 0, .raised (.illegalCharacter 1114112) (val 8)) := by decide

/-- O11: the head token is popped before its scheduled tick. -/
theorem test_movi_early :
    sees 0x3240000000a300000000 (cell 10 20 { base with inq := [⟨900, .int (val (-3))⟩] })
      (fun s => (s.mem.cell 20, s.inq)) = some (some (dataword (val (-3))), []) := by decide

/-- O10: a raise at the write leaves the token in the queue. -/
theorem test_movi_write_raises :
    sees 0x32200000046300000000 { base with inq := [⟨0, .char 65⟩] } (fun s => (s.inq, counted s)) =
      some ([⟨0, .char 65⟩], val 8, 1, 0, .raised (.addressOutOfRange 70) (val 8)) := by decide

/-! ## The cycle and the boundary -/

/-- I2 and I3: the head is due at its tick, not before. -/
theorem test_interrupt_due :
    sees 0x05000000000000000000 { ready with ric := 1, inq := [⟨2, .char 120⟩] } (fun s => (s.rip, s.ric, s.trap)) =
      some (val 30, 0#32, true) ∧
    sees 0x05000000000000000000 { ready with ric := 1, inq := [⟨3, .char 120⟩] } (fun s => (s.rip, s.ric, s.trap)) =
      some (val 9, 1#32, false) := by decide

/-- I6: the first micro-step of the service stays. -/
theorem test_service_raises :
    sees 0x05000000000000000000 { base with ric := 1, rsp := has 40, inq := [⟨0, .char 120⟩] }
      (fun s => (s.rsp, s.ric, s.mem.cell 40, s.status)) =
      some (has 39, 0#32, some (dataword 9), .raised (.uninitialisedRead (.reg .rax)) (val 9)) := by
  decide

/-- I8: the limit is looked at after the service. -/
theorem test_limit_after_service :
    sees 0x05000000000000000000
      { ready with params := { ready.params with limit := 1 }, ric := 1, inq := [⟨0, .char 120⟩] }
      (fun s => (s.trap, counted s)) = some (true, val 30, 5, 1, .limitExceeded 1) := by decide

/-- F1: the advance past the top raises, with the write kept. -/
theorem test_advance_past_top :
    sees 0x3010000000307fffffff base counted =
      some (val 2147483647, 2, 0, .raised (.addressOutOfRange 2147483648) (val 2147483647)) := by decide

/-- E12 and E1: a fetch that raises adds no tick. -/
theorem test_fetch_raises :
    sees 0x05000000000000000000 { base with params := { base.params with memSize := 8 } } counted =
      some (val 8, 0, 0, .raised (.addressOutOfRange 8) (val 8)) ∧
    sees 0x00000000041000000000 base counted =
      some (val 8, 0, 0, .raised (.malformedWord 0x00000000041000000000) (val 8)) := by decide

/-- M8: under the zero policy an unwritten cell reads as 0. -/
theorem test_zero_policy :
    sees 0x2020000000a000000001 { base with params := { base.params with policy := .zero } }
      (fun s => (s.mem.cell 10, flags s)) = some (some (dataword 1), nzo false false false) := by decide

/-- The word the host places is the one the next step runs, from reset as from a later state. -/
theorem test_withFetchWord :
    (after (step (State.reset.withFetchWord 80 0x05000000000000000000))).map counted =
      some (val 1, 2, 1, .running) ∧
    (after (step ({ base with status := .halted, rip := 64 }.withFetchWord 80 0x05000000000000000000))).map counted =
      some (val 1, 2, 1, .running) := by decide

/-! ## Reset, launch, memory -/

/-- What reset leaves (10_state.md R35), and the canonical form of its memory. -/
theorem test_reset :
    State.reset.rax = .unwritten ∧ State.reset.ric = 0#32 ∧ State.reset.flagZ = .unwritten ∧
    State.reset.status = .running ∧ State.reset.trap = false ∧ Memory.wf State.reset.mem = true := by decide

/-- A write keeps addresses rising; a second write to a cell replaces. -/
theorem test_memory_canonical :
    Memory.put (Memory.put (Memory.put [] 5 1) 3 2) 5 7 = [(3, 2), (5, 7)] ∧
    Memory.wf [(3, 2), (5, 7)] = true ∧ Memory.wf [(5, 7), (3, 2)] = false := by decide

/-- A launch: the data image `65`, the text image `halt`, an input of two tokens (70_reset_and_hazards.md R282, R285). -/
def request : LaunchRequest where
  memSize := 16
  limit := 5
  vectorAddr := 0
  entry := none
  spReset := .unwritten
  policy := .fault
  opcodeMap := standardOpcodeMap
  image := .bare [dataword 65] [0x01000000000000000000]
  input := [⟨0, .text [65]⟩, ⟨3, .int (-1)⟩]

/-- The bare form puts text after data, and `ENTRY` is the first text word. -/
theorem test_launch :
    (after (launch request)).map (fun s => (s.rip, s.mem.cell 0, s.mem.cell 1, s.inq)) =
      some (val 1, some (dataword 65), some 0x01000000000000000000, [⟨0, .char 65⟩, ⟨3, .int (val (-1))⟩]) := by
  decide

/-- Refusals, each at the edge of its range (00_scope.md R6; 70_reset_and_hazards.md R282, R285). -/
theorem test_launch_refuses :
    launchProblem { request with memSize := 0 } = some .memSizeOutOfBounds ∧
    launchProblem { request with memSize := 2147483648 } = some .memSizeOutOfBounds ∧
    launchProblem { request with limit := 0 } = some .limitBelowOne ∧
    launchProblem { request with vectorAddr := 16 } = some .vectorOutsideMemory ∧
    launchProblem { request with opcodeMap := [] } = some .opcodeMapIllFormed ∧
    launchProblem { request with image := .listing [(16, 0)] [] } = some (.imageAddressOutOfRange 16) ∧
    launchProblem { request with image := .listing [(3, 0)] [(3, 1)] } = some .imageAddressRepeated := by decide

/-- A listing line, read in either letter case (30_encoding.md R100). -/
theorem test_parseLine :
    parseLine ['7', ' ', '0', '0', '0', 'F', 'f', 'F', 'F', 'f', 'f', 'f', 'f', '0', '0', '0', '0', '0', '0', '0', '0',
      '0', ' ', 'd', 'a', 't', 'a'] = some (7, dataword (val (-1))) := by decide

/-- Vector A4 as text: `add %rax 0` at 8. -/
theorem test_listingLine :
    listingLine standardOpcodeMap 8 0x20100000000000000000 =
      ['8', ' ', '2', '0', '1', '0', '0', '0', '0', '0', '0', '0', '0', '0', '0', '0', '0', '0', '0', '0', '0', '0',
        ' ', 'a', 'd', 'd', ' ', '%', 'r', 'a', 'x', ' ', '0'] := by decide

/-! ## Witnesses: a state and operands that meet the hypotheses of each obligation, at the edges of their ranges -/

/-- Every register and flag written, three cells written, the first of them (10) a pointer to the second (20). -/
def full : State :=
  cell 30 70 (cell 20 4 (cell 10 20
    { base with
      rax := has 5, rbx := has 7, rdx := has 9, rsp := has 40
      flagN := .written false, flagZ := .written true, flagOF := .written false }))

theorem test_witness_DecodeEncodeRoundTrip :
    standardOpcodeMap.wf = true ∧ decode standardOpcodeMap 0x01000000000000000000 = .ok .halt ∧
      Tuple.wellFormed ⟨.movi, 1#4, 5#32, 3#4, 0xffffffff#32⟩ = true := ⟨by decide, rfl, by decide⟩

theorem test_witness_DataWordsNeverExecute :
    opField 0x00000000041000000005 = 0#8 ∧ (code (dataword 65) base).status = .running ∧
      memRead (code (dataword 65) base).rip.toInt (code (dataword 65) base) = .ok (dataword 65) := ⟨by decide, rfl, rfl⟩

/-- For `LaunchGivesResetState`, `LaunchMeetsInvariant` and the third clause of `EveryRunEnds`. -/
theorem test_witness_launch : ∃ t, launch request = .next t := ⟨_, rfl⟩

/-- A bare image that fills memory, a listing, and an entry given. -/
theorem test_witness_LaunchPlacesImage :
    (∃ s, launch { request with memSize := 2 } = .next s) ∧
    (∃ s, launch { request with image := .listing [(0, dataword 65)] [(15, 0x01000000000000000000)] } = .next s) ∧
    (∃ s, launch { request with entry := some 5, image := .bare [] [] } = .next s) := ⟨⟨_, rfl⟩, ⟨_, rfl⟩, _, rfl⟩

theorem test_witness_StepKeepsInvariant :
    (code 0x05000000000000000000 { base with icount := 999 }).Inv ∧
      ∃ t, step (code 0x05000000000000000000 { base with icount := 999 }) = .next t :=
  ⟨⟨by decide, by decide, by decide, by decide⟩, _, rfl⟩

theorem test_witness_EveryRunEnds :
    { base with icount := 999 }.status = .running ∧ { base with icount := 999 }.icount < base.params.limit ∧
      ∃ t, step base = .next t := ⟨rfl, by decide, _, rfl⟩

theorem test_witness_EndedRunNeverChanges :
    Status.ended .halted = true ∧ Status.ended (.limitExceeded 5) = true ∧
      Status.ended (.raised .inputExhausted 8) = true := by decide

theorem test_witness_StepRunsDecodedInstruction :
    (memRead 8 (code 0x01000000000000000000 base) = .ok 0x01000000000000000000 ∧
      decode base.params.opcodeMap 0x01000000000000000000 = .ok .halt ∧
      ∃ t, exec .halt { code 0x01000000000000000000 base with tick := 1 } = .next t) ∧
    (memRead 8 (code 0 base) = .ok 0 ∧ decode base.params.opcodeMap 0 = .error .opcode) ∧
    memRead base.rip.toInt base = .error (.uninitialisedRead (.cell 8)) :=
  ⟨⟨rfl, rfl, _, rfl⟩, ⟨rfl, rfl⟩, rfl⟩

theorem test_witness_CountingAndLimit :
    sees 0x05000000000000000000 base (fun s => s.status) = some .running ∧
    sees 0x01000000000000000000 base (fun s => s.status) = some .halted ∧
    sees 0x05000000000000000000 { base with icount := 999 } (fun s => s.status) = some (.limitExceeded 1000) ∧
    sees 0x04000000000000000000 base (fun s => s.status) =
      some (.raised (.uninitialisedRead (.reg .rsp)) (val 8)) := by decide

theorem test_witness_BoundaryBeforeCount :
    (haltRun base).status ≠ .running ∧ base.status = .running ∧ (interruptBoundary base).status = .running ∧
    (interruptBoundary { base with ric := 3 }).status = .raised (.uninitialisedRead (.reg .rsp)) (val 8) := by decide

/-- The forms a run can reach: `add %rip` to 2^31 - 1 and `movi %rip` of it, each run at 8 (40_control_cycle.md R117, R114). -/
theorem test_advance_past_top_into_rip :
    sees 0x2010000000307ffffff7 base (fun s => (s.status, s.tick)) =
      some (.raised (.addressOutOfRange 2147483648) 0x7fffffff#32, 3) ∧
    sees 0x32100000003300000000 { base with inq := [⟨0, .int 0x7fffffff#32⟩] } (fun s => (s.status, s.tick, s.inq)) =
      some (.raised (.addressOutOfRange 2147483648) 0x7fffffff#32, 2, []) := by decide

/-- `rip` as the destination with a result of 2^31 - 1, and `rip` there already, in each clause. -/
theorem test_witness_AdvancePastTopRaises :
    (readReg .rip base = .ok (val 8) ∧ (correct ((val 8).toInt + (0x7ffffff7#32).toInt)).1 = Claims.top) ∧
    ((0x7fffffff#32).toInt = Claims.top ∧ resolveValue (.imm 0x7fffffff#32) base = .ok 0x7fffffff#32 ∧
      { base with inq := [⟨0, .int 0x7fffffff#32⟩] }.inq = ⟨0, .int 0x7fffffff#32⟩ :: []) ∧
    ({ full with rip := 0x7fffffff#32 }.rip.toInt = Claims.top ∧
      readReg .rax { full with rip := 0x7fffffff#32 } = .ok (val 5) ∧ (val 4).toInt ≠ 0 ∧
      resolveDest (.indirect 10) { full with rip := 0x7fffffff#32 } = .ok (.mem 20) ∧
      readPayload 20 { full with rip := 0x7fffffff#32 } = .ok (val 4) ∧
      resolveDest (.direct 63) { full with rip := 0x7fffffff#32 } = .ok (.mem 63) ∧
      resolveValue (.direct 10) { full with rip := 0x7fffffff#32 } = .ok (val 20) ∧
      (val 20).toInt = ((20 : CodePoint).val : Int) ∧
      readFlag .z { full with rip := 0x7fffffff#32 } = .ok true ∧
      readFlag .n { full with rip := 0x7fffffff#32 } = .ok false ∧
      readFlag .z { full with rip := 0x7fffffff#32, flagZ := .written false } = .ok false ∧
      readFlag .n { full with rip := 0x7fffffff#32, flagN := .written true } = .ok true) :=
  ⟨⟨rfl, by decide⟩, ⟨by decide, rfl, rfl⟩, by decide, rfl, by decide, rfl, rfl, rfl, rfl, by decide, rfl, rfl, rfl, rfl⟩

/-- Both edges, and each clause at one of them. -/
theorem test_witness_AccessOutsideMemoryRaises :
    (-1 : Int) < 0 ∧ (base.params.memSize : Int) ≤ 64 ∧ (val (-1)).toInt = -1 ∧ (val 64).toInt = 64 ∧
    (readPayload 10 (cell 10 64 base) = .ok (val 64)) ∧
    readReg .rsp { base with rsp := has 64 } = .ok (val 64) ∧ (val 63).toInt + 1 = 64 ∧
    { base.params with vectorAddr := 64 }.vectorAddr = 64 :=
  ⟨by decide, by decide, by decide, by decide, rfl, rfl, by decide, rfl⟩

theorem test_witness_UnwrittenReads :
    base.params.policy = .fault ∧ base.mem.cell 0 = none ∧ base.mem.cell 63 = none ∧ (63 : Int) < base.params.memSize ∧
    regSlot .rax base = .unwritten ∧ base.flagN = .unwritten ∧ base.flagZ = .unwritten ∧
    { base.params with policy := .zero }.policy = .zero := by decide

theorem test_witness_OperandResolution :
    regSlot .rbx full = .written (val 7) ∧ regSlot .rip full = .written (val 8) ∧
    (cell 0 63 (cell 63 2 base)).mem.cell 0 = some (dataword 63) ∧ v1Field (dataword 63) = 63#32 ∧
    (cell 0 63 (cell 63 2 base)).mem.cell 63 = some (dataword 2) := by decide

theorem test_witness_StoreThenLoadReturnsValue :
    0 ≤ (val 0).toInt ∧ 0 ≤ (val 63).toInt ∧ (val 63).toInt < base.params.memSize ∧
      (val 2147483645).toInt < 2147483646 ∧ Reg.rax ≠ .rip := by decide

theorem test_witness_AluResultRange :
    alu .add (val (-2147483648)) (val (-2147483648)) = .ok ⟨-2147483648, true, false, true⟩ ∧
    alu .sub (val (-2147483648)) (val 2147483647) = .ok ⟨-2147483647, true, false, true⟩ ∧
    alu .mul (val 65536) (val 65536) = .ok ⟨2147483648, false, false, true⟩ ∧
    inS32 2147483648 = false ∧ inS32 (-2147483649) = false := ⟨rfl, rfl, rfl, by decide, by decide⟩

theorem test_witness_CorrectionAndFlags :
    aluRaw .add (val 2147483647) (val 1) = .ok 2147483648 ∧
    aluRaw .add (val 2147483646) (val 1) = .ok 2147483647 ∧
    aluRaw .add (val (-2147483648)) (val 0) = .ok (-2147483648) ∧
    aluRaw .add (val (-2147483648)) (val 1) = .ok (-2147483647) := ⟨rfl, rfl, rfl, rfl⟩

theorem test_witness_FloorDivisionLaw : (val 1).toInt ≠ 0 ∧ 0 < (val 1).toInt ∧ (val (-1)).toInt < 0 := by decide

theorem test_witness_DivideByZeroRaises :
    readReg .rax full = .ok (val 5) ∧ resolveValue (.imm 0#32) full = .ok 0#32 ∧
    resolveDest (.indirect 10) full = .ok (.mem 20) ∧ readPayload 20 full = .ok (val 4) := ⟨rfl, rfl, rfl, rfl⟩

/-- Any register, `rip` among them, with `rip` one below the top; `mul` at both edges of its range; a divisor of -1. -/
theorem test_witness_AluRegisterForms :
    readReg .rax full = .ok (val 5) ∧ readReg .rip full = .ok (val 8) ∧ resolveValue (.indirect 10) full = .ok (val 4) ∧
    (val 2147483646).toInt ≠ Claims.top ∧ (correct ((val 8).toInt + (val 4).toInt)).1 ≠ Claims.top ∧
    (-4294967296 ≤ (val (-65536)).toInt * (val 65536).toInt ∧ (val 65535).toInt * (val 65537).toInt < 4294967296) ∧
    (val (-1)).toInt ≠ 0 := ⟨rfl, rfl, rfl, by decide, by decide, by decide, by decide⟩

theorem test_witness_AluMemoryForms :
    resolveDest (.direct 10) full = .ok (.mem 10) ∧ readPayload 10 full = .ok (val 20) ∧
    resolveDest (.indirect 10) full = .ok (.mem 20) ∧ resolveValue (.reg .rdx) full = .ok (val 9) ∧
    full.rip.toInt ≠ Claims.top := ⟨rfl, rfl, rfl, rfl, by decide⟩

theorem test_witness_CompareSetsFlagsOnly :
    resolveValue (.direct 10) full = .ok (val 20) ∧ full.rip.toInt ≠ Claims.top ∧ readReg .rbx full = .ok (val 7) ∧
    resolveDest (.direct 20) full = .ok (.mem 20) ∧ readPayload 20 full = .ok (val 4) :=
  ⟨rfl, by decide, rfl, rfl, rfl⟩

theorem test_witness_ProductOutOfRangeRaises :
    4294967296 ≤ (val 65536).toInt * (val 65536).toInt ∧ (val (-641)).toInt * (val 6700417).toInt < -4294967296 ∧
    readReg .rax { full with rax := has 65536 } = .ok (val 65536) ∧
    readPayload 10 (cell 10 (-641) full) = .ok (val (-641)) := ⟨by decide, by decide, rfl, rfl⟩

theorem test_witness_AluOperandRaises :
    readReg .rax base = .error (.uninitialisedRead (.reg .rax)) ∧
    (∃ a, readReg .rax full = .ok a) ∧ resolveValue (.direct 64) full = .error (.addressOutOfRange 64) ∧
    resolveDest (.direct 64) full = .ok (.mem 64) ∧ readPayload 64 full = .error (.addressOutOfRange 64) ∧
    (∃ a, readPayload 10 full = .ok a) ∧ resolveDest (.indirect 11) full = .error (.uninitialisedRead (.cell 11)) :=
  ⟨rfl, ⟨_, rfl⟩, rfl, rfl, rfl, ⟨_, rfl⟩, rfl⟩

theorem test_witness_HaltEndsRun :
    (code 0x01000000000000000000 base).status = .running ∧
      fetchDecode (code 0x01000000000000000000 base) = .ok .halt := ⟨rfl, rfl⟩

theorem test_witness_EnableDisableNop : (val 2147483646).toInt ≠ Claims.top ∧ (val (-1)).toInt ≠ Claims.top := by
  decide

/-- The stack at each end of memory, and one beyond it for either pop. -/
theorem test_witness_IretPopsAndReturns :
    base.params.memSize ≤ Config.maxMemSize ∧ readReg .rsp base = .error (.uninitialisedRead (.reg .rsp)) ∧
    readReg .rsp { base with rsp := has 63 } = .ok (val 63) ∧
    readPayload ((val 63).toInt + 1) base = .error (.addressOutOfRange 64) ∧
    readPayload ((val 62).toInt + 1) (cell 63 5 base) = .ok (val 5) ∧
    readPayload ((val 62).toInt + 2) (cell 63 5 base) = .error (.addressOutOfRange 64) ∧
    readPayload ((val (-1)).toInt + 1) (cell 0 5 (cell 1 6 base)) = .ok (val 5) ∧
    readPayload ((val (-1)).toInt + 2) (cell 0 5 (cell 1 6 base)) = .ok (val 6) :=
  ⟨by decide, rfl, rfl, rfl, rfl, rfl, rfl, rfl⟩

theorem test_witness_BranchForms :
    resolveValue (.indirect 10) full = .ok (val 4) ∧ Claims.flagReads .z true full = .ok true ∧
    Claims.flagReads .z false full = .ok false ∧ Claims.flagReads .n true full = .ok false ∧
    Claims.flagReads .n false full = .ok true ∧ full.rip.toInt ≠ Claims.top ∧
    resolveValue (.direct 64) full = .error (.addressOutOfRange 64) ∧
    Claims.flagReads .z true base = .error (.uninitialisedRead (.flag .z)) :=
  ⟨rfl, rfl, rfl, rfl, rfl, by decide, rfl, rfl⟩

theorem test_witness_MovCopies :
    resolveValue (.direct 10) full = .ok (val 20) ∧ (val 20).toInt ≠ Claims.top ∧ full.rip.toInt ≠ Claims.top ∧
    resolveDest (.direct 63) full = .ok (.mem 63) ∧ resolveDest (.direct 0) full = .ok (.mem 0) ∧
    (63 : Int) < full.params.memSize := ⟨rfl, by decide, by decide, rfl, rfl, by decide⟩

theorem test_witness_MovRaises :
    resolveValue (.reg .rax) base = .error (.uninitialisedRead (.reg .rax)) ∧
    resolveValue (.direct 10) full = .ok (val 20) ∧
    resolveDest (.indirect 11) full = .error (.uninitialisedRead (.cell 11)) ∧
    resolveDest (.direct 64) full = .ok (.mem 64) ∧ (full.params.memSize : Int) ≤ 64 ∧
    resolveDest (.direct (val (-1))) full = .ok (.mem (-1)) := ⟨rfl, rfl, rfl, rfl, by decide, rfl⟩

/-- The port, and code points -1, 0, 0x10FFFF and one more. -/
theorem test_witness_MovoAppendsCharacter :
    resolveValue (.reg .rax) base = .error (.uninitialisedRead (.reg .rax)) ∧
    resolveValue (.imm 0x10ffff#32) base = .ok 0x10ffff#32 ∧ (0#32 : Value) ≠ 1#32 ∧ (val (-1)).toInt < 0 ∧
    (1114111 : Int) < (0x110000#32).toInt ∧ (0 : Int) ≤ (0#32).toInt ∧ (0x10ffff#32).toInt ≤ 1114111 ∧
    base.rip.toInt ≠ Claims.top := ⟨rfl, rfl, by decide, by decide, by decide, by decide, by decide, by decide⟩

theorem test_witness_MoviReadsToken :
    { full with inq := [⟨900, .int (val (-3))⟩] }.inq = ⟨900, .int (val (-3))⟩ :: [] ∧
    (Token.int (val (-3)) = .int (val (-3))) ∧ (val 1114111).toInt = ((1114111 : CodePoint).val : Int) ∧
    resolveDest (.indirect 10) full = .ok (.mem 20) ∧ resolveDest (.direct 63) full = .ok (.mem 63) ∧
    full.rip.toInt ≠ Claims.top := ⟨rfl, rfl, by decide, rfl, rfl, by decide⟩

theorem test_witness_MoviRaises :
    resolveDest (.indirect 11) full = .error (.uninitialisedRead (.cell 11)) ∧
    resolveDest (.indirect 30) full = .ok (.mem 70) ∧ (full.params.memSize : Int) ≤ 70 ∧
    resolveDest (.direct 64) full = .ok (.mem 64) ∧ (1#32 : Value) ≠ 0#32 ∧ full.inq = [] ∧
    { full with inq := [⟨0, .char 65⟩] }.inq ≠ [] := ⟨rfl, rfl, by decide, rfl, by decide, rfl, by decide⟩

theorem test_witness_PendingLogicSetsPend :
    (∃ e rest, { base with tick := 5, inq := [⟨5, .char 65⟩] }.inq = e :: rest ∧ e.tick ≤ 5) ∧
    (∀ e rest, { base with tick := 5, inq := [⟨6, .char 65⟩] }.inq = e :: rest → 5 < e.tick) :=
  ⟨⟨_, _, rfl, by decide⟩, fun _ _ h => by cases h; decide⟩

theorem test_witness_ServiceCondition :
    (2#32 : Value).getLsbD 0 = false ∧ { base with trap := true }.trap = true ∧
    ((3#32 : Value).getLsbD 0 = true ∧ (3#32 : Value).getLsbD 1 = true ∧ base.trap = false) ∧
    (∃ e rest, { base with ric := 1, inq := [⟨0, .char 65⟩] }.inq = e :: rest ∧ e.tick ≤ base.tick) ∧
    ((1#32 : Value).getLsbD 1 = false ∧ ∀ e rest, base.inq = e :: rest → base.tick < e.tick) :=
  ⟨by decide, rfl, by decide, ⟨_, _, rfl, by decide⟩, by decide, fun _ _ h => by cases h⟩

/-- The stack pointer at the last cell, and at 1, where the second push overwrites the vector cell. -/
theorem test_witness_ServiceEntersHandler :
    (readReg .rsp { ready with rsp := has 63 } = .ok (val 63) ∧ readReg .rax ready = .ok (val 1) ∧
      1 ≤ (val 63).toInt ∧ (val 63).toInt < ready.params.memSize ∧
      readPayload 0 { ready with mem := (ready.mem.put 63 (dataword ready.rip)).put 62 (dataword (val 1)) } =
        .ok (val 30)) ∧
    (1 ≤ (val 1).toInt ∧
      readPayload 0 { ready with mem := (ready.mem.put 1 (dataword ready.rip)).put 0 (dataword (val 1)) } =
        .ok (val 1)) := ⟨⟨rfl, rfl, by decide, by decide, rfl⟩, by decide, rfl⟩

theorem test_witness_ServiceRaises :
    readReg .rsp base = .error (.uninitialisedRead (.reg .rsp)) ∧ readReg .rsp ready = .ok (val 40) ∧
    (val (-1)).toInt < 0 ∧ (base.params.memSize : Int) ≤ (val 64).toInt ∧ (val 63).toInt < base.params.memSize ∧
    readReg .rax base = .error (.uninitialisedRead (.reg .rax)) ∧ readReg .rax ready = .ok (val 1) ∧
    (val 0).toInt = 0 ∧ 1 ≤ (val 1).toInt ∧
    readPayload 0 { base with mem := (base.mem.put 63 (dataword 8)).put 62 (dataword (val 1)) } =
      .error (.uninitialisedRead (.cell 0)) :=
  ⟨rfl, rfl, by decide, by decide, by decide, rfl, rfl, by decide, by decide, rfl⟩

/-- The handler that changes nothing. -/
theorem test_witness_ReturnRestoresInterrupted :
    ready.status = .running ∧ (service ready).status = .running ∧ (service ready).params = ready.params ∧
      (service ready).rsp = has 38 := by decide

/-- A step that clears `trap`, and one after which a service sets it. -/
theorem test_witness_TrapChangesOnlyByServiceAndIret :
    sees 0x04000000000000000000 (cell 42 12 (cell 41 5 { base with rsp := has 40, trap := true })) (fun s => s.trap) =
      some false ∧
    (∃ t, exec .iret base = .next t) ∧ serviceDue (pendingLogic { ready with ric := 3 }) = true ∧
    (finishCycle { ready with ric := 3 }).trap = true := ⟨by decide, ⟨_, rfl⟩, by decide, by decide⟩

/-- A store over an instruction word, which then cannot run (vector M9). -/
theorem test_witness_StepsWriteOnlyDataWords :
    sees 0x20200000008000000001 base (fun s => s.mem.cell 8) = some (some (dataword 9)) ∧
    (code (dataword 9) base).status = .running ∧ (code (dataword 9) base).mem.cell 8 = some (dataword 9) ∧
    base.rip.toInt = ((8 : Nat) : Int) ∧ 8 < base.params.memSize ∧
    (∃ i, decode base.params.opcodeMap 0x05000000000000000000 = .ok i) :=
  ⟨by decide, rfl, by decide, by decide, by decide, _, rfl⟩

theorem test_witness_FlagsWrittenOnlyByAlu :
    (∃ t, step (code 0x05000000000000000000 full) = .next t) ∧
      fetchDecode (code 0x05000000000000000000 full) = .ok .nop ∧ Claims.isAlu .nop = false := ⟨⟨_, rfl⟩, rfl, rfl⟩

/-- For `PortsChangeOnlyByPortInstructions`, `ParametersNeverChange` and the frames: instructions that complete. -/
theorem test_witness_frames :
    (∃ t, exec (.movi (.reg .rax) 0) { full with inq := [⟨0, .char 65⟩] } = .next t) ∧
    (∃ t, exec (.movo 1 (.reg .rax)) full = .next t) ∧ (∃ t, exec (.mov (.indirect 10) (.direct 10)) full = .next t) ∧
    (∃ t, exec (.add (.reg .ric) (.imm 1)) full = .next t) ∧ (∃ t, exec (.xor (.indirect 10) (.imm 1)) full = .next t) ∧
    (∃ t, exec (.cmp (.direct 10) (.imm 4)) full = .next t) ∧ (∃ t, exec .iret full = .next t) ∧
    (∃ t, exec (.jz (.direct 10)) full = .next t) ∧ (∃ t, exec .ei full = .next t) ∧
    (∃ t, exec .halt full = .next t) ∧ ∃ t, step full = .next t :=
  ⟨⟨_, rfl⟩, ⟨_, rfl⟩, ⟨_, rfl⟩, ⟨_, rfl⟩, ⟨_, rfl⟩, ⟨_, rfl⟩, ⟨_, rfl⟩, ⟨_, rfl⟩, ⟨_, rfl⟩, ⟨_, rfl⟩, ⟨_, rfl⟩⟩

/-- A raise by an instruction, by a fetch and by a service. -/
theorem test_witness_ConditionsEachCanRaise :
    (after (exec (.movo 2 (.imm 65)) full)).map (fun s => s.status) = some (.raised (.illegalPort 2) (val 8)) ∧
    fetchDecode full = .error (.uninitialisedRead (.cell 8)) ∧
    (service base).status = .raised (.uninitialisedRead (.reg .rsp)) (val 8) := ⟨by decide, rfl, by decide⟩

/-- A form that completes, `halt`, a form that raises after its first tick, and a service that completes. -/
theorem test_witness_TickCosts :
    (after (exec (.mov (.indirect 10) (.direct 10)) full)).map (fun s => (s.status, s.tick)) = some (.running, 2) ∧
    (after (exec .halt full)).map (fun s => (s.status, s.tick)) = some (.halted, 0) ∧
    (after (exec (.mov (.direct 64) (.direct 10)) full)).map (fun s => (s.status, s.tick)) =
      some (.raised (.addressOutOfRange 64) (val 8), 1) ∧
    (service ready).status = .running := by decide

end Sys2Proof.Tests
end

section
/-! The launch said once: when `launch` starts a run, and what each of its checks asks (70_reset_and_hazards.md R280,
R282, R285); with them, O9. -/

namespace Sys2Proof.Machine

/-! ## The checks, one by one -/

/-- No image address lies outside memory. -/
theorem outOfRangeAddress_eq_none {memSize : Nat} {cells : List (Int × Word)} :
    outOfRangeAddress memSize cells = none ↔ ∀ x ∈ cells, 0 ≤ x.1 ∧ x.1 < memSize := by
  simp [outOfRangeAddress]

/-- One check of a chain: it passes, and so do the checks after it. -/
theorem check_passes {c : Prop} [Decidable c] {e : Refusal} {rest : Option Refusal} :
    (if c then some e else rest) = none ↔ ¬c ∧ rest = none := by
  split <;> simp [*]

/-- A request passes all checks on its parameters and its image. -/
theorem launchProblem_eq_none {r : LaunchRequest} :
    launchProblem r = none ↔
      1 ≤ r.memSize ∧ r.memSize ≤ Config.maxMemSize ∧ 1 ≤ r.limit ∧ r.vectorAddr < r.memSize ∧
      r.opcodeMap.wf = true ∧ (∀ x ∈ r.image.cells, 0 ≤ x.1 ∧ x.1 < r.memSize) ∧
      (r.image.cells.map Prod.fst).Nodup := by
  simp only [launchProblem, check_passes, not_or, Nat.not_lt, Nat.not_le, Bool.not_eq_true', Bool.not_eq_false,
    and_assoc, ← outOfRangeAddress_eq_none]
  cases outOfRangeAddress r.memSize r.image.cells <;> simp

/-- `ENTRY` is settled by the request or by a text word (R282). -/
theorem entryValue_isSome {r : LaunchRequest} :
    (∃ v, r.entryValue = some v) ↔ r.entry.isSome = true ∨ r.image.firstText.isSome = true := by
  rw [← Option.isSome_iff_exists, LaunchRequest.entryValue]
  cases r.entry with
  | some v => simp only [Option.isSome_some, true_or]
  | none => simp only [Option.isSome_map, Option.isSome_none, Bool.false_eq_true, false_or]

/-- An input entry is accepted for a natural tick and an S32 integer or one character (R285). -/
theorem checkEntry_accepts {e : RawEntry} :
    (∃ x, checkEntry e = .ok x) ↔ 0 ≤ e.tick ∧
      ((∃ v, e.token = .int v ∧ -2147483648 ≤ v ∧ v ≤ 2147483647) ∨ ∃ c, e.token = .text [c]) := by
  obtain ⟨tick, token⟩ := e
  rcases Int.lt_or_le tick 0 with ht | ht
  · simp [checkEntry, ht, Int.not_le.mpr ht]
  · have hn : ¬tick < 0 := Int.not_lt.mpr ht
    match token with
    | .int v => by_cases hv : -2147483648 ≤ v ∧ v ≤ 2147483647 <;> simp [checkEntry, inS32, ht, hn, hv]
    | .text [] => simp [checkEntry, hn]
    | .text [c] => simp [checkEntry, ht, hn]
    | .text (_ :: _ :: _) => simp [checkEntry, hn]

/-- The input is accepted where each of its entries is. -/
theorem checkInput_accepts {input : List RawEntry} :
    (∃ xs, checkInput input = .ok xs) ↔ ∀ e ∈ input, ∃ x, checkEntry e = .ok x := by
  induction input with
  | nil => simp [checkInput]
  | cons e rest ih =>
    rw [List.forall_mem_cons, ← ih]
    cases he : checkEntry e <;> cases hr : checkInput rest <;> simp [checkInput, he, hr]

/-! ## The launch -/

/-- What a launch that starts a run has passed, and the state it starts from. -/
theorem launch_next {r : LaunchRequest} {t : State} :
    launch r = .next t ↔ launchProblem r = none ∧
      ∃ entry input, r.entryValue = some entry ∧ checkInput r.input = .ok input ∧
        t = State.resetWith (r.params entry) (loadCells r.image.cells) input := by
  unfold launch
  cases launchProblem r with
  | some e => simp
  | none =>
    cases r.entryValue with
    | none => simp
    | some entry => cases checkInput r.input <;> simp [eq_comm (a := t)]

/-- A launch starts a run where its three checks pass. -/
theorem launch_starts {r : LaunchRequest} :
    (∃ t, launch r = .next t) ↔
      launchProblem r = none ∧ (∃ v, r.entryValue = some v) ∧ ∃ xs, checkInput r.input = .ok xs := by
  constructor
  · rintro ⟨t, ht⟩
    obtain ⟨hp, v, xs, hv, hxs, -⟩ := launch_next.mp ht
    exact ⟨hp, ⟨v, hv⟩, xs, hxs⟩
  · rintro ⟨hp, ⟨v, hv⟩, xs, hxs⟩
    exact ⟨_, launch_next.mpr ⟨hp, v, xs, hv, hxs, rfl⟩⟩

/-- Settles O9: each check of `launch` accepts exactly what its part of the statement names. -/
theorem launchAcceptsExactly : Obligations.LaunchAcceptsExactly := by
  intro r
  rw [launch_starts, launchProblem_eq_none, entryValue_isSome, checkInput_accepts]
  simp only [checkEntry_accepts, Config.maxMemSize, and_assoc]

end Sys2Proof.Machine
end

section
/-! Division and modulo of the ALU (43_alu.md R180, R181, R194); with them, O26. -/

namespace Sys2Proof.Machine

/-- A result strictly between -2^31 and 2^31 is not shifted (R181). -/
theorem correct_of_between {r : Int} (hlo : -2147483648 < r) (hhi : r < 2147483648) : correct r = (r, false) := by
  simp [correct, Int.not_le.mpr hlo, Int.not_le.mpr hhi]

theorem aluRaw_div {a b : Value} (hb : b.toInt ≠ 0) : aluRaw .div a b = .ok (Int.fdiv a.toInt b.toInt) := by
  simp [aluRaw, hb]

theorem aluRaw_mod {a b : Value} (hb : b.toInt ≠ 0) : aluRaw .mod a b = .ok (Int.fmod a.toInt b.toInt) := by
  simp [aluRaw, hb]

theorem alu_of_raw {op : AluOp} {a b : Value} {r : Int} (h : aluRaw op a b = .ok r) : alu op a b = .ok (aluOut r) := by
  simp [alu, h]

/-- The floor modulo is nearer to 0 than a negative divisor, and not positive. -/
theorem fmod_of_neg {a b : Int} (hb : b < 0) : b < Int.fmod a b ∧ Int.fmod a b ≤ 0 := by
  have hflip := Int.neg_fmod_neg a b
  have hlo := Int.fmod_nonneg_of_pos (-a) (Int.neg_pos_of_neg hb)
  have hhi := Int.fmod_lt_of_pos (-a) (Int.neg_pos_of_neg hb)
  omega

/-- The floor modulo by a machine value is never shifted, as it lies strictly between the divisor and its negative. -/
theorem correct_fmod (a b : Value) (hb : b.toInt ≠ 0) :
    correct (Int.fmod a.toInt b.toInt) = (Int.fmod a.toInt b.toInt, false) := by
  have hlo := @BitVec.le_toInt 32 b
  have hhi := @BitVec.toInt_lt 32 b
  rcases Int.lt_or_gt_of_ne hb with hneg | hpos
  · obtain ⟨h1, h2⟩ := fmod_of_neg (a := a.toInt) hneg
    exact correct_of_between (by omega) (by omega)
  · have h1 := Int.fmod_nonneg_of_pos a.toInt hpos
    have h2 := Int.fmod_lt_of_pos a.toInt hpos
    exact correct_of_between (by omega) (by omega)

/-- Settles O26: the floor division law of the integers, with a modulo that `Correct` leaves as it is. -/
theorem floorDivisionLaw : Obligations.FloorDivisionLaw := by
  intro a b hb
  have hc := correct_fmod a b hb
  exact ⟨_, _, _, aluRaw_div hb, aluRaw_mod hb, alu_of_raw (aluRaw_mod hb), (Int.mul_fdiv_add_fmod ..).symm,
    fun hpos => ⟨Int.fmod_nonneg_of_pos _ hpos, Int.fmod_lt_of_pos _ hpos⟩, fmod_of_neg,
    congrArg Prod.fst hc, congrArg Prod.snd hc⟩

end Sys2Proof.Machine
end

section
/-! A launched run starts in the reset state (10_state.md R35, 70_reset_and_hazards.md R282, R285): what the loader puts
in each cell and what the checked input holds; with them, O8. -/

namespace Sys2Proof.Machine

open Sys2Proof.Claims

/-! ## The loader -/

/-- The words of an image put, in their order, into a memory that may hold others. -/
def putCells (mem : Memory) (cells : List (Int × Word)) : Memory :=
  cells.foldl (fun mem x => mem.put x.1.toNat x.2) mem

theorem loadCells_eq_putCells (cells : List (Int × Word)) : loadCells cells = putCells [] cells := rfl

theorem putCells_cons (mem : Memory) (x : Int × Word) (cells : List (Int × Word)) :
    putCells mem (x :: cells) = putCells (mem.put x.1.toNat x.2) cells := rfl

/-- A cell that none of the words names keeps what it held. -/
theorem cell_putCells_of_forall_ne {cells : List (Int × Word)} {a : Nat} (h : ∀ x ∈ cells, x.1.toNat ≠ a)
    (mem : Memory) : (putCells mem cells).cell a = mem.cell a := by
  induction cells generalizing mem with
  | nil => rfl
  | cons x rest ih =>
    obtain ⟨hx, hrest⟩ := List.forall_mem_cons.mp h
    rw [putCells_cons, ih hrest, Memory.cell_put_other _ _ hx.symm]

/-- Where no address is given twice, each word stands in the cell it names. -/
theorem cell_putCells_of_mem {cells : List (Int × Word)} (hn : cells.Pairwise fun x y => x.1.toNat ≠ y.1.toNat)
    {x : Int × Word} (hx : x ∈ cells) (mem : Memory) : (putCells mem cells).cell x.1.toNat = some x.2 := by
  induction cells generalizing mem with
  | nil => cases hx
  | cons y rest ih =>
    obtain ⟨hy, hrest⟩ := List.pairwise_cons.mp hn
    rw [putCells_cons]
    rcases List.mem_cons.mp hx with rfl | hx
    · rw [cell_putCells_of_forall_ne fun z hz => (hy z hz).symm, Memory.cell_put_same]
    · exact ih hrest hx _

/-- Distinct addresses that are natural numbers stay distinct as natural numbers. -/
theorem pairwise_toNat_ne {cells : List (Int × Word)} (h0 : ∀ x ∈ cells, 0 ≤ x.1) (hn : (cells.map Prod.fst).Nodup) :
    cells.Pairwise fun x y => x.1.toNat ≠ y.1.toNat := by
  refine (List.pairwise_map.mp hn).imp_of_mem fun {x y} hx hy hne => ?_
  have hx0 := h0 x hx
  have hy0 := h0 y hy
  omega

/-! ## The checked input -/

/-- A checked entry holds what the host gave. -/
theorem checkEntry_held {x : RawEntry} {e : Entry} (h : checkEntry x = .ok e) : EntryHeld x e := by
  obtain ⟨tick, token⟩ := x
  unfold checkEntry at h
  split at h
  · cases h
  · rename_i ht
    have hk : tick = (tick.toNat : Int) := (Int.toNat_of_nonneg (Int.not_lt.mp ht)).symm
    match token, h with
    | .int v, h =>
      dsimp only at h
      split at h <;> cases h
      exact ⟨hk, congrArg RawToken.int (toInt_ofInt ‹_›).symm⟩
    | .text [c], h =>
      cases h
      exact ⟨hk, rfl⟩

/-- An accepted input, said of its first entry and the rest. -/
theorem checkInput_cons_ok {x : RawEntry} {rest : List RawEntry} {entries : List Entry}
    (h : checkInput (x :: rest) = .ok entries) :
    ∃ e es, checkEntry x = .ok e ∧ checkInput rest = .ok es ∧ entries = e :: es := by
  unfold checkInput at h
  split at h
  · cases h
  · split at h <;> cases h
    exact ⟨_, _, ‹_›, ‹_›, rfl⟩

theorem checkInput_length {input : List RawEntry} {entries : List Entry} (h : checkInput input = .ok entries) :
    entries.length = input.length := by
  induction input generalizing entries with
  | nil =>
    cases h
    rfl
  | cons x rest ih =>
    obtain ⟨e, es, -, hes, rfl⟩ := checkInput_cons_ok h
    rw [List.length_cons, List.length_cons, ih hes]

/-- The checked input holds, place by place, what the host gave. -/
theorem checkInput_held {input : List RawEntry} {entries : List Entry} (h : checkInput input = .ok entries) {k : Nat}
    {x : RawEntry} {e : Entry} (hx : input[k]? = some x) (he : entries[k]? = some e) : EntryHeld x e := by
  induction input generalizing entries k with
  | nil => cases hx
  | cons y rest ih =>
    obtain ⟨d, ds, hd, hds, rfl⟩ := checkInput_cons_ok h
    cases k with
    | zero =>
      cases hx
      cases he
      exact checkEntry_held hd
    | succ k => exact ih hds hx he

/-- Settles O8: a launch answers `resetWith`, whose image and input are those of the request. -/
theorem launchGivesResetState : Obligations.LaunchGivesResetState := by
  intro r t ht
  obtain ⟨hp, entry, input, hentry, hinput, rfl⟩ := launch_next.mp ht
  obtain ⟨-, -, -, -, -, hrange, hnodup⟩ := launchProblem_eq_none.mp hp
  refine ⟨rfl, rfl, rfl, hentry, rfl, rfl, rfl, rfl, rfl, rfl, rfl, rfl, rfl, fun x hx => ?_, fun a ha => ?_,
    checkInput_length hinput, fun k x e hx he => checkInput_held hinput hx he, rfl⟩
  · change (loadCells r.image.cells).cell x.1.toNat = some x.2
    rw [loadCells_eq_putCells]
    exact cell_putCells_of_mem (pairwise_toNat_ne (fun y hy => (hrange y hy).1) hnodup) hx []
  · change (loadCells r.image.cells).cell a = none
    rw [loadCells_eq_putCells]
    refine cell_putCells_of_forall_ne (fun x hx hxa => ha x hx ?_) []
    rw [← hxa, Int.toNat_of_nonneg (hrange x hx).1]

end Sys2Proof.Machine
end

section
/-! The modes: the parameters, the flags and the trap bit, which no write to a register, a cell or a queue touches. What
each operation, each instruction and the end of a cycle do to them is said once; O47, O49 and O51 each read off one of
them. -/

namespace Sys2Proof.Machine

open Sys2Proof.Claims

/-- The parameters, the flags and trap mode (10_state.md R27, R28, R36). -/
structure Modes where
  params : Params
  flagN : Slot Bool
  flagZ : Slot Bool
  flagOF : Slot Bool
  trap : Bool

/-- The modes of a state. -/
def State.modes (s : State) : Modes := ⟨s.params, s.flagN, s.flagZ, s.flagOF, s.trap⟩

/-- The modes with trap mode entered or left. -/
def Modes.withTrap (m : Modes) (b : Bool) : Modes := { m with trap := b }

theorem params_of_modes {s t : State} (h : t.modes = s.modes) : t.params = s.params := congrArg Modes.params h

theorem trap_of_modes {s t : State} (h : t.modes = s.modes) : t.trap = s.trap := congrArg Modes.trap h

theorem flagsKept_of_modes {s t : State} (h : t.modes = s.modes) : FlagsKept s t :=
  ⟨congrArg Modes.flagN h, congrArg Modes.flagZ h, congrArg Modes.flagOF h⟩

theorem params_of_withTrap {s t : State} {b : Bool} (h : t.modes = s.modes.withTrap b) : t.params = s.params :=
  congrArg Modes.params h

theorem trap_of_withTrap {s t : State} {b : Bool} (h : t.modes = s.modes.withTrap b) : t.trap = b :=
  congrArg Modes.trap h

theorem flagsKept_of_withTrap {s t : State} {b : Bool} (h : t.modes = s.modes.withTrap b) : FlagsKept s t :=
  ⟨congrArg Modes.flagN h, congrArg Modes.flagZ h, congrArg Modes.flagOF h⟩

/-! ## The shared operations -/

@[simp] theorem modes_raise (c : Cond) (s : State) : (raise c s).modes = s.modes := rfl

@[simp] theorem modes_stepEnd (s : State) : (stepEnd s).modes = s.modes := rfl

@[simp] theorem modes_setReg (r : Reg) (v : Value) (s : State) : (setReg r v s).modes = s.modes := by
  cases r <;> rfl

@[simp] theorem modes_advance (x : Option Value) (s : State) : (advance x s).modes = s.modes := by
  rcases advance_cases x s with ⟨v, h⟩ | ⟨-, -, h⟩ <;> rw [h] <;> rfl

theorem modes_writeLoc {l : Loc} {v : Int} {s t : State} (h : writeLoc l v s = .ok t) : t.modes = s.modes := by
  obtain ⟨-, ⟨r, -, rfl⟩ | ⟨a, -, -, rfl⟩⟩ := writeLoc_ok h
  · exact modes_setReg ..
  · rfl

theorem modes_writeDest {d : Dest} {v : Int} {s t : State} (h : writeDest d v s = .ok t) : t.modes = s.modes := by
  obtain ⟨l, -, hl⟩ := writeDest_ok.mp h
  exact modes_writeLoc hl

theorem modes_pop {v : Value} {s t : State} (h : pop s = .ok (v, t)) : t.modes = s.modes := by
  obtain ⟨sp, -, -, rfl⟩ := pop_ok h
  exact modes_setReg ..

theorem modes_portWrite {p v : Int} {s t : State} (h : portWrite p v s = .ok t) : t.modes = s.modes := by
  obtain ⟨-, -, -, rfl⟩ := portWrite_ok h
  rfl

theorem modes_portRead {p : Int} {v : Value} {s t : State} (h : portRead p s = .ok (v, t)) : t.modes = s.modes := by
  obtain ⟨-, e, rest, -, -, rfl⟩ := portRead_ok h
  rfl

@[simp] theorem modes_pendingLogic (s : State) : (pendingLogic s).modes = s.modes := by
  rcases pendingLogic_cases s with h | h
  · rw [h]
  · rw [h]; rfl

@[simp] theorem modes_countInstruction (s : State) : (countInstruction s).modes = s.modes := by
  rcases countInstruction_cases s with ⟨-, h⟩ | ⟨-, h⟩ <;> rw [h] <;> rfl

@[simp] theorem modes_afterAlu (o : AluOut) (s : State) : (afterAlu o s).modes = (setFlags o s).modes := rfl

@[simp] theorem modes_afterPush (sp v : Value) (s : State) : (afterPush sp v s).modes = s.modes := rfl

@[simp] theorem modes_afterPopAcc (sp a : Value) (s : State) : (afterPopAcc sp a s).modes = s.modes := rfl

/-! ## The instructions -/

theorem modes_branchInstr (cond : State → Except Cond Bool) (x : Src) (s : State) :
    (branchInstr cond x s).modes = s.modes := by
  rcases branchInstr_cases cond x s with ⟨c, -, h⟩ | ⟨t, c, -, -, h⟩ | ⟨t, b, -, -, h⟩ <;> simp [h]

theorem modes_movOneStep (d : Dest) (src : Src) (s : State) : (movOneStep d src s).modes = s.modes := by
  rcases movOneStep_cases d src s with ⟨c, -, h⟩ | ⟨v, c, -, -, h⟩ | ⟨v, t, -, hw, h⟩
  · simp [h]
  · simp [h]
  · simp [h, modes_writeDest hw]

theorem modes_movTwoSteps (d : Dest) (src : Src) (s : State) : (movTwoSteps d src s).modes = s.modes := by
  rcases movTwoSteps_cases d src s with ⟨c, -, h⟩ | ⟨v, c, -, -, h⟩ | ⟨v, t, -, hw, h⟩
  · simp [h]
  · simp [h]
  · simp [h, modes_writeDest hw]

theorem modes_execMov {d : Dest} {src : Src} {s t : State} (h : execMov d src s = .next t) : t.modes = s.modes := by
  cases h
  split
  · exact modes_movTwoSteps ..
  · exact modes_movOneStep ..

theorem modes_execMovo {p : Value} {src : Src} {s t : State} (h : execMovo p src s = .next t) :
    t.modes = s.modes := by
  rcases execMovo_cases p src s with ⟨c, -, e⟩ | ⟨v, c, -, -, e⟩ | ⟨v, u, -, hw, e⟩ <;>
    obtain rfl := Host.Outcome.next.inj (e.symm.trans h)
  · rfl
  · rfl
  · simp [modes_portWrite hw]

theorem modes_execMovi {d : Dest} {p : Value} {s t : State} (h : execMovi d p s = .next t) : t.modes = s.modes := by
  rcases execMovi_cases d p s with
    ⟨c, -, e⟩ | ⟨l, c, -, -, e⟩ | ⟨l, v, u, c, -, -, -, e⟩ | ⟨l, v, u, w, -, hr, hw, e⟩ <;>
    obtain rfl := Host.Outcome.next.inj (e.symm.trans h)
  · rfl
  · rfl
  · rfl
  · simp [modes_writeLoc hw, modes_portRead hr]

/-- An ALU instruction raises before the ALU wrote the flags, or writes the flags of one ALU result. -/
theorem modes_aluRegister (op : AluOp) (r : Reg) (src : Src) (s : State) :
    (aluRegister op r src s).modes = s.modes ∨ ∃ o, (aluRegister op r src s).modes = (setFlags o s).modes := by
  rcases aluRegister_cases op r src s with
    ⟨c, -, h⟩ | ⟨a, c, -, -, h⟩ | ⟨a, b, c, -, -, -, h⟩ | ⟨a, b, o, -, -, -, ⟨-, h⟩ | ⟨-, -, h⟩ | ⟨-, -, h⟩⟩
  iterate 3 exact .inl (by simp [h])
  iterate 3 exact .inr ⟨o, by simp [h]⟩

theorem modes_aluMemory (op : AluOp) (d : Dest) (src : Src) (s : State) :
    (aluMemory op d src s).modes = s.modes ∨ ∃ o, (aluMemory op d src s).modes = (setFlags o s).modes := by
  rcases aluMemory_cases op d src s with
    ⟨c, -, h⟩ | ⟨a, c, -, -, h⟩ | ⟨a, b, c, -, -, -, h⟩ | ⟨a, b, o, -, -, -, ⟨-, h⟩ | ⟨c, -, -, h⟩ | ⟨t, -, hw, h⟩⟩
  iterate 3 exact .inl (by simp [h])
  · exact .inr ⟨o, by rw [h, modes_advance]; rfl⟩
  · exact .inr ⟨o, by rw [h]; rfl⟩
  · exact .inr ⟨o, by rw [h, modes_advance, modes_stepEnd, modes_writeDest hw]; rfl⟩

theorem modes_aluInstr (op : AluOp) (d : Dest) (src : Src) (s : State) :
    (aluInstr op d src s).modes = s.modes ∨ ∃ o, (aluInstr op d src s).modes = (setFlags o s).modes := by
  cases d with
  | reg r => exact modes_aluRegister op r src s
  | direct a => exact modes_aluMemory op (.direct a) src s
  | indirect a => exact modes_aluMemory op (.indirect a) src s

/-- `iret` raises in one of its pops, or leaves trap mode. -/
theorem modes_trapReturn (s : State) :
    (trapReturn s).modes = s.modes ∨ (trapReturn s).modes = s.modes.withTrap false := by
  rcases trapReturn_cases s with ⟨c, -, h⟩ | ⟨sp, a, c, -, -, -, h⟩ | ⟨sp, a, p, t, -, -, hpop, h⟩
  · exact .inl (by simp [h])
  · exact .inl (by simp [h])
  · have ht : t.modes = (afterPopAcc sp a s).modes := modes_pop hpop
    rw [modes_afterPopAcc] at ht
    exact .inr (by rw [h, ← ht]; rfl)

/-- All that an instruction can do to the modes. -/
theorem modes_exec {i : Instr} {s t : State} (h : exec i s = .next t) :
    t.modes = s.modes ∨
      (isAlu i = true ∧ ∃ o, t.modes = (setFlags o s).modes) ∨
      (i = .iret ∧ t.modes = s.modes.withTrap false) := by
  cases i with
  | halt =>
    cases h
    exact .inl rfl
  | ei | di | nop =>
    cases h
    exact .inl (modes_advance none _)
  | iret =>
    cases h
    exact (modes_trapReturn s).imp_right fun h => .inr ⟨rfl, h⟩
  | jmp x | jz x | jnz x | jn x | jnn x =>
    cases h
    exact .inl (modes_branchInstr ..)
  | add d x | sub d x | mul d x | div d x | mod d x | xor d x | and d x | or d x | cmp d x =>
    cases h
    exact (modes_aluInstr ..).imp_right fun h => .inl ⟨rfl, h⟩
  | mov d x => exact .inl (modes_execMov h)
  | movo p x => exact .inl (modes_execMovo h)
  | movi d p => exact .inl (modes_execMovi h)

/-! ## Service and the end of the cycle -/

/-- A service raises in one of its micro-steps, or enters trap mode. -/
theorem modes_service (s : State) : (service s).modes = s.modes ∨ (service s).modes = s.modes.withTrap true := by
  rcases service_cases s with
    ⟨c, -, h⟩ | ⟨sp, -, -, ⟨c, -, h⟩ | ⟨a, c, -, -, h⟩ | ⟨a, sp2, c, -, -, -, -, h⟩ | ⟨a, sp2, v, -, -, -, -, h⟩⟩
  iterate 4 exact .inl (by rw [h]; rfl)
  · exact .inr (by rw [h]; rfl)

theorem modes_interruptBoundary (s : State) :
    (interruptBoundary s).modes = s.modes ∨
      (serviceDue (pendingLogic s) = true ∧ (interruptBoundary s).modes = s.modes.withTrap true) := by
  rcases interruptBoundary_cases s with ⟨-, h⟩ | ⟨hdue, h⟩ <;> rw [h]
  · exact .inl (modes_pendingLogic s)
  · have hs := modes_service (pendingLogic s)
    rw [modes_pendingLogic] at hs
    exact hs.imp_right fun hs => ⟨hdue, hs⟩

/-- The end of a cycle touches the modes only where a live state's due service enters trap mode. -/
theorem modes_finishCycle (s : State) :
    (finishCycle s).modes = s.modes ∨
      (s.status = .running ∧ serviceDue (pendingLogic s) = true ∧ (finishCycle s).modes = s.modes.withTrap true) := by
  have hb := modes_interruptBoundary s
  rcases finishCycle_cases s with ⟨-, h⟩ | ⟨hs, -, h⟩ | ⟨hs, -, h⟩ <;> rw [h]
  · exact .inl rfl
  · exact hb.imp_right fun hb => ⟨hs, hb⟩
  · rw [modes_countInstruction]
    exact hb.imp_right fun hb => ⟨hs, hb⟩

theorem finishCycle_params (s : State) : (finishCycle s).params = s.params :=
  (modes_finishCycle s).elim params_of_modes fun ⟨_, _, h⟩ => params_of_withTrap h

theorem finishCycle_flagsKept (s : State) : FlagsKept s (finishCycle s) :=
  (modes_finishCycle s).elim flagsKept_of_modes fun ⟨_, _, h⟩ => flagsKept_of_withTrap h

theorem finishCycle_trap (s : State) :
    (finishCycle s).trap = s.trap ∨
      (s.status = .running ∧ serviceDue (pendingLogic s) = true ∧ (finishCycle s).trap = true) :=
  (modes_finishCycle s).imp trap_of_modes fun ⟨hs, hdue, h⟩ => ⟨hs, hdue, trap_of_withTrap h⟩

/-! ## What `exec` does to one mode -/

theorem exec_params {i : Instr} {s t : State} (h : exec i s = .next t) : t.params = s.params := by
  rcases modes_exec h with h | ⟨-, o, h⟩ | ⟨-, h⟩
  · exact params_of_modes h
  · exact (params_of_modes h).trans (setFlags_params s o)
  · exact params_of_withTrap h

theorem exec_trap {i : Instr} {s t : State} (h : exec i s = .next t) :
    t.trap = s.trap ∨ (i = .iret ∧ t.trap = false) := by
  rcases modes_exec h with h | ⟨-, o, h⟩ | ⟨hi, h⟩
  · exact .inl (trap_of_modes h)
  · exact .inl ((trap_of_modes h).trans (setFlags_trap s o))
  · exact .inr ⟨hi, trap_of_withTrap h⟩

theorem exec_flagsKept {i : Instr} {s t : State} (hi : isAlu i = false) (h : exec i s = .next t) : FlagsKept s t := by
  rcases modes_exec h with h | ⟨halu, -⟩ | ⟨-, h⟩
  · exact flagsKept_of_modes h
  · exact absurd halu (by simp [hi])
  · exact flagsKept_of_withTrap h

theorem flagsKept_trans {s t u : State} (h : FlagsKept s t) (k : FlagsKept t u) : FlagsKept s u := by
  obtain ⟨hn, hz, hovf⟩ := h
  obtain ⟨kn, kz, kovf⟩ := k
  exact ⟨kn.trans hn, kz.trans hz, kovf.trans hovf⟩

/-! ## The obligations -/

/-- Settles O51: no instruction and no cycle end writes the parameters. -/
theorem parametersNeverChange : Obligations.ParametersNeverChange := by
  intro s t h
  rcases step_cases h with ⟨-, rfl⟩ | ⟨-, ⟨c, -, rfl⟩ | ⟨i, u, -, hexec, rfl⟩⟩
  · rfl
  · rfl
  · rw [finishCycle_params, exec_params hexec, stepEnd_params]

/-- Settles O49: of the instructions only the nine of the ALU write flags, and no cycle end does. -/
theorem flagsWrittenOnlyByAlu : Obligations.FlagsWrittenOnlyByAlu := by
  refine ⟨fun s t h hi => ?_, finishCycle_flagsKept,
    fun s => (modes_service s).elim flagsKept_of_modes flagsKept_of_withTrap⟩
  rcases step_cases h with ⟨-, rfl⟩ | ⟨-, ⟨c, -, rfl⟩ | ⟨i, u, hfetch, hexec, rfl⟩⟩
  · exact ⟨rfl, rfl, rfl⟩
  · exact ⟨rfl, rfl, rfl⟩
  · have hu : FlagsKept (stepEnd s) u := exec_flagsKept (hi i hfetch) hexec
    exact flagsKept_trans hu (finishCycle_flagsKept u)

/-- Settles O47: of the instructions only `iret` writes the trap bit, and the cycle end only sets it; so a cleared bit is
the work of the fetched instruction. -/
theorem trapChangesOnlyByServiceAndIret : Obligations.TrapChangesOnlyByServiceAndIret := by
  refine ⟨fun i s t h => exec_trap h, finishCycle_trap, fun s t h hs ht => ?_⟩
  rcases step_cases h with ⟨-, rfl⟩ | ⟨-, ⟨c, -, rfl⟩ | ⟨i, u, hfetch, hexec, rfl⟩⟩
  · exact absurd (hs.symm.trans ht) (by decide)
  · exact absurd (hs.symm.trans ht) (by decide)
  · rcases finishCycle_trap u with hkept | ⟨-, -, hset⟩
    · rcases exec_trap hexec with hexecKept | ⟨rfl, -⟩
      · have hclear : s.trap = false := hexecKept.symm.trans (hkept.symm.trans ht)
        exact absurd (hs.symm.trans hclear) (by decide)
      · exact hfetch
    · exact absurd (hset.symm.trans ht) (by decide)

end Sys2Proof.Machine
end

section
/-! The reset state and the end of a run (10_state.md R31, R35); O10 and O15. -/

namespace Sys2Proof.Machine

theorem defaultParams_ok : Config.defaultParams.ok = true := by decide

/-- The reset state is live with nothing counted, so it agrees with its counter once the limit is not 0. -/
theorem resetWith_statusOk {p : Params} (h : 1 ≤ p.limit) (image : Memory) (input : List Entry) :
    (State.resetWith p image input).statusOk = true := decide_eq_true h

/-- Settles O10: the default parameters are within bounds, and the image of the reset state is empty. -/
theorem resetMeetsInvariant : Obligations.ResetMeetsInvariant :=
  ⟨defaultParams_ok, rfl, List.forall_mem_nil _, resetWith_statusOk (by decide) [] []⟩

theorem status_ended_iff {x : Status} : x.ended = true ↔ x ≠ .running := by
  cases x <;> simp [Status.ended, Status.code]

theorem step_of_ended {s : State} (h : s.status ≠ .running) : step s = .next s := by
  unfold step
  split
  · exact absurd ‹_› h
  all_goals rfl

/-- A state that steps to itself is where any number of steps from it ends. -/
theorem runSteps_of_fixed {s : State} (h : step s = .next s) (k : Nat) : runSteps k s = s := by
  induction k with
  | zero => rfl
  | succ k ih => simp only [runSteps, h, ih]

/-- Settles O15: an ended state steps to itself. -/
theorem endedRunNeverChanges : Obligations.EndedRunNeverChanges := by
  intro s k h
  have hstep : step s = .next s := step_of_ended (status_ended_iff.mp h)
  exact ⟨hstep, runSteps_of_fixed hstep k⟩

end Sys2Proof.Machine
end

section
/-! Accesses (20_memory.md R53, R54, R57, R58, R60): what reading a cell gives in each case, and what the operands and the
stack make of it; O20, O21 and O22. -/

namespace Sys2Proof.Machine

/-! ## One access -/

theorem inMemory_eq_false_iff {a : Int} {s : State} :
    inMemory a s = false ↔ a < 0 ∨ (s.params.memSize : Int) ≤ a := by
  rw [← Bool.not_eq_true, inMemory_iff]
  omega

theorem memRead_of_not_inMemory {a : Int} {s : State} (h : inMemory a s = false) :
    memRead a s = .error (.addressOutOfRange a) := by
  simp [memRead, h]

theorem memRead_of_cell {a : Int} {s : State} {w : Word} (hin : inMemory a s = true)
    (hc : s.mem.cell a.toNat = some w) : memRead a s = .ok w := by
  simp [memRead, hin, hc]

theorem memRead_unwritten_fault {a : Int} {s : State} (hp : s.params.policy = .fault) (hin : inMemory a s = true)
    (hc : s.mem.cell a.toNat = none) : memRead a s = .error (.uninitialisedRead (.cell a)) := by
  simp [memRead, hin, hc, hp]

theorem memRead_unwritten_zero {a : Int} {s : State} (hp : s.params.policy = .zero) (hin : inMemory a s = true)
    (hc : s.mem.cell a.toNat = none) : memRead a s = .ok (dataword 0#32) := by
  simp [memRead, hin, hc, hp]

theorem readPayload_of_cell {a : Int} {s : State} {w : Word} (hin : inMemory a s = true)
    (hc : s.mem.cell a.toNat = some w) : readPayload a s = .ok (payload w) :=
  readPayload_ok.mpr ⟨w, memRead_of_cell hin hc, rfl⟩

theorem readPayload_of_not_inMemory {a : Int} {s : State} (h : inMemory a s = false) :
    readPayload a s = .error (.addressOutOfRange a) :=
  readPayload_error.mpr (memRead_of_not_inMemory h)

/-- A value in S32 stored outside memory: the range check passes, the address check raises (R59). -/
theorem writePayload_of_not_inMemory {a : Int} {s : State} (h : inMemory a s = false) (v : Value) :
    writePayload a v.toInt s = .error (.addressOutOfRange a) :=
  writePayload_error.mpr (.inr ⟨inS32_toInt v, h, rfl⟩)

/-- Under the zero policy an unwritten item reads as its zero (10_state.md R21). -/
theorem readSlot_unwritten_zero {α : Type} {s : State} (hp : s.params.policy = .zero) (z : α) (i : Item) :
    readSlot .unwritten z i s = .ok z := by
  simp [readSlot, hp]

/-! ## Operands -/

theorem resolveValue_direct (a : Value) (s : State) : resolveValue (.direct a) s = readPayload a.toInt s := rfl

theorem resolveValue_indirect {a p : Value} {s : State} (h : readPayload a.toInt s = .ok p) :
    resolveValue (.indirect a) s = readPayload p.toInt s := by
  simp [resolveValue, h]

theorem resolveValue_indirect_error {a : Value} {s : State} {c : Cond} (h : readPayload a.toInt s = .error c) :
    resolveValue (.indirect a) s = .error c :=
  bind_error.mpr (.inl h)

theorem resolveDest_indirect {a p : Value} {s : State} (h : readPayload a.toInt s = .ok p) :
    resolveDest (.indirect a) s = .ok (.mem p.toInt) := by
  simp [resolveDest, h]

theorem resolveDest_indirect_error {a : Value} {s : State} {c : Cond} (h : readPayload a.toInt s = .error c) :
    resolveDest (.indirect a) s = .error c :=
  bind_error.mpr (.inl h)

/-! ## The instruction word and the stack -/

theorem fetchDecode_of_memRead_error {s : State} {c : Cond} (h : memRead s.rip.toInt s = .error c) :
    fetchDecode s = .error c := by
  simp [fetchDecode, h]

theorem push_of_not_inMemory {sp v : Value} {s : State} (hsp : readReg .rsp s = .ok sp)
    (h : inMemory sp.toInt s = false) : push v s = .error (.addressOutOfRange sp.toInt) :=
  bind_error.mpr (.inr ⟨sp, hsp, bind_error.mpr (.inl (writePayload_of_not_inMemory h v))⟩)

theorem pop_of_not_inMemory {sp : Value} {s : State} (hsp : readReg .rsp s = .ok sp)
    (h : inMemory (sp.toInt + 1) s = false) : pop s = .error (.addressOutOfRange (sp.toInt + 1)) :=
  bind_error.mpr (.inr ⟨sp, hsp, bind_error.mpr (.inl (readPayload_of_not_inMemory h))⟩)

/-! ## The obligations -/

/-- Settles O20: every access goes through the address check of `memRead` or of `memWrite`. -/
theorem accessOutsideMemoryRaises : Obligations.AccessOutsideMemoryRaises := by
  intro s a x hx
  have hout : inMemory x s = false := inMemory_eq_false_iff.mpr hx
  refine ⟨memRead_of_not_inMemory hout, fun w => memWrite_error.mpr ⟨hout, rfl⟩,
    writePayload_of_not_inMemory hout, ?_, ?_, ?_, ?_, ?_, ?_⟩
  · rintro rfl
    exact fetchDecode_of_memRead_error (memRead_of_not_inMemory hout)
  · rintro rfl
    have hread := readPayload_of_not_inMemory hout
    exact ⟨hread, resolveValue_indirect_error hread, resolveDest_indirect_error hread⟩
  · rintro p hp rfl
    rw [resolveValue_indirect hp]
    exact readPayload_of_not_inMemory hout
  · rintro sp v hsp rfl
    exact push_of_not_inMemory hsp hout
  · rintro sp hsp rfl
    exact pop_of_not_inMemory hsp hout
  · rintro rfl
    exact readPayload_of_not_inMemory hout

/-- Settles O21: the policy decides every read of an unwritten item. -/
theorem unwrittenReads : Obligations.UnwrittenReads := by
  refine fun s => ⟨fun hp => ⟨fun a h0 h1 => ?_, fun r hr => ?_, fun hn => ?_, fun hz => ?_⟩,
    fun hp => ⟨fun a h0 h1 hc => ⟨?_, rfl⟩, fun r hr => ?_, fun hn => ?_, fun hz => ?_⟩⟩
  · exact memRead_unwritten_fault hp (inMemory_iff.mpr ⟨h0, h1⟩)
  · exact readReg_error.mpr ⟨hr, hp, rfl⟩
  · exact readSlot_error.mpr ⟨hn, hp, rfl⟩
  · exact readSlot_error.mpr ⟨hz, hp, rfl⟩
  · exact memRead_unwritten_zero hp (inMemory_iff.mpr ⟨h0, h1⟩) hc
  · rw [readReg, hr]
    exact readSlot_unwritten_zero hp ..
  · rw [readFlag, hn]
    exact readSlot_unwritten_zero hp ..
  · rw [readFlag, hz]
    exact readSlot_unwritten_zero hp ..

/-- Settles O22: a mode reads its register, its cell, or the cell its pointer cell names. -/
theorem operandResolution : Obligations.OperandResolution := by
  refine fun s => ⟨fun v => rfl, fun r v hr => ⟨readReg_of_written hr, resolveDest_reg r s⟩, fun a => rfl,
    fun a w h0 h1 hw => ?_⟩
  have hread : readPayload a.toInt s = .ok (v1Field w) := readPayload_of_cell (inMemory_iff.mpr ⟨h0, h1⟩) hw
  refine ⟨hread, resolveDest_indirect hread, fun w' k0 k1 hw' => ?_⟩
  rw [resolveValue_indirect hread]
  exact readPayload_of_cell (inMemory_iff.mpr ⟨k0, k1⟩) hw'

end Sys2Proof.Machine
end

section
/-! What a step can store (20_memory.md R52, R69) and what it does to the two queues (R56, R61, R62): every store is of a
data word, and no instruction but `movi` and `movo` touches a queue. The three fields are followed together through each
operation, each instruction and the end of a cycle; O48 and O50 read off the result. -/

namespace Sys2Proof.Machine

open Sys2Proof.Claims

/-! ## Words that are data -/

theorem opField_dataword (v : Value) : opField (dataword v) = 0#8 := by
  apply BitVec.eq_of_getLsbD_eq
  intro i hi
  simp only [opField, dataword, BitVec.getLsbD_extractLsb', assemble, BitVec.getLsbD_append]
  simp [show ¬ (72 + i < 32) by omega, show ¬ (72 + i - 32 < 4) by omega, show ¬ (72 + i - 32 - 4 < 32) by omega,
    show ¬ (72 + i - 32 - 4 - 32 < 4) by omega]

/-- No opcode map gives 0x00 a mnemonic (30_encoding.md R91 check 1, R93). -/
theorem decode_of_opField_zero (m : OpcodeMap) {w : Word} (h : opField w = 0#8) : decode m w = .error .opcode := by
  have hm : m.mnemonic (opField w) = none := by
    rw [h]
    unfold OpcodeMap.mnemonic
    exact if_pos rfl
  simp [decode, hm]

theorem decode_dataword (m : OpcodeMap) (v : Value) : decode m (dataword v) = .error .opcode :=
  decode_of_opField_zero m (opField_dataword v)

/-- A word fetched that does not decode is malformed (40_control_cycle.md R111). -/
theorem fetchDecode_of_malformed {s : State} {w : Word} {e : Malformed} (hr : memRead s.rip.toInt s = .ok w)
    (hd : decode s.params.opcodeMap w = .error e) : fetchDecode s = .error (.malformedWord w) := by
  simp [fetchDecode, hr, hd]

theorem step_of_fetch_error {s : State} {c : Cond} (hs : s.status = .running) (h : fetchDecode s = .error c) :
    step s = .next (raise c s) := by
  simp [step, hs, h]

/-- A live state about to fetch a data word ends with it (20_memory.md R69). -/
theorem step_of_fetch_dataword {s : State} {v : Value} (hs : s.status = .running)
    (h : memRead s.rip.toInt s = .ok (dataword v)) : step s = .next (raise (.malformedWord (dataword v)) s) :=
  step_of_fetch_error hs (fetchDecode_of_malformed h (decode_dataword _ v))

/-! ## Memory and the queues -/

/-- Memory and the two queues (10_state.md R32, R33). -/
structure Held where
  mem : Memory
  inq : List Entry
  outq : List CodePoint

/-- What a state holds outside its registers. -/
def State.held (s : State) : Held := ⟨s.mem, s.inq, s.outq⟩

/-- What `k` holds is what `h` holds after stores of data words alone. -/
structure DataStored (h k : Held) : Prop where
  mem : ∀ a, k.mem.cell a = h.mem.cell a ∨ ∃ v, k.mem.cell a = some (dataword v)
  inq : k.inq = h.inq
  outq : k.outq = h.outq

theorem DataStored.refl (h : Held) : DataStored h h := ⟨fun _ => .inl rfl, rfl, rfl⟩

theorem DataStored.of_eq {h k : Held} (e : k = h) : DataStored h k := e ▸ DataStored.refl h

theorem DataStored.trans {h k l : Held} (x : DataStored h k) (y : DataStored k l) : DataStored h l := by
  refine ⟨fun a => ?_, y.inq.trans x.inq, y.outq.trans x.outq⟩
  rcases y.mem a with ha | ha
  · exact (x.mem a).imp ha.trans fun ⟨v, hv⟩ => ⟨v, ha.trans hv⟩
  · exact .inr ha

/-- The store of one data word. -/
theorem dataStored_put (h : Held) (a : Nat) (v : Value) :
    DataStored h { h with mem := h.mem.put a (dataword v) } := by
  refine ⟨fun b => ?_, rfl, rfl⟩
  by_cases hb : b = a
  · subst hb
    exact .inr ⟨v, Memory.cell_put_same ..⟩
  · exact .inl (Memory.cell_put_other _ _ hb)

/-! ## The shared operations -/

@[simp] theorem held_raise (c : Cond) (s : State) : (raise c s).held = s.held := rfl

@[simp] theorem held_stepEnd (s : State) : (stepEnd s).held = s.held := rfl

@[simp] theorem held_setReg (r : Reg) (v : Value) (s : State) : (setReg r v s).held = s.held := by
  cases r <;> rfl

@[simp] theorem held_afterAlu (o : AluOut) (s : State) : (afterAlu o s).held = s.held := rfl

@[simp] theorem held_afterPopAcc (sp a : Value) (s : State) : (afterPopAcc sp a s).held = s.held := rfl

@[simp] theorem held_advance (x : Option Value) (s : State) : (advance x s).held = s.held := by
  rcases advance_cases x s with ⟨v, h⟩ | ⟨-, -, h⟩ <;> rw [h] <;> rfl

@[simp] theorem held_pendingLogic (s : State) : (pendingLogic s).held = s.held := by
  rcases pendingLogic_cases s with h | h
  · rw [h]
  · rw [h]; rfl

@[simp] theorem held_countInstruction (s : State) : (countInstruction s).held = s.held := by
  rcases countInstruction_cases s with ⟨-, h⟩ | ⟨-, h⟩ <;> rw [h] <;> rfl

theorem held_pop {v : Value} {s t : State} (h : pop s = .ok (v, t)) : t.held = s.held := by
  obtain ⟨sp, -, -, rfl⟩ := pop_ok h
  exact held_setReg ..

theorem held_portRead {p : Int} {v : Value} {s t : State} (h : portRead p s = .ok (v, t)) :
    ∃ e rest, s.inq = e :: rest ∧ t.held = { s.held with inq := rest } := by
  obtain ⟨-, e, rest, hq, -, rfl⟩ := portRead_ok h
  exact ⟨e, rest, hq, rfl⟩

theorem held_portWrite {p v : Int} {s t : State} (h : portWrite p v s = .ok t) :
    ∃ c, t.held = { s.held with outq := s.outq ++ [c] } := by
  obtain ⟨-, -, -, rfl⟩ := portWrite_ok h
  exact ⟨_, rfl⟩

theorem dataStored_writeLoc {l : Loc} {v : Int} {s t : State} (h : writeLoc l v s = .ok t) :
    DataStored s.held t.held := by
  obtain ⟨-, ⟨r, -, rfl⟩ | ⟨a, -, -, rfl⟩⟩ := writeLoc_ok h
  · exact .of_eq (held_setReg ..)
  · exact dataStored_put ..

theorem dataStored_writeDest {d : Dest} {v : Int} {s t : State} (h : writeDest d v s = .ok t) :
    DataStored s.held t.held := by
  obtain ⟨l, -, hl⟩ := writeDest_ok.mp h
  exact dataStored_writeLoc hl

theorem dataStored_afterPush (sp v : Value) (s : State) : DataStored s.held (afterPush sp v s).held :=
  dataStored_put ..

/-! ## The instructions -/

theorem held_branchInstr (cond : State → Except Cond Bool) (x : Src) (s : State) :
    (branchInstr cond x s).held = s.held := by
  rcases branchInstr_cases cond x s with ⟨c, -, h⟩ | ⟨t, c, -, -, h⟩ | ⟨t, b, -, -, h⟩ <;> simp [h]

theorem held_aluRegister (op : AluOp) (r : Reg) (src : Src) (s : State) :
    (aluRegister op r src s).held = s.held := by
  rcases aluRegister_cases op r src s with
    ⟨c, -, h⟩ | ⟨a, c, -, -, h⟩ | ⟨a, b, c, -, -, -, h⟩ | ⟨a, b, o, -, -, -, ⟨-, h⟩ | ⟨-, -, h⟩ | ⟨-, -, h⟩⟩ <;>
    simp [h]

theorem dataStored_aluMemory (op : AluOp) (d : Dest) (src : Src) (s : State) :
    DataStored s.held (aluMemory op d src s).held := by
  rcases aluMemory_cases op d src s with
    ⟨c, -, h⟩ | ⟨a, c, -, -, h⟩ | ⟨a, b, c, -, -, -, h⟩ | ⟨a, b, o, -, -, -, ⟨-, h⟩ | ⟨c, -, -, h⟩ | ⟨t, -, hw, h⟩⟩
  iterate 5 exact .of_eq (by simp [h])
  · simpa [h] using dataStored_writeDest hw

theorem dataStored_aluInstr (op : AluOp) (d : Dest) (src : Src) (s : State) :
    DataStored s.held (aluInstr op d src s).held := by
  cases d with
  | reg r => exact .of_eq (held_aluRegister op r src s)
  | direct a => exact dataStored_aluMemory op (.direct a) src s
  | indirect a => exact dataStored_aluMemory op (.indirect a) src s

theorem dataStored_movOneStep (d : Dest) (src : Src) (s : State) : DataStored s.held (movOneStep d src s).held := by
  rcases movOneStep_cases d src s with ⟨c, -, h⟩ | ⟨v, c, -, -, h⟩ | ⟨v, t, -, hw, h⟩
  · exact .of_eq (by simp [h])
  · exact .of_eq (by simp [h])
  · simpa [h] using dataStored_writeDest hw

theorem dataStored_movTwoSteps (d : Dest) (src : Src) (s : State) : DataStored s.held (movTwoSteps d src s).held := by
  rcases movTwoSteps_cases d src s with ⟨c, -, h⟩ | ⟨v, c, -, -, h⟩ | ⟨v, t, -, hw, h⟩
  · exact .of_eq (by simp [h])
  · exact .of_eq (by simp [h])
  · simpa [h] using dataStored_writeDest hw

theorem dataStored_execMov {d : Dest} {src : Src} {s t : State} (h : execMov d src s = .next t) :
    DataStored s.held t.held := by
  cases h
  split
  · exact dataStored_movTwoSteps ..
  · exact dataStored_movOneStep ..

/-- `movo` raises, or appends one character. -/
theorem held_execMovo {p : Value} {src : Src} {s t : State} (h : execMovo p src s = .next t) :
    t.held = s.held ∨ ∃ c, t.held = { s.held with outq := s.outq ++ [c] } := by
  rcases execMovo_cases p src s with ⟨c, -, e⟩ | ⟨v, c, -, -, e⟩ | ⟨v, u, -, hw, e⟩ <;>
    obtain rfl := Host.Outcome.next.inj (e.symm.trans h)
  · exact .inl rfl
  · exact .inl rfl
  · exact .inr (by simpa using held_portWrite hw)

/-- `movi` raises, or takes the head of the input queue and may store its value. -/
theorem dataStored_execMovi {d : Dest} {p : Value} {s t : State} (h : execMovi d p s = .next t) :
    t.held = s.held ∨ ∃ e rest, s.inq = e :: rest ∧ DataStored { s.held with inq := rest } t.held := by
  rcases execMovi_cases d p s with
    ⟨c, -, e⟩ | ⟨l, c, -, -, e⟩ | ⟨l, v, u, c, -, -, -, e⟩ | ⟨l, v, u, w, -, hr, hw, e⟩ <;>
    obtain rfl := Host.Outcome.next.inj (e.symm.trans h)
  · exact .inl rfl
  · exact .inl rfl
  · exact .inl rfl
  · obtain ⟨head, rest, hq, hu⟩ := held_portRead hr
    exact .inr ⟨head, rest, hq, by simpa [hu] using dataStored_writeLoc hw⟩

theorem held_trapReturn (s : State) : (trapReturn s).held = s.held := by
  rcases trapReturn_cases s with ⟨c, -, h⟩ | ⟨sp, a, c, -, -, -, h⟩ | ⟨sp, a, p, t, -, -, hpop, h⟩
  · simp [h]
  · simp [h]
  · rw [h]
    exact (held_pop hpop).trans (held_afterPopAcc sp a s)

/-- All that an instruction can do to memory and the queues: stores of data words, after `movi` took the head of the input
queue or after `movo` appended a character. -/
theorem dataStored_exec {i : Instr} {s t : State} (h : exec i s = .next t) :
    DataStored s.held t.held ∨
      (∃ d p e rest, i = .movi d p ∧ s.inq = e :: rest ∧ DataStored { s.held with inq := rest } t.held) ∨
      (∃ p x c, i = .movo p x ∧ DataStored { s.held with outq := s.outq ++ [c] } t.held) := by
  cases i with
  | halt =>
    cases h
    exact .inl (.refl _)
  | ei | di | nop =>
    cases h
    exact .inl (.of_eq (held_advance none _))
  | iret =>
    cases h
    exact .inl (.of_eq (held_trapReturn s))
  | jmp x | jz x | jnz x | jn x | jnn x =>
    cases h
    exact .inl (.of_eq (held_branchInstr ..))
  | add d x | sub d x | mul d x | div d x | mod d x | xor d x | and d x | or d x | cmp d x =>
    cases h
    exact .inl (dataStored_aluInstr ..)
  | mov d x => exact .inl (dataStored_execMov h)
  | movo p x =>
    exact (held_execMovo h).imp .of_eq fun ⟨c, hc⟩ => .inr ⟨p, x, c, rfl, .of_eq hc⟩
  | movi d p =>
    exact (dataStored_execMovi h).imp .of_eq fun ⟨e, rest, hq, ht⟩ => .inl ⟨d, p, e, rest, rfl, hq, ht⟩

/-- Whatever an instruction does to the queues, it stores only data words. -/
theorem exec_cell {i : Instr} {s t : State} (h : exec i s = .next t) (a : Nat) :
    t.mem.cell a = s.mem.cell a ∨ ∃ v, t.mem.cell a = some (dataword v) := by
  rcases dataStored_exec h with hs | ⟨d, p, e, rest, -, -, hs⟩ | ⟨p, x, c, -, hs⟩
  iterate 3 exact hs.mem a

/-! ## Service and the end of the cycle -/

/-- A service stores nothing, its first push, or both. -/
theorem dataStored_service (s : State) : DataStored s.held (service s).held := by
  have hpush (sp : Value) : DataStored s.held (afterPush sp s.rip { s with ric := 0#32 }).held :=
    dataStored_afterPush sp s.rip { s with ric := 0#32 }
  rcases service_cases s with
    ⟨c, -, h⟩ | ⟨sp, -, -, ⟨c, -, h⟩ | ⟨a, c, -, -, h⟩ | ⟨a, sp2, c, -, -, -, -, h⟩ | ⟨a, sp2, v, -, -, -, -, h⟩⟩ <;>
    rw [h]
  · exact .refl _
  · exact hpush sp
  · exact hpush sp
  · exact (hpush sp).trans (dataStored_afterPush ..)
  · exact (hpush sp).trans (dataStored_afterPush ..)

theorem dataStored_interruptBoundary (s : State) : DataStored s.held (interruptBoundary s).held := by
  rcases interruptBoundary_cases s with ⟨-, h⟩ | ⟨-, h⟩ <;> rw [h]
  · exact .of_eq (held_pendingLogic s)
  · simpa using dataStored_service (pendingLogic s)

theorem dataStored_finishCycle (s : State) : DataStored s.held (finishCycle s).held := by
  rcases finishCycle_cases s with ⟨-, h⟩ | ⟨-, -, h⟩ | ⟨-, -, h⟩ <;> rw [h]
  · exact .refl _
  · exact dataStored_interruptBoundary s
  · simpa using dataStored_interruptBoundary s

/-- After a step each cell holds what it held, or a data word. -/
theorem step_cell {s t : State} (h : step s = .next t) (a : Nat) :
    t.mem.cell a = s.mem.cell a ∨ ∃ v, t.mem.cell a = some (dataword v) := by
  rcases step_cases h with ⟨-, rfl⟩ | ⟨-, ⟨c, -, rfl⟩ | ⟨i, u, -, hexec, rfl⟩⟩
  · exact .inl rfl
  · exact .inl rfl
  · rcases (dataStored_finishCycle u).mem a with hkept | hdata
    · exact (exec_cell hexec a).imp hkept.trans fun ⟨v, hv⟩ => ⟨v, hkept.trans hv⟩
    · exact .inr hdata

/-! ## The obligations -/

/-- Settles O48: a step stores only data words, and a data word decodes to no instruction. -/
theorem stepsWriteOnlyDataWords : Obligations.StepsWriteOnlyDataWords := by
  intro s t h a
  refine ⟨step_cell h a, fun w i hw hi => ?_, fun v hs hc hip ha => ?_⟩
  · rcases step_cell h a with hkept | ⟨v, hv⟩
    · exact hkept.symm.trans hw
    · obtain rfl : dataword v = w := Option.some.inj (hv.symm.trans hw)
      rw [decode_dataword] at hi
      cases hi
  · refine step_of_fetch_dataword hs (memRead_of_cell (inMemory_iff.mpr ?_) ?_)
    · omega
    · rw [hip]
      exact hc

/-- Settles O50: of the instructions only `movi` and `movo` touch a queue, each its own, and the end of a cycle touches
neither. -/
theorem portsChangeOnlyByPortInstructions : Obligations.PortsChangeOnlyByPortInstructions := by
  refine ⟨fun i s t h => ?_, fun s => ⟨(dataStored_finishCycle s).inq, (dataStored_finishCycle s).outq⟩⟩
  rcases dataStored_exec h with hs | ⟨d, p, e, rest, rfl, hq, hs⟩ | ⟨p, x, c, rfl, hs⟩
  · exact ⟨fun _ => hs.inq, .inl hs.inq, fun _ => hs.outq, .inl hs.outq⟩
  · have hin : t.inq = rest := hs.inq
    exact ⟨fun hne => absurd rfl (hne d p), .inr ⟨e, hin ▸ hq⟩, fun _ => hs.outq, .inl hs.outq⟩
  · exact ⟨fun _ => hs.inq, .inl hs.inq, fun hne => absurd rfl (hne p x), .inr ⟨c, hs.outq⟩⟩

end Sys2Proof.Machine
end

section
/-! `mov` in one micro-step, carried through to its next state; with it, a store and the load of the same cell (20_memory.md
R52, R65, 44_move_port.md R220): O23. -/

namespace Sys2Proof.Machine

/-- `mov` with at most one memory operand: the value moved, one tick, the next word. -/
theorem execMov_of_oneStep {d : Dest} {x : Src} {s t : State} {v : Value}
    (hform : (destInMemory d && srcInMemory x) = false) (hv : resolveValue x s = .ok v)
    (hw : writeDest d v.toInt s = .ok t) (hrip : t.rip.toInt ≠ 2147483647) :
    exec (.mov d x) s = .next { stepEnd t with rip := BitVec.ofInt 32 (t.rip.toInt + 1) } := by
  have hmov : exec (.mov d x) s = .next (movOneStep d x s) := by simp [exec, execMov, hform]
  have hstep : movOneStep d x s = advance none (stepEnd t) := micro_ok (a := ()) (by simp [hv, hw])
  rw [hmov, hstep, advance_none (s := stepEnd t) hrip, stepEnd_rip]

theorem writeDest_direct {a : Value} {s : State} (hin : inMemory a.toInt s = true) (v : Value) :
    writeDest (.direct a) v.toInt s = .ok { s with mem := s.mem.put a.toInt.toNat (dataword v) } :=
  writePayload_ok.mpr ⟨inS32_toInt v, hin, by rw [BitVec.ofInt_toInt]⟩

theorem writeDest_reg (r : Reg) (v : Value) (s : State) : writeDest (.reg r) v.toInt s = .ok (setReg r v s) :=
  writeReg_ok.mpr ⟨inS32_toInt v, by rw [BitVec.ofInt_toInt]⟩

/-- The value of the next word's address, below the top. -/
theorem toInt_next {p : Value} (h : p.toInt < 2147483647) : (BitVec.ofInt 32 (p.toInt + 1)).toInt = p.toInt + 1 := by
  refine toInt_ofInt ?_
  have hlo := @BitVec.le_toInt 32 p
  simp only [inS32, decide_eq_true_eq]
  omega

/-- A store of `v` in cell `a`, one tick, the next word. -/
def afterStore (a v : Value) (s : State) : State :=
  { s with
    mem := s.mem.put a.toInt.toNat (dataword v)
    tick := s.tick + 1
    rip := BitVec.ofInt 32 (s.rip.toInt + 1) }

theorem execMov_store {a v : Value} {s : State} (hin : inMemory a.toInt s = true) (hrip : s.rip.toInt ≠ 2147483647) :
    exec (.mov (.direct a) (.imm v)) s = .next (afterStore a v s) :=
  execMov_of_oneStep rfl rfl (writeDest_direct hin v) hrip

theorem readPayload_afterStore {a : Value} {s : State} (hin : inMemory a.toInt s = true) (v : Value) :
    readPayload a.toInt (afterStore a v s) = .ok v := by
  have hcell : (afterStore a v s).mem.cell a.toInt.toNat = some (dataword v) := Memory.cell_put_same ..
  rw [readPayload_of_cell (s := afterStore a v s) hin hcell, payload_dataword]

/-- Settles O23: the load reads the data word that the store has put in its cell. -/
theorem storeThenLoadReturnsValue : Obligations.StoreThenLoadReturnsValue := by
  intro s a v r h0 h1 hrip hr
  have hin : inMemory a.toInt s = true := inMemory_iff.mpr ⟨h0, h1⟩
  have hnext : (afterStore a v s).rip.toInt = s.rip.toInt + 1 := toInt_next (by omega)
  have hkept : (setReg r v (afterStore a v s)).rip = (afterStore a v s).rip := by rw [setReg_rip, if_neg hr]
  have hload := execMov_of_oneStep (d := .reg r) (x := .direct a) rfl (readPayload_afterStore hin v)
    (writeDest_reg r v _) (by rw [hkept, hnext]; omega)
  refine ⟨_, _, execMov_store hin (by omega), hload, ?_, setReg_status .., ?_⟩
  · cases r with
    | rip => exact absurd rfl hr
    | rax | rbx | rdx | rsp | ric => rfl
  · rw [hkept, toInt_next (by omega), hnext]
    omega

end Sys2Proof.Machine
end

section
/-! The fields of a word (30_encoding.md R81, R83): a word is a number in mixed radix, and each of its fields a digit of
it; with them, O4. -/

namespace Sys2Proof

/-- The number of two bit strings put together. -/
theorem toNat_append_eq_add {k n : Nat} (x : BitVec k) (y : BitVec n) : (x ++ y).toNat = x.toNat * 2 ^ n + y.toNat := by
  rw [BitVec.toNat_append, ← Nat.shiftLeft_add_eq_or_of_lt y.isLt, Nat.shiftLeft_eq]

/-- The number of a word, field by field (R81). -/
theorem toNat_assemble (op : Opcode) (m1 : Tag) (v1 : Value) (m2 : Tag) (v2 : Value) :
    (assemble op m1 v1 m2 v2).toNat =
      op.toNat * 2 ^ 72 + m1.toNat * 2 ^ 68 + v1.toNat * 2 ^ 36 + m2.toNat * 2 ^ 32 + v2.toNat := by
  simp only [assemble, toNat_append_eq_add]
  omega

/-- A field of a word is a digit of its number. -/
theorem toNat_field (w : Word) (start len : Nat) :
    (w.extractLsb' start len).toNat = w.toNat / 2 ^ start % 2 ^ len := by
  rw [BitVec.extractLsb'_toNat, Nat.shiftRight_eq_div_pow]

section
variable (op : Opcode) (m1 : Tag) (v1 : Value) (m2 : Tag) (v2 : Value)

@[simp] theorem opField_assemble : opField (assemble op m1 v1 m2 v2) = op := by
  apply BitVec.eq_of_toNat_eq
  rw [opField, toNat_field, toNat_assemble]
  omega

@[simp] theorem m1Field_assemble : m1Field (assemble op m1 v1 m2 v2) = m1 := by
  apply BitVec.eq_of_toNat_eq
  rw [m1Field, toNat_field, toNat_assemble]
  omega

@[simp] theorem v1Field_assemble : v1Field (assemble op m1 v1 m2 v2) = v1 := by
  apply BitVec.eq_of_toNat_eq
  rw [v1Field, toNat_field, toNat_assemble]
  omega

@[simp] theorem m2Field_assemble : m2Field (assemble op m1 v1 m2 v2) = m2 := by
  apply BitVec.eq_of_toNat_eq
  rw [m2Field, toNat_field, toNat_assemble]
  omega

@[simp] theorem v2Field_assemble : v2Field (assemble op m1 v1 m2 v2) = v2 := by
  apply BitVec.eq_of_toNat_eq
  rw [v2Field, toNat_field, toNat_assemble]
  omega

end

theorem assemble_fields (w : Word) :
    assemble (opField w) (m1Field w) (v1Field w) (m2Field w) (v2Field w) = w := by
  apply BitVec.eq_of_toNat_eq
  rw [toNat_assemble, opField, m1Field, v1Field, m2Field, v2Field]
  simp only [toNat_field]
  omega

/-- Settles O4: the five fields are the digits of the word's number, in either direction. -/
theorem wordFieldPositions : Obligations.WordFieldPositions :=
  ⟨fun _ _ _ _ _ => ⟨opField_assemble .., m1Field_assemble .., v1Field_assemble .., m2Field_assemble ..,
    v2Field_assemble .., toNat_assemble ..⟩, assemble_fields⟩

end Sys2Proof
end

section
/-! The decoder of a tuple inverts `Instr.tuple` (30_encoding.md R91, R94, R97): it accepts exactly the well-formed tuples,
and the well-formed tuples are exactly those of the instructions. With the opcode map's two readings, which invert each
other, O3, O2 and O1 follow. -/

namespace Sys2Proof

open WellFormed

/-! ## Operands -/

/-- A register number, read as a natural number (R84). -/
theorem registerOk_iff {v : Value} : registerOk v = true ↔ v.toNat ≤ 5 := by
  rw [registerOk, decide_eq_true_eq, BitVec.toInt_eq_toNat_cond]
  have hlt := v.isLt
  split <;> omega

theorem Reg.exists_number {v : Value} (h : v.toNat ≤ 5) : ∃ r : Reg, r.number = v := by
  have hv : ∀ n, v.toNat = n → BitVec.ofNat 32 n = v := fun n hn => by simp [← hn]
  obtain h | h | h | h | h | h : v.toNat = 0 ∨ v.toNat = 1 ∨ v.toNat = 2 ∨ v.toNat = 3 ∨ v.toNat = 4 ∨ v.toNat = 5 := by
    omega
  · exact ⟨.rax, hv _ h⟩
  · exact ⟨.rbx, hv _ h⟩
  · exact ⟨.rdx, hv _ h⟩
  · exact ⟨.rip, hv _ h⟩
  · exact ⟨.rsp, hv _ h⟩
  · exact ⟨.ric, hv _ h⟩

theorem unusedOk_iff {m : Tag} {v : Value} : unusedOk m v = true ↔ m = 0#4 ∧ v = 0#32 := by
  simp [unusedOk]

theorem portOk_iff {m : Tag} : portOk m = true ↔ m = 3#4 := by
  simp [portOk]

/-- The tag and value fields R94 allows a destination are those of one. -/
theorem exists_dest {m : Tag} {v : Value} (h : destOk m v = true) : ∃ d : Dest, d.tag = m ∧ d.value = v := by
  simp only [destOk, Bool.or_eq_true, Bool.and_eq_true, beq_iff_eq, registerOk_iff] at h
  obtain (⟨rfl, hv⟩ | rfl) | rfl := h
  · obtain ⟨r, rfl⟩ := Reg.exists_number hv
    exact ⟨.reg r, rfl, rfl⟩
  · exact ⟨.direct v, rfl, rfl⟩
  · exact ⟨.indirect v, rfl, rfl⟩

/-- The tag and value fields R94 allows a value operand are those of one. -/
theorem exists_src {m : Tag} {v : Value} (h : srcOk m v = true) : ∃ x : Src, x.tag = m ∧ x.value = v := by
  rw [srcOk, Bool.or_eq_true, beq_iff_eq] at h
  obtain rfl | h := h
  · exact ⟨.imm v, rfl, rfl⟩
  · obtain ⟨d, rfl, rfl⟩ := exists_dest h
    cases d with
    | reg r => exact ⟨.reg r, rfl, rfl⟩
    | direct a => exact ⟨.direct a, rfl, rfl⟩
    | indirect a => exact ⟨.indirect a, rfl, rfl⟩

/-! ## The checks of R91 and the table of R94 -/

namespace Laws.Codec

/-- One check of R91: it passes, and so do the checks after it. -/
theorem check_passes {c : Prop} [Decidable c] {e : Malformed} {rest : Option Malformed} :
    (if c then some e else rest) = none ↔ ¬c ∧ rest = none := by
  split <;> simp only [*, reduceCtorEq, not_true_eq_false, not_false_eq_true, false_and, true_and]

/-- A tag that passes check 3 at a used operand is one that R94 allows there. -/
theorem mem_of_tag_allowed {a m : Tag} {tags : List Tag} (h : tagDisallowed (a :: tags) m = false) : m ∈ a :: tags := by
  simpa only [tagDisallowed, List.isEmpty_cons, Bool.not_false, Bool.true_and, Bool.not_eq_false',
    List.contains_iff_mem] using h

/-- A tuple that passes the checks of R91 passes them at both of its operands. -/
theorem passes_of_malformed_none {t : Tuple} (h : t.malformed = none) :
    Passes t.op.tags1 t.m1 t.v1 ∧ Passes t.op.tags2 t.m2 t.v2 := by
  simp only [Tuple.malformed, check_passes, Bool.or_eq_true, not_or, Bool.not_eq_true, and_true] at h
  obtain ⟨⟨a1, a2⟩, ⟨b1, b2⟩, ⟨c1, c2⟩, d1, d2⟩ := h
  exact ⟨⟨a1, b1, c1, d1⟩, a2, b2, c2, d2⟩

theorem unusedOk_of_passes {m : Tag} {v : Value} (h : Passes [] m v) : unusedOk m v = true := by
  simpa [Passes, unusedBad, unusedOk, tagReserved, tagDisallowed, numberBad] using h

theorem portOk_of_passes {m : Tag} {v : Value} (h : Passes [3#4] m v) : portOk m = true := by
  obtain ⟨-, htag, -, -⟩ := h
  exact portOk_iff.mpr (List.mem_singleton.mp (mem_of_tag_allowed htag))

theorem destOk_of_passes {m : Tag} {v : Value} (h : Passes [1#4, 2#4, 4#4] m v) : destOk m v = true := by
  obtain ⟨-, htag, hnum, -⟩ := h
  have htag : m = 1#4 ∨ m = 2#4 ∨ m = 4#4 := by
    simpa only [List.mem_cons, List.not_mem_nil, or_false] using mem_of_tag_allowed htag
  rcases htag with rfl | rfl | rfl
  · have hv : v.toNat ≤ 5 := by simpa [numberBad] using hnum
    simp [destOk, registerOk_iff, hv]
  · rfl
  · rfl

theorem srcOk_of_passes {m : Tag} {v : Value} (h : Passes [0#4, 1#4, 2#4, 4#4] m v) : srcOk m v = true := by
  by_cases hm : m = 0#4
  · simp [srcOk, hm]
  · have hd : Passes [1#4, 2#4, 4#4] m v := by
      simpa [Passes, tagReserved, tagDisallowed, numberBad, unusedBad, hm] using h
    simp [srcOk, destOk_of_passes hd]

/-- A tuple that passes the decoder's ordered checks is one the table of R94 allows. -/
theorem wellFormed_of_malformed_none {t : Tuple} (h : t.malformed = none) : t.wellFormed = true := by
  obtain ⟨h1, h2⟩ := passes_of_malformed_none h
  obtain ⟨o, m1, v1, m2, v2⟩ := t
  cases o with
  | halt | ei | di | iret | nop =>
    exact Bool.and_eq_true_iff.mpr ⟨unusedOk_of_passes h1, unusedOk_of_passes h2⟩
  | jmp | jz | jnz | jn | jnn =>
    exact Bool.and_eq_true_iff.mpr ⟨srcOk_of_passes h1, unusedOk_of_passes h2⟩
  | add | sub | mul | div | mod | xor | and | or | cmp | mov =>
    exact Bool.and_eq_true_iff.mpr ⟨destOk_of_passes h1, srcOk_of_passes h2⟩
  | movo => exact Bool.and_eq_true_iff.mpr ⟨portOk_of_passes h1, srcOk_of_passes h2⟩
  | movi => exact Bool.and_eq_true_iff.mpr ⟨destOk_of_passes h1, portOk_of_passes h2⟩

/-- What `Codec` says of one instruction, for every instruction. -/
theorem statement (i : Instr) : Statement i := by
  cases i with
  | halt => exact halt
  | ei => exact ei
  | di => exact di
  | iret => exact iret
  | nop => exact nop
  | jmp x => exact jmp x
  | jz x => exact jz x
  | jnz x => exact jnz x
  | jn x => exact jn x
  | jnn x => exact jnn x
  | add d x => exact add d x
  | sub d x => exact sub d x
  | mul d x => exact mul d x
  | div d x => exact div d x
  | mod d x => exact mod d x
  | xor d x => exact xor d x
  | and d x => exact and d x
  | or d x => exact or d x
  | cmp d x => exact cmp d x
  | mov d x => exact mov d x
  | movo p x => exact movo p x
  | movi d p => exact movi d p

end Laws.Codec

/-! ## The tuples of the instructions -/

theorem exists_instr_branch {o : Op} {m1 m2 : Tag} {v1 v2 : Value} (c : Src → Instr)
    (hc : ∀ x, (c x).tuple = .ofBranch o x) (h : (srcOk m1 v1 && unusedOk m2 v2) = true) :
    ∃ i : Instr, i.tuple = ⟨o, m1, v1, m2, v2⟩ := by
  obtain ⟨h1, h2⟩ := Bool.and_eq_true_iff.mp h
  obtain ⟨x, rfl, rfl⟩ := exists_src h1
  obtain ⟨rfl, rfl⟩ := unusedOk_iff.mp h2
  exact ⟨c x, hc x⟩

theorem exists_instr_binary {o : Op} {m1 m2 : Tag} {v1 v2 : Value} (c : Dest → Src → Instr)
    (hc : ∀ d x, (c d x).tuple = .ofBinary o d x) (h : (destOk m1 v1 && srcOk m2 v2) = true) :
    ∃ i : Instr, i.tuple = ⟨o, m1, v1, m2, v2⟩ := by
  obtain ⟨h1, h2⟩ := Bool.and_eq_true_iff.mp h
  obtain ⟨d, rfl, rfl⟩ := exists_dest h1
  obtain ⟨x, rfl, rfl⟩ := exists_src h2
  exact ⟨c d x, hc d x⟩

theorem exists_instr_zero {o : Op} {m1 m2 : Tag} {v1 v2 : Value} (i : Instr)
    (hi : i.tuple = .ofZero o) (h : (unusedOk m1 v1 && unusedOk m2 v2) = true) :
    ∃ i : Instr, i.tuple = ⟨o, m1, v1, m2, v2⟩ := by
  obtain ⟨h1, h2⟩ := Bool.and_eq_true_iff.mp h
  obtain ⟨rfl, rfl⟩ := unusedOk_iff.mp h1
  obtain ⟨rfl, rfl⟩ := unusedOk_iff.mp h2
  exact ⟨i, hi⟩

theorem exists_instr_movo {m1 m2 : Tag} {v1 v2 : Value} (h : (portOk m1 && srcOk m2 v2) = true) :
    ∃ i : Instr, i.tuple = ⟨.movo, m1, v1, m2, v2⟩ := by
  obtain ⟨h1, h2⟩ := Bool.and_eq_true_iff.mp h
  obtain rfl := portOk_iff.mp h1
  obtain ⟨x, rfl, rfl⟩ := exists_src h2
  exact ⟨.movo v1 x, rfl⟩

theorem exists_instr_movi {m1 m2 : Tag} {v1 v2 : Value} (h : (destOk m1 v1 && portOk m2) = true) :
    ∃ i : Instr, i.tuple = ⟨.movi, m1, v1, m2, v2⟩ := by
  obtain ⟨h1, h2⟩ := Bool.and_eq_true_iff.mp h
  obtain ⟨d, rfl, rfl⟩ := exists_dest h1
  obtain rfl := portOk_iff.mp h2
  exact ⟨.movi d v2, rfl⟩

/-- Every well-formed tuple is that of an instruction. -/
theorem exists_instr_tuple_eq {t : Tuple} (h : t.wellFormed = true) : ∃ i : Instr, i.tuple = t := by
  obtain ⟨o, m1, v1, m2, v2⟩ := t
  cases o with
  | halt => exact exists_instr_zero .halt rfl h
  | ei => exact exists_instr_zero .ei rfl h
  | di => exact exists_instr_zero .di rfl h
  | iret => exact exists_instr_zero .iret rfl h
  | nop => exact exists_instr_zero .nop rfl h
  | jmp => exact exists_instr_branch .jmp (fun _ => rfl) h
  | jz => exact exists_instr_branch .jz (fun _ => rfl) h
  | jnz => exact exists_instr_branch .jnz (fun _ => rfl) h
  | jn => exact exists_instr_branch .jn (fun _ => rfl) h
  | jnn => exact exists_instr_branch .jnn (fun _ => rfl) h
  | add => exact exists_instr_binary .add (fun _ _ => rfl) h
  | sub => exact exists_instr_binary .sub (fun _ _ => rfl) h
  | mul => exact exists_instr_binary .mul (fun _ _ => rfl) h
  | div => exact exists_instr_binary .div (fun _ _ => rfl) h
  | mod => exact exists_instr_binary .mod (fun _ _ => rfl) h
  | xor => exact exists_instr_binary .xor (fun _ _ => rfl) h
  | and => exact exists_instr_binary .and (fun _ _ => rfl) h
  | or => exact exists_instr_binary .or (fun _ _ => rfl) h
  | cmp => exact exists_instr_binary .cmp (fun _ _ => rfl) h
  | mov => exact exists_instr_binary .mov (fun _ _ => rfl) h
  | movo => exact exists_instr_movo h
  | movi => exact exists_instr_movi h

theorem wellFormed_iff_exists {t : Tuple} : t.wellFormed = true ↔ ∃ i : Instr, i.tuple = t := by
  refine ⟨exists_instr_tuple_eq, ?_⟩
  rintro ⟨i, rfl⟩
  exact (Laws.Codec.statement i).1

theorem decode_tuple (i : Instr) : i.tuple.decode = .ok i := by
  obtain ⟨-, hchecks, hbuild⟩ := Laws.Codec.statement i
  simp only [Tuple.decode, hchecks, hbuild]

theorem wellFormed_of_decode {t : Tuple} {i : Instr} (h : t.decode = .ok i) : t.wellFormed = true := by
  refine Laws.Codec.wellFormed_of_malformed_none (Option.eq_none_iff_forall_ne_some.mpr fun e he => ?_)
  simp [Tuple.decode, he] at h

/-- A tuple decodes to the instruction it is the tuple of, and to no other. -/
theorem Tuple.decode_ok_iff {t : Tuple} {i : Instr} : t.decode = .ok i ↔ i.tuple = t := by
  constructor
  · intro h
    obtain ⟨j, rfl⟩ := exists_instr_tuple_eq (wellFormed_of_decode h)
    rw [decode_tuple] at h
    cases h
    rfl
  · rintro rfl
    exact decode_tuple i

/-! ## Words -/

/-- The tuple of a word whose opcode stands for `o` (R89). -/
def wordTuple (o : Op) (w : Word) : Tuple := ⟨o, m1Field w, v1Field w, m2Field w, v2Field w⟩

/-- A word decodes to the instruction whose tuple its fields form. -/
theorem decode_ok_iff {m : OpcodeMap} {w : Word} {i : Instr} :
    decode m w = .ok i ↔ ∃ o, m.mnemonic (opField w) = some o ∧ i.tuple = wordTuple o w := by
  unfold decode
  cases m.mnemonic (opField w) with
  | none => simp
  | some o => simp [← Tuple.decode_ok_iff, wordTuple]

/-- Settles O3: the tuples the decoder accepts are those of the instructions, and these are the well-formed ones. -/
theorem decodeAcceptsExactlyWellFormed : Obligations.DecodeAcceptsExactlyWellFormed := by
  intro m w
  simp only [decode_ok_iff, wellFormed_iff_exists]
  constructor
  · rintro ⟨i, o, ho, hi⟩
    exact ⟨o, ho, i, hi⟩
  · rintro ⟨o, ho, i, hi⟩
    exact ⟨i, o, ho, hi⟩

/-! ## The opcode map -/

/-- A well-formed table lists each mnemonic, and repeats neither a mnemonic nor a number; 0x00 is not in it. -/
theorem OpcodeMap.wf_iff {m : OpcodeMap} :
    m.wf = true ↔ (m.map Prod.fst).Nodup ∧ (m.map Prod.snd).Nodup ∧ 0#8 ∉ m.map Prod.snd ∧
      ∀ o ∈ Op.all, o ∈ m.map Prod.fst :=
  decide_eq_true_iff

theorem Op.mem_all (o : Op) : o ∈ Op.all := by
  cases o <;> decide

theorem OpcodeMap.mem_of_mnemonic {m : OpcodeMap} {b : Opcode} {o : Op} (h : m.mnemonic b = some o) : (o, b) ∈ m := by
  induction m with
  | nil => simp [OpcodeMap.mnemonic] at h
  | cons row rest ih =>
    obtain ⟨o', c⟩ := row
    unfold OpcodeMap.mnemonic at h
    split at h
    · cases h
    · dsimp only at h
      split at h
      · rename_i hc
        cases h
        exact hc ▸ List.mem_cons_self
      · exact List.mem_cons_of_mem _ (ih h)

/-- In a table that repeats no mnemonic, each row gives its mnemonic's number. -/
theorem OpcodeMap.number_of_mem {m : OpcodeMap} (hm : (m.map Prod.fst).Nodup) {o : Op} {b : Opcode}
    (h : (o, b) ∈ m) : m.number o = b := by
  induction m with
  | nil => cases h
  | cons row rest ih =>
    obtain ⟨o', c⟩ := row
    obtain ⟨hhead, hrest⟩ := List.nodup_cons.mp hm
    rcases List.mem_cons.mp h with h | h
    · cases h
      exact if_pos rfl
    · have hne : o' ≠ o := fun e => hhead (List.mem_map.mpr ⟨_, h, e.symm⟩)
      exact (if_neg hne).trans (ih hrest h)

/-- In a table that repeats no number, each row but one with 0x00 gives its number's mnemonic. -/
theorem OpcodeMap.mnemonic_of_mem {m : OpcodeMap} (hm : (m.map Prod.snd).Nodup) {o : Op} {b : Opcode} (hb : b ≠ 0#8)
    (h : (o, b) ∈ m) : m.mnemonic b = some o := by
  induction m with
  | nil => cases h
  | cons row rest ih =>
    obtain ⟨o', c⟩ := row
    obtain ⟨hhead, hrest⟩ := List.nodup_cons.mp hm
    unfold OpcodeMap.mnemonic
    rw [if_neg hb]
    rcases List.mem_cons.mp h with h | h
    · cases h
      exact if_pos rfl
    · have hne : c ≠ b := fun e => hhead (List.mem_map.mpr ⟨_, h, e.symm⟩)
      exact (if_neg hne).trans (ih hrest h)

section
variable {m : OpcodeMap} (hm : m.wf = true)
include hm

theorem OpcodeMap.mnemonic_number (o : Op) : m.mnemonic (m.number o) = some o := by
  obtain ⟨hops, hnums, hzero, hall⟩ := OpcodeMap.wf_iff.mp hm
  obtain ⟨⟨o', b⟩, hmem, rfl⟩ := List.mem_map.mp (hall o o.mem_all)
  have hb : b ≠ 0#8 := fun e => hzero (e ▸ List.mem_map_of_mem hmem)
  rw [OpcodeMap.number_of_mem hops hmem]
  exact OpcodeMap.mnemonic_of_mem hnums hb hmem

theorem OpcodeMap.number_of_mnemonic {b : Opcode} {o : Op} (h : m.mnemonic b = some o) : m.number o = b :=
  OpcodeMap.number_of_mem (OpcodeMap.wf_iff.mp hm).1 (OpcodeMap.mem_of_mnemonic h)

/-! ## Encoding -/

theorem decode_encode (i : Instr) : decode m (encode m i) = .ok i := by
  refine decode_ok_iff.mpr ⟨i.tuple.op, ?_, ?_⟩
  · rw [encode, opField_assemble, OpcodeMap.mnemonic_number hm]
  · simp [encode, wordTuple]

theorem encode_of_decode {w : Word} {i : Instr} (h : decode m w = .ok i) : encode m i = w := by
  obtain ⟨o, ho, hi⟩ := decode_ok_iff.mp h
  simp only [encode, hi, wordTuple, OpcodeMap.number_of_mnemonic hm ho, assemble_fields]

end

/-- Settles O2: a word decodes by its tuple, a well-formed tuple is that of an instruction, and the opcode map's two
readings invert each other. -/
theorem decodeEncodeRoundTrip : Obligations.DecodeEncodeRoundTrip := by
  refine fun m hm => ⟨decode_encode hm, fun w i => encode_of_decode hm, fun t ht => ?_⟩
  obtain ⟨i, rfl⟩ := exists_instr_tuple_eq ht
  exact ⟨i, decode_encode hm i, rfl⟩

theorem standardOpcodeMap_wf : standardOpcodeMap.wf = true := by decide

/-- Settles O1: each row is what the encoder writes, so it decodes to its instruction. -/
theorem workedEncodings : Obligations.WorkedEncodings := by
  refine ⟨?_, by decide, by decide⟩
  have hrows {w : Word} {i : Instr} (h : encode standardOpcodeMap i = w) :
      decode standardOpcodeMap w = .ok i ∧ encode standardOpcodeMap i = w :=
    ⟨h ▸ decode_encode standardOpcodeMap_wf i, h⟩
  simp only [List.forall_mem_cons, List.not_mem_nil, false_imp_iff, implies_true, and_true]
  exact ⟨hrows rfl, hrows rfl, hrows rfl, hrows rfl, hrows rfl, hrows rfl, hrows rfl⟩

end Sys2Proof
end

section
/-! Numerals and listing lines (30_encoding.md R82, R83, R100): reading back the digits that are written, and cutting a line
at its blanks; with them, O7, O5 and O6. -/

namespace Sys2Proof.Machine

/-! ## Numerals -/

theorem numeral_append (base : Nat) (digit : Char → Option Nat) (xs ys : List Char) (acc : Nat) :
    numeral base digit (xs ++ ys) acc = (numeral base digit xs acc).bind (numeral base digit ys) := by
  induction xs generalizing acc with
  | nil => rfl
  | cons c rest ih =>
    simp only [List.cons_append, numeral]
    cases digit c with
    | none => rfl
    | some d => exact ih _

theorem numeral_singleton {base d : Nat} {digit : Char → Option Nat} {c : Char} (h : digit c = some d) (acc : Nat) :
    numeral base digit [c] acc = some (acc * base + d) := by
  simp only [numeral, h]

/-! ## The decimal address -/

theorem decDigit_of_isDigit {c : Char} (h : c.isDigit = true) : decDigit c = some (c.toNat - 48) :=
  if_pos (Char.isDigit_iff_toNat.mp h)

theorem isBlank_of_isDigit {c : Char} (h : c.isDigit = true) : isBlank c = false := by
  refine Bool.eq_false_iff.mpr fun hb => ?_
  obtain rfl | rfl : c = ' ' ∨ c = '\t' := by simpa [isBlank] using hb
  all_goals exact absurd h (by decide)

/-- The model's decimal numeral is the library's. -/
theorem numeral_decDigit {cs : List Char} (h : ∀ c ∈ cs, c.isDigit = true) (acc : Nat) :
    numeral 10 decDigit cs acc = some (Nat.ofDigitChars 10 cs acc) := by
  induction cs generalizing acc with
  | nil => rfl
  | cons c rest ih =>
    obtain ⟨hc, hrest⟩ := List.forall_mem_cons.mp h
    simp only [numeral, decDigit_of_isDigit hc, ih hrest, Nat.ofDigitChars_cons, Nat.mul_comm acc]
    rfl

theorem isDigit_of_mem_decimal {a : Nat} {c : Char} (h : c ∈ Nat.toDigits 10 a) : c.isDigit = true :=
  Nat.isDigit_of_mem_toDigits (by decide) (by decide) h

theorem parseAddress_toDigits (a : Nat) : parseAddress (Nat.toDigits 10 a) = some a := by
  rw [parseAddress, if_neg (by simp [Nat.toDigits_ne_nil]), numeral_decDigit fun _ => isDigit_of_mem_decimal,
    Nat.ofDigitChars_ten_toDigits]

/-! ## The hexadecimal word -/

theorem hexDigit_hexChar : ∀ d < 16, hexDigit (hexChar d) = some d := by decide

theorem hexDigit_toUpper_hexChar : ∀ d < 16, hexDigit (hexChar d).toUpper = some d := by decide

theorem isBlank_hexChar : ∀ d < 16, isBlank (hexChar d) = false := by decide

@[simp] theorem length_hexDigits (n v : Nat) : (hexDigits n v).length = n := by
  induction n generalizing v with
  | zero => rfl
  | succ n ih => simp [hexDigits, ih]

theorem not_blank_of_mem_hexDigits {n v : Nat} {c : Char} (h : c ∈ hexDigits n v) : isBlank c = false := by
  induction n generalizing v with
  | zero => cases h
  | succ n ih =>
    rcases List.mem_append.mp h with h | h
    · exact ih h
    · obtain rfl := List.mem_singleton.mp h
      exact isBlank_hexChar _ (Nat.mod_lt v (by decide))

/-- The low digits of a number give it back where they are enough for it, and so they do after a change of their letters
that keeps the value of each. -/
theorem numeral_map_hexDigits {f : Char → Char} (hf : ∀ d < 16, hexDigit (f (hexChar d)) = some d) {n v : Nat}
    (hv : v < 16 ^ n) : numeral 16 hexDigit ((hexDigits n v).map f) 0 = some v := by
  induction n generalizing v with
  | zero =>
    obtain rfl : v = 0 := Nat.lt_one_iff.mp hv
    rfl
  | succ n ih =>
    have hhigh := ih (v := v / 16) (Nat.div_lt_of_lt_mul (by rwa [Nat.pow_succ'] at hv))
    have hlow := hf _ (Nat.mod_lt v (by decide))
    rw [hexDigits, List.map_append, numeral_append, hhigh, Option.bind_some, List.map_singleton,
      numeral_singleton hlow, Nat.div_add_mod']

/-- The text of a word is read back, as it is or with its letters changed in case. -/
theorem parseWord_map_wordText {f : Char → Char} (hf : ∀ d < 16, hexDigit (f (hexChar d)) = some d) (w : Word) :
    parseWord ((wordText w).map f) = some w := by
  rw [parseWord, if_pos (by simp [wordText]), wordText, numeral_map_hexDigits hf w.isLt, Option.map_some,
    BitVec.ofNat_toNat, BitVec.setWidth_eq]

theorem parseWord_wordText (w : Word) : parseWord (wordText w) = some w := by
  simpa using parseWord_map_wordText (f := id) hexDigit_hexChar w

/-! ## The fields of a line -/

/-- A field ends at its first blank. -/
theorem fieldsFrom_blank {f : List Char} (hf : ∀ c ∈ f, isBlank c = false) {cur : List Char} (hne : cur ++ f ≠ [])
    (rest : List Char) : fieldsFrom (f ++ ' ' :: rest) cur = (cur ++ f) :: fieldsFrom rest [] := by
  induction f generalizing cur with
  | nil =>
    rw [List.append_nil] at hne ⊢
    have hcur : cur.isEmpty = false := by simpa using hne
    simp [fieldsFrom, isBlank, hcur]
  | cons c f ih =>
    obtain ⟨hc, hf⟩ := List.forall_mem_cons.mp hf
    have hstep : fieldsFrom (c :: f ++ ' ' :: rest) cur = fieldsFrom (f ++ ' ' :: rest) (cur ++ [c]) := by
      simp [fieldsFrom, hc]
    rw [hstep, ih hf (by simp), List.append_assoc, List.singleton_append]

theorem parseLine_of_fields {line a w : List Char} {more : List (List Char)} {n : Nat} {x : Word}
    (h : fieldsFrom line [] = a :: w :: more) (ha : parseAddress a = some n) (hw : parseWord w = some x) :
    parseLine line = some ((n : Int), x) := by
  simp [parseLine, h, ha, hw]

/-- A line whose first two fields are an address and a word's text, whatever comment follows. -/
theorem parseLine_comment (a : Nat) (w : Word) (comment : List Char) :
    parseLine (Nat.toDigits 10 a ++ ' ' :: wordText w ++ ' ' :: comment) = some ((a : Int), w) := by
  have haddr : ∀ c ∈ Nat.toDigits 10 a, isBlank c = false := fun _ hc => isBlank_of_isDigit (isDigit_of_mem_decimal hc)
  have hword : ∀ c ∈ wordText w, isBlank c = false := fun _ => not_blank_of_mem_hexDigits
  have hne : wordText w ≠ [] := List.ne_nil_of_length_pos (by simp [wordText])
  have hfields : fieldsFrom (Nat.toDigits 10 a ++ ' ' :: wordText w ++ ' ' :: comment) [] =
      Nat.toDigits 10 a :: wordText w :: fieldsFrom comment [] := by
    rw [List.append_assoc, List.cons_append, fieldsFrom_blank haddr (by simp [Nat.toDigits_ne_nil]),
      fieldsFrom_blank hword (by simpa using hne), List.nil_append, List.nil_append]
  exact parseLine_of_fields hfields (parseAddress_toDigits a) (parseWord_wordText w)

/-- Settles O7: the two fields are read back, and the model's own text is a comment like any other. -/
theorem listingLineRoundTrip : Obligations.ListingLineRoundTrip :=
  ⟨fun m a w => parseLine_comment a w (contentText m w), parseLine_comment,
    parseWord_map_wordText hexDigit_toUpper_hexChar⟩

/-! ## Data words -/

/-- The digits of two numbers side by side. -/
theorem hexDigits_add (n k a : Nat) {b : Nat} (hb : b < 16 ^ k) :
    hexDigits (n + k) (a * 16 ^ k + b) = hexDigits n a ++ hexDigits k b := by
  induction k generalizing b with
  | zero =>
    obtain rfl : b = 0 := Nat.lt_one_iff.mp hb
    simp [hexDigits]
  | succ k ih =>
    have hpow : a * 16 ^ (k + 1) = 16 * (a * 16 ^ k) := by rw [Nat.pow_succ', Nat.mul_left_comm]
    have hhigh : (a * 16 ^ (k + 1) + b) / 16 = a * 16 ^ k + b / 16 := by omega
    have hlow : (a * 16 ^ (k + 1) + b) % 16 = b % 16 := by omega
    rw [← Nat.add_assoc, hexDigits, hhigh, hlow, ih (by rw [Nat.pow_succ'] at hb; omega), hexDigits,
      List.append_assoc]

theorem toNat_dataword (v : Value) : (dataword v).toNat = v.toNat * 16 ^ 9 := by
  rw [dataword, toNat_assemble]
  simp

theorem wordText_dataword (v : Value) :
    wordText (dataword v) =
      ['0', '0', '0'] ++ hexDigits 8 v.toNat ++ ['0', '0', '0', '0', '0', '0', '0', '0', '0'] := by
  have hvalue : hexDigits (3 + 8) (0 * 16 ^ 8 + v.toNat) = hexDigits 3 0 ++ hexDigits 8 v.toNat :=
    hexDigits_add 3 8 0 v.isLt
  have hword : hexDigits (3 + 8 + 9) ((0 * 16 ^ 8 + v.toNat) * 16 ^ 9 + 0) =
      hexDigits 3 0 ++ hexDigits 8 v.toNat ++ hexDigits 9 0 := by
    rw [hexDigits_add _ _ _ (by decide), hvalue]
  rw [wordText, toNat_dataword]
  simpa [hexDigits, hexChar] using hword

/-- Settles O5: the fields are those the word is assembled from, and each of them is a run of digits of its text. -/
theorem dataWordLayout : Obligations.DataWordLayout :=
  ⟨fun v => ⟨opField_assemble .., m1Field_assemble .., m2Field_assemble .., v1Field_assemble .., v2Field_assemble ..,
    wordText_dataword v⟩, parseWord_wordText _, parseWord_wordText _⟩

/-- Settles O6: check 1 of R91 refuses 0x00 before the map is looked at, so a fetch of a data word raises. -/
theorem dataWordsNeverExecute : Obligations.DataWordsNeverExecute :=
  ⟨opField_dataword, fun m _ => decode_of_opField_zero m, fun _ _ => step_of_fetch_dataword⟩

end Sys2Proof.Machine
end

section
/-! The course of an instruction (40_control_cycle.md R113, R114, R118): each operation, each instruction and a service
either completes, after a known number of ticks, or raises a condition whose info is one that raises it, after no more of
them; neither touches the parameters or the count, and memory stays canonical. With them, O53. -/

namespace Sys2Proof.Machine

open Sys2Proof.Claims

/-! ## What an operation keeps -/

/-- What the invariant asks of memory. -/
def MemOk (p : Params) (m : Memory) : Prop := m.wf = true ∧ ∀ x ∈ m, x.1 < p.memSize

theorem memOk_put {s : State} {a : Int} (hin : inMemory a s = true) (w : Word) (h : MemOk s.params s.mem) :
    MemOk s.params (s.mem.put a.toNat w) := by
  obtain ⟨hwf, hlt⟩ := h
  refine ⟨Memory.wf_put _ _ _ hwf, fun x hx => ?_⟩
  rcases Memory.mem_put hx with rfl | hx
  · obtain ⟨h0, h1⟩ := inMemory_iff.mp hin
    dsimp only
    omega
  · exact hlt x hx

/-- `t` is `s` after micro-steps that all completed, in `n` ticks. -/
structure Completes (n : Nat) (s t : State) : Prop where
  params : t.params = s.params
  icount : t.icount = s.icount
  status : t.status = s.status
  tick : t.tick = s.tick + n
  mem : MemOk s.params s.mem → MemOk s.params t.mem

theorem Completes.refl (s : State) : Completes 0 s s := ⟨rfl, rfl, rfl, rfl, id⟩

theorem Completes.trans {m n : Nat} {s t u : State} (h : Completes m s t) (k : Completes n t u) :
    Completes (m + n) s u where
  params := k.params.trans h.params
  icount := k.icount.trans h.icount
  status := k.status.trans h.status
  tick := by rw [k.tick, h.tick, Nat.add_assoc]
  mem hm := h.params ▸ k.mem (h.params.symm ▸ h.mem hm)

/-- A condition that the invariant lets a status record; the advance needs the bound on `MEM_SIZE` for that. -/
def Recordable (p : Params) (c : Cond) : Prop := p.memSize ≤ Config.maxMemSize → c.infoOk p = true

/-- `t` is `s` after a raise, with at most `n` ticks of completed micro-steps before it. -/
def Raises (n : Nat) (s t : State) : Prop :=
  ∃ k u c, k ≤ n ∧ Completes k s u ∧ Recordable u.params c ∧ t = raise c u

/-- `t` is `s` after micro-steps that take `n` ticks, or after a raise in them. -/
def Runs (n : Nat) (s t : State) : Prop := Completes n s t ∨ Raises n s t

/-- What runs after micro-steps that completed. -/
theorem Completes.runs {m n : Nat} {s t u : State} (h : Completes m s t) (k : Runs n t u) : Runs (m + n) s u := by
  rcases k with k | ⟨j, v, c, hj, hv, hc, rfl⟩
  · exact .inl (h.trans k)
  · exact .inr ⟨m + j, v, c, Nat.add_le_add_left hj m, h.trans hv, hc, rfl⟩

theorem Completes.raise {k n : Nat} {s u : State} {c : Cond} (h : Completes k s u) (hk : k ≤ n)
    (hc : Recordable u.params c) : Runs n s (raise c u) :=
  .inr ⟨k, u, c, hk, h, hc, rfl⟩

theorem Completes.advance {n : Nat} {s u : State} (h : Completes n s u) (x : Option Value) :
    Runs n s (advance x u) := by
  rcases advance_cases x u with ⟨v, e⟩ | ⟨-, -, e⟩ <;> rw [e]
  · exact .inl ⟨h.params, h.icount, h.status, h.tick, h.mem⟩
  · refine h.raise (Nat.le_refl n) fun hsize => decide_eq_true (.inr ?_)
    simp only [Config.maxMemSize] at hsize
    omega

/-! ## The shared operations that complete -/

theorem completes_stepEnd (s : State) : Completes 1 s (stepEnd s) := ⟨rfl, rfl, rfl, rfl, id⟩

theorem completes_setReg (r : Reg) (v : Value) (s : State) : Completes 0 s (setReg r v s) := by
  cases r <;> exact ⟨rfl, rfl, rfl, rfl, id⟩

theorem completes_ric (v : Value) (s : State) : Completes 0 s { s with ric := v } := ⟨rfl, rfl, rfl, rfl, id⟩

theorem completes_put {s : State} {a : Int} (hin : inMemory a s = true) (w : Word) :
    Completes 0 s { s with mem := s.mem.put a.toNat w } := ⟨rfl, rfl, rfl, rfl, memOk_put hin w⟩

theorem completes_afterAlu (o : AluOut) (s : State) : Completes 1 s (afterAlu o s) := ⟨rfl, rfl, rfl, rfl, id⟩

theorem completes_afterPopAcc (sp a : Value) (s : State) : Completes 1 s (afterPopAcc sp a s) :=
  ⟨rfl, rfl, rfl, rfl, id⟩

theorem completes_afterPush {sp : Value} {s : State} (hin : inMemory sp.toInt s = true) (v : Value) :
    Completes 1 s (afterPush sp v s) := ⟨rfl, rfl, rfl, rfl, memOk_put hin _⟩

/-- A push at an address that was in memory when the micro-steps began. -/
theorem Completes.push {n : Nat} {sp : Value} {s u : State} (h : Completes n s u) (hin : inMemory sp.toInt s = true)
    (v : Value) : Completes (n + 1) s (afterPush sp v u) := by
  refine h.trans (completes_afterPush ?_ v)
  rw [inMemory, h.params]
  exact hin

theorem completes_writeLoc {l : Loc} {v : Int} {s t : State} (h : writeLoc l v s = .ok t) : Completes 0 s t := by
  obtain ⟨-, ⟨r, -, rfl⟩ | ⟨a, -, hin, rfl⟩⟩ := writeLoc_ok h
  · exact completes_setReg ..
  · exact completes_put hin _

theorem completes_writeDest {d : Dest} {v : Int} {s t : State} (h : writeDest d v s = .ok t) : Completes 0 s t := by
  obtain ⟨l, -, hl⟩ := writeDest_ok.mp h
  exact completes_writeLoc hl

theorem completes_pop {v : Value} {s t : State} (h : pop s = .ok (v, t)) : Completes 0 s t := by
  obtain ⟨sp, -, -, rfl⟩ := pop_ok h
  exact completes_setReg ..

theorem completes_portWrite {p v : Int} {s t : State} (h : portWrite p v s = .ok t) : Completes 0 s t := by
  obtain ⟨-, -, -, rfl⟩ := portWrite_ok h
  exact ⟨rfl, rfl, rfl, rfl, id⟩

theorem completes_portRead {p : Int} {v : Value} {s t : State} (h : portRead p s = .ok (v, t)) :
    Completes 0 s t := by
  obtain ⟨-, e, rest, -, -, rfl⟩ := portRead_ok h
  exact ⟨rfl, rfl, rfl, rfl, id⟩

theorem completes_pendingLogic (s : State) : Completes 0 s (pendingLogic s) := by
  rcases pendingLogic_cases s with h | h <;> rw [h]
  · exact .refl s
  · exact completes_ric _ s

/-! ## The conditions they raise -/

theorem recordable_addressOutOfRange {a : Int} {s : State} (h : inMemory a s = false) :
    Recordable s.params (.addressOutOfRange a) := fun _ => decide_eq_true (inMemory_eq_false_iff.mp h)

theorem recordable_uninitialisedRead {p : Params} (h : p.policy = .fault) (x : Item) :
    Recordable p (.uninitialisedRead x) := fun _ => by simp [Cond.infoOk, h]

theorem recordable_valueOutOfRange {v : Int} (h : inS32 v = false) (p : Params) :
    Recordable p (.valueOutOfRange v) := fun _ => by simp [Cond.infoOk, h]

theorem recordable_memRead {a : Int} {s : State} {c : Cond} (h : memRead a s = .error c) : Recordable s.params c := by
  rcases memRead_error h with ⟨hout, rfl⟩ | ⟨-, hp, rfl⟩
  · exact recordable_addressOutOfRange hout
  · exact recordable_uninitialisedRead hp _

theorem recordable_readSlot {α : Type} {x : Slot α} {z : α} {i : Item} {s : State} {c : Cond}
    (h : readSlot x z i s = .error c) : Recordable s.params c := by
  obtain ⟨-, hp, rfl⟩ := readSlot_error.mp h
  exact recordable_uninitialisedRead hp _

theorem recordable_readReg {r : Reg} {s : State} {c : Cond} (h : readReg r s = .error c) : Recordable s.params c :=
  recordable_readSlot h

theorem recordable_flagIs {f : Flag} {v : Bool} {s : State} {c : Cond} (h : flagIs f v s = .error c) :
    Recordable s.params c := by
  have hread : readFlag f s = .error c := bind_pure_error.mp h
  cases f <;> exact recordable_readSlot hread

theorem recordable_resolveValue {x : Src} {s : State} {c : Cond} (h : resolveValue x s = .error c) :
    Recordable s.params c := by
  rcases resolveValue_error h with ⟨r, hr⟩ | ⟨a, ha⟩
  · exact recordable_readReg hr
  · exact recordable_memRead ha

theorem recordable_resolveDest {d : Dest} {s : State} {c : Cond} (h : resolveDest d s = .error c) :
    Recordable s.params c := by
  obtain ⟨a, ha⟩ := resolveDest_error h
  exact recordable_memRead ha

theorem recordable_writeLoc {l : Loc} {v : Int} {s : State} {c : Cond} (h : writeLoc l v s = .error c) :
    Recordable s.params c := by
  rcases writeLoc_error h with ⟨hv, rfl⟩ | ⟨a, -, -, hout, rfl⟩
  · exact recordable_valueOutOfRange hv _
  · exact recordable_addressOutOfRange hout

theorem recordable_writeDest {d : Dest} {v : Int} {s : State} {c : Cond} (h : writeDest d v s = .error c) :
    Recordable s.params c := by
  rcases bind_error.mp h with h | ⟨l, -, h⟩
  · exact recordable_resolveDest h
  · exact recordable_writeLoc h

/-- Of the ALU's operations only `div` and `mod` raise, by zero, and record the dividend (43_alu.md R184). -/
theorem alu_error {op : AluOp} {a b : Value} {c : Cond} (h : alu op a b = .error c) :
    c = .divisionByZero a.toInt := by
  have hraw : aluRaw op a b = .error c := by
    unfold alu at h
    split at h
    · cases h
    · cases h
      assumption
  cases op with
  | div | mod =>
    simp only [aluRaw] at hraw
    split at hraw <;> cases hraw
    rfl
  | add | sub | mul | xor | and | or | cmp => cases hraw

theorem recordable_alu {op : AluOp} {a b : Value} {c : Cond} (h : alu op a b = .error c) (p : Params) :
    Recordable p c := by
  obtain rfl := alu_error h
  exact fun _ => inS32_toInt a

theorem recordable_portWrite {p : Value} {v : Int} {s : State} {c : Cond} (h : portWrite p.toInt v s = .error c) :
    Recordable s.params c := by
  rcases portWrite_error h with ⟨-, rfl⟩ | ⟨-, hv, rfl⟩
  · exact fun _ => inS32_toInt p
  · exact fun _ => decide_eq_true hv

theorem recordable_portRead {p : Value} {s : State} {c : Cond} (h : portRead p.toInt s = .error c) :
    Recordable s.params c := by
  rcases portRead_error h with ⟨-, rfl⟩ | ⟨-, -, rfl⟩
  · exact fun _ => inS32_toInt p
  · exact fun _ => rfl

theorem recordable_push {v : Value} {s : State} {c : Cond} (h : push v s = .error c) : Recordable s.params c := by
  rcases push_error h with hr | ⟨sp, -, hout, rfl⟩
  · exact recordable_readReg hr
  · exact recordable_addressOutOfRange hout

theorem recordable_pop {s : State} {c : Cond} (h : pop s = .error c) : Recordable s.params c := by
  rcases pop_error h with hr | ⟨sp, -, hm⟩
  · exact recordable_readReg hr
  · exact recordable_memRead hm

theorem recordable_fetchDecode {s : State} {c : Cond} (h : fetchDecode s = .error c) : Recordable s.params c := by
  unfold fetchDecode at h
  split at h
  · cases h
    exact recordable_memRead ‹_›
  · split at h <;> cases h
    rename_i hd
    exact fun _ => by simp [Cond.infoOk, hd]

/-! ## The instructions -/

theorem runs_branchInstr {cond : State → Except Cond Bool} {s : State}
    (hcond : ∀ c, cond s = .error c → Recordable s.params c) (x : Src) : Runs 1 s (branchInstr cond x s) := by
  rcases branchInstr_cases cond x s with ⟨c, hx, h⟩ | ⟨t, c, -, hc, h⟩ | ⟨t, b, -, -, h⟩ <;> rw [h]
  · exact (Completes.refl s).raise (by decide) (recordable_resolveValue hx)
  · exact (Completes.refl s).raise (by decide) (hcond c hc)
  · exact (completes_stepEnd s).advance _

/-- The ticks of an ALU instruction (43_alu.md R185). -/
def aluTicks (op : AluOp) (d : Dest) : Nat :=
  match d with
  | .reg _ =>
    match op with
    | .cmp => 1
    | .add | .sub | .mul | .div | .mod | .xor | .and | .or => 2
  | .direct _ | .indirect _ => 3

theorem aluTicks_reg {op : AluOp} (h : op ≠ .cmp) (r : Reg) : aluTicks op (.reg r) = 2 := by
  cases op with
  | cmp => exact absurd rfl h
  | add | sub | mul | div | mod | xor | and | or => rfl

theorem runs_aluRegister (op : AluOp) (r : Reg) (src : Src) (s : State) :
    Runs (aluTicks op (.reg r)) s (aluRegister op r src s) := by
  rcases aluRegister_cases op r src s with
    ⟨c, hr, h⟩ | ⟨a, c, -, hv, h⟩ | ⟨a, b, c, -, -, ha, h⟩ | ⟨a, b, o, -, -, -, ⟨hop, h⟩ | ⟨hop, hv, h⟩ | ⟨hop, -, h⟩⟩ <;>
    rw [h]
  · exact (Completes.refl s).raise (Nat.zero_le _) (recordable_readReg hr)
  · exact (Completes.refl s).raise (Nat.zero_le _) (recordable_resolveValue hv)
  · exact (Completes.refl s).raise (Nat.zero_le _) (recordable_alu ha _)
  · subst hop
    exact (completes_afterAlu o s).advance none
  · rw [aluTicks_reg hop]
    exact (completes_afterAlu o s).raise (by decide) (recordable_valueOutOfRange hv _)
  · rw [aluTicks_reg hop]
    exact (((completes_afterAlu o s).trans (completes_setReg ..)).trans (completes_stepEnd _)).advance none

theorem runs_aluMemory (op : AluOp) (d : Dest) (src : Src) (s : State) : Runs 3 s (aluMemory op d src s) := by
  have hread := completes_stepEnd s
  have halu (o : AluOut) : Completes 2 s (afterAlu o (stepEnd s)) := hread.trans (completes_afterAlu ..)
  rcases aluMemory_cases op d src s with
    ⟨c, hl, h⟩ | ⟨a, c, -, hv, h⟩ | ⟨a, b, c, -, -, ha, h⟩ | ⟨a, b, o, -, -, -, ⟨-, h⟩ | ⟨c, -, hw, h⟩ | ⟨t, -, hw, h⟩⟩ <;>
    rw [h]
  · exact (Completes.refl s).raise (by decide) (recordable_resolveValue hl)
  · exact hread.raise (by decide) (recordable_resolveValue hv)
  · exact hread.raise (by decide) (recordable_alu ha _)
  · exact ((halu o).trans (completes_stepEnd _)).advance none
  · exact (halu o).raise (by decide) (recordable_writeDest hw)
  · exact (((halu o).trans (completes_writeDest hw)).trans (completes_stepEnd _)).advance none

theorem runs_aluInstr {op : AluOp} {d : Dest} {n : Nat} (hn : n = aluTicks op d) (src : Src) (s : State) :
    Runs n s (aluInstr op d src s) := by
  subst hn
  cases d with
  | reg r => exact runs_aluRegister op r src s
  | direct a => exact runs_aluMemory op (.direct a) src s
  | indirect a => exact runs_aluMemory op (.indirect a) src s

theorem runs_movOneStep (d : Dest) (src : Src) (s : State) : Runs 1 s (movOneStep d src s) := by
  rcases movOneStep_cases d src s with ⟨c, hv, h⟩ | ⟨v, c, -, hw, h⟩ | ⟨v, t, -, hw, h⟩ <;> rw [h]
  · exact (Completes.refl s).raise (by decide) (recordable_resolveValue hv)
  · exact (Completes.refl s).raise (by decide) (recordable_writeDest hw)
  · exact ((completes_writeDest hw).trans (completes_stepEnd t)).advance none

theorem runs_movTwoSteps (d : Dest) (src : Src) (s : State) : Runs 2 s (movTwoSteps d src s) := by
  have hread := completes_stepEnd s
  rcases movTwoSteps_cases d src s with ⟨c, hv, h⟩ | ⟨v, c, -, hw, h⟩ | ⟨v, t, -, hw, h⟩ <;> rw [h]
  · exact (Completes.refl s).raise (by decide) (recordable_resolveValue hv)
  · exact hread.raise (by decide) (recordable_writeDest hw)
  · exact ((hread.trans (completes_writeDest hw)).trans (completes_stepEnd t)).advance none

theorem tickCost_mov (d : Dest) (x : Src) :
    tickCost (.mov d x) = if destInMemory d && srcInMemory x then 2 else 1 := by
  cases d <;> cases x <;> rfl

theorem runs_execMov {d : Dest} {src : Src} {s t : State} (h : execMov d src s = .next t) :
    Runs (tickCost (.mov d src)) s t := by
  cases h
  rw [tickCost_mov]
  split
  · exact runs_movTwoSteps ..
  · exact runs_movOneStep ..

theorem runs_execMovo {p : Value} {src : Src} {s t : State} (h : execMovo p src s = .next t) : Runs 1 s t := by
  rcases execMovo_cases p src s with ⟨c, hv, e⟩ | ⟨v, c, -, hw, e⟩ | ⟨v, u, -, hw, e⟩ <;>
    obtain rfl := Host.Outcome.next.inj (e.symm.trans h)
  · exact (Completes.refl s).raise (by decide) (recordable_resolveValue hv)
  · exact (Completes.refl s).raise (by decide) (recordable_portWrite hw)
  · exact ((completes_portWrite hw).trans (completes_stepEnd u)).advance none

theorem runs_execMovi {d : Dest} {p : Value} {s t : State} (h : execMovi d p s = .next t) : Runs 1 s t := by
  rcases execMovi_cases d p s with
    ⟨c, hd, e⟩ | ⟨l, c, -, hr, e⟩ | ⟨l, v, u, c, -, hr, hw, e⟩ | ⟨l, v, u, w, -, hr, hw, e⟩ <;>
    obtain rfl := Host.Outcome.next.inj (e.symm.trans h)
  · exact (Completes.refl s).raise (by decide) (recordable_resolveDest hd)
  · exact (Completes.refl s).raise (by decide) (recordable_portRead hr)
  · exact (Completes.refl s).raise (by decide) ((completes_portRead hr).params ▸ recordable_writeLoc hw)
  · exact (((completes_portRead hr).trans (completes_writeLoc hw)).trans (completes_stepEnd w)).advance none

theorem runs_trapReturn (s : State) : Runs 3 s (trapReturn s) := by
  rcases trapReturn_cases s with ⟨c, hpop, h⟩ | ⟨sp, a, c, -, -, hpop, h⟩ | ⟨sp, a, p, t, -, -, hpop, h⟩ <;> rw [h]
  · exact (Completes.refl s).raise (by decide) (recordable_pop hpop)
  · exact (completes_afterPopAcc sp a s).raise (by decide) (recordable_pop hpop)
  · have hleave : Completes 2 t { stepEnd { stepEnd t with ric := enable t.ric, trap := false } with rip := p } :=
      ⟨rfl, rfl, rfl, rfl, id⟩
    exact .inl (((completes_afterPopAcc sp a s).trans (completes_pop hpop)).trans hleave)

/-- All that an instruction can do to the count, the status and the ticks: `halt` ends the run, and every other one takes
the ticks of its form or raises. -/
theorem runs_exec {i : Instr} {s t : State} (h : exec i s = .next t) :
    (i = .halt ∧ t = haltRun s) ∨ Runs (tickCost i) s t := by
  cases i with
  | halt =>
    cases h
    exact .inl ⟨rfl, rfl⟩
  | ei | di =>
    cases h
    exact .inr (((completes_ric _ s).trans (completes_stepEnd _)).advance none)
  | nop =>
    cases h
    exact .inr ((completes_stepEnd s).advance none)
  | iret =>
    cases h
    exact .inr (runs_trapReturn s)
  | jmp x =>
    cases h
    exact .inr (runs_branchInstr (fun _ hc => by cases hc) x)
  | jz x | jnz x | jn x | jnn x =>
    cases h
    exact .inr (runs_branchInstr (fun _ => recordable_flagIs) x)
  | add d x | sub d x | mul d x | div d x | mod d x | xor d x | and d x | or d x | cmp d x =>
    cases h
    exact .inr (runs_aluInstr (by cases d <;> rfl) x s)
  | mov d x => exact .inr (runs_execMov h)
  | movo p x => exact .inr (runs_execMovo h)
  | movi d p => exact .inr (runs_execMovi h)

/-! ## Service and the boundary -/

theorem runs_service (s : State) : Runs 3 s (service s) := by
  have hclear : Completes 0 s { s with ric := 0#32 } := completes_ric _ s
  rcases service_cases s with
    ⟨c, hpush, h⟩ | ⟨sp, -, hin, ⟨c, hr, h⟩ | ⟨a, c, -, hpush, h⟩ | ⟨a, sp2, c, -, -, hin2, hv, h⟩ |
      ⟨a, sp2, v, -, -, hin2, -, h⟩⟩ <;> rw [h]
  · exact (Completes.refl s).raise (by decide) (recordable_push (s := { s with ric := 0#32 }) hpush)
  all_goals
    have hone := hclear.push hin s.rip
  · exact hone.raise (by decide) (by rw [hone.params]; exact recordable_readReg hr)
  · exact hone.raise (by decide) (recordable_push hpush)
  all_goals
    have htwo := hone.push hin2 a
  · exact htwo.raise (by decide) (recordable_memRead (readPayload_error.mp hv))
  · exact .inl (htwo.trans (n := 1) ⟨rfl, rfl, rfl, rfl, id⟩)

theorem runs_interruptBoundary (s : State) : ∃ n ≤ 3, Runs n s (interruptBoundary s) := by
  have hpend := completes_pendingLogic s
  rcases interruptBoundary_cases s with ⟨-, h⟩ | ⟨-, h⟩ <;> rw [h]
  · exact ⟨0, by decide, .inl hpend⟩
  · exact ⟨0 + 3, by decide, hpend.runs (runs_service _)⟩

/-- Settles O53: an instruction other than `halt` runs for the ticks of its form, and a service for three. -/
theorem tickCosts : Obligations.TickCosts := by
  refine ⟨fun i s t hs h => ?_, fun s hs hlive => ?_⟩
  · rcases runs_exec h with ⟨rfl, rfl⟩ | hc | ⟨k, u, c, hk, hu, -, rfl⟩
    · exact ⟨fun _ => rfl, fun c ip hr => nomatch hr⟩
    · exact ⟨fun _ => hc.tick, fun c ip hr => nomatch (hc.status.trans hs).symm.trans hr⟩
    · have htick : (raise c u).tick = s.tick + k := hu.tick
      refine ⟨fun hend => ?_, fun _ _ _ => by omega⟩
      rcases hend with hend | hend <;> cases hend
  · rcases runs_service s with hc | ⟨k, u, c, -, -, -, he⟩
    · exact hc.tick
    · rw [he] at hlive
      cases hlive

end Sys2Proof.Machine
end

section
/-! The cycle (40_control_cycle.md R110, R111, R118 to R121, R124): how a step is made of its fetch, its instruction and its
end, and what it can do to the count, the status, the ticks and memory. O12, O13, O16, O17 and O18. -/

namespace Sys2Proof.Machine

open Sys2Proof.Claims

/-! ## The parts of a step -/

theorem fetchDecode_of_decode {s : State} {w : Word} {i : Instr} (hr : memRead s.rip.toInt s = .ok w)
    (hd : decode s.params.opcodeMap w = .ok i) : fetchDecode s = .ok i := by
  simp [fetchDecode, hr, hd]

theorem step_of_exec {s t : State} {i : Instr} (hs : s.status = .running) (hf : fetchDecode s = .ok i)
    (he : exec i (stepEnd s) = .next t) : step s = .next (finishCycle t) := by
  simp [step, hs, hf, he]

/-- Every state has a next state: a live one from its fetch or its instruction, an ended one itself. -/
theorem step_answers (s : State) : ∃ t, step s = .next t := by
  by_cases hs : s.status = .running
  · cases hf : fetchDecode s with
    | error c => exact ⟨_, step_of_fetch_error hs hf⟩
    | ok i =>
      obtain ⟨t, ht⟩ := exec_answers i (stepEnd s)
      exact ⟨_, step_of_exec hs hf ht⟩
  · exact ⟨s, step_of_ended hs⟩

/-- Settles O16: `step` runs what the fetch decodes, and raises what the fetch raises. -/
theorem stepRunsDecodedInstruction : Obligations.StepRunsDecodedInstruction := fun _ hs =>
  ⟨fun _ _ _ hw hd he => step_of_exec hs (fetchDecode_of_decode hw hd) he,
    fun _ _ hw hd => step_of_fetch_error hs (fetchDecode_of_malformed hw hd),
    fun _ hc => step_of_fetch_error hs (fetchDecode_of_memRead_error hc)⟩

theorem finishCycle_of_ended {s : State} (hs : s.status ≠ .running) : finishCycle s = s :=
  whileRunning_ended hs

theorem finishCycle_of_boundary_ended {s : State} (hs : s.status = .running)
    (hb : (interruptBoundary s).status ≠ .running) : finishCycle s = interruptBoundary s :=
  (whileRunning_running hs).trans (whileRunning_ended hb)

theorem finishCycle_of_boundary_running {s : State} (hs : s.status = .running)
    (hb : (interruptBoundary s).status = .running) : finishCycle s = countInstruction (interruptBoundary s) :=
  (whileRunning_running hs).trans (whileRunning_running hb)

/-- What a live state comes to after micro-steps is live only if all of them completed. -/
theorem Runs.completes {n : Nat} {s t : State} (h : Runs n s t) (ht : t.status = .running) : Completes n s t := by
  rcases h with h | ⟨k, u, c, -, -, -, rfl⟩
  · exact h
  · cases ht

theorem Runs.raises {n : Nat} {s t : State} (h : Runs n s t) (hs : s.status = .running) (ht : t.status ≠ .running) :
    Raises n s t :=
  h.resolve_left fun hc => ht (hc.status.trans hs)

/-- The count on a live state, as one update. -/
theorem countInstruction_of_running {s : State} (hs : s.status = .running) :
    countInstruction s =
      { s with
        icount := s.icount + 1
        status := if s.icount + 1 = s.params.limit then .limitExceeded (s.icount + 1) else .running } := by
  rcases countInstruction_cases s with ⟨hlim, h⟩ | ⟨hlim, h⟩
  · rw [h, if_pos hlim]
  · rw [h, if_neg hlim, ← hs]

/-- Settles O18: the boundary does not count, so the count is one more than before it. -/
theorem boundaryBeforeCount : Obligations.BoundaryBeforeCount := by
  refine fun s => ⟨finishCycle_of_ended, finishCycle_of_boundary_ended, fun hs hb => ?_⟩
  obtain ⟨n, -, hrun⟩ := runs_interruptBoundary s
  have hc := hrun.completes hb
  rw [← hc.icount, ← hc.params]
  exact (finishCycle_of_boundary_running hs hb).trans (countInstruction_of_running hb)

/-! ## What a step can do -/

/-- How a cycle that began in `s` can end, after at most seven ticks of completed micro-steps that led to a state `u`: the
fetch, three of the instruction and three of a service. -/
inductive CycleEnd (s : State) : State → Prop
  | raised {k : Nat} {u : State} {c : Cond} : k ≤ 7 → Completes k s u → Recordable u.params c → CycleEnd s (raise c u)
  | halted {k : Nat} {u : State} : k ≤ 7 → Completes k s u → CycleEnd s (haltRun u)
  | atLimit {k : Nat} {u : State} : k ≤ 7 → Completes k s u → u.icount + 1 = u.params.limit →
      CycleEnd s { u with icount := u.icount + 1, status := .limitExceeded (u.icount + 1) }
  | counted {k : Nat} {u : State} : k ≤ 7 → Completes k s u → u.icount + 1 ≠ u.params.limit →
      CycleEnd s { u with icount := u.icount + 1 }

theorem cycleEnd_of_raises {n : Nat} {s t : State} (h : Raises n s t) (hn : n ≤ 7) : CycleEnd s t := by
  obtain ⟨k, u, c, hk, hu, hc, rfl⟩ := h
  exact .raised (Nat.le_trans hk hn) hu hc

theorem cycleEnd_countInstruction {k : Nat} {s u : State} (hk : k ≤ 7) (hu : Completes k s u) :
    CycleEnd s (countInstruction u) := by
  rcases countInstruction_cases u with ⟨hlim, h⟩ | ⟨hlim, h⟩ <;> rw [h]
  · exact .atLimit hk hu hlim
  · exact .counted hk hu hlim

theorem cycleEnd_finishCycle {n : Nat} {s u : State} (hs : s.status = .running) (hn : n ≤ 4) (h : Runs n s u) :
    CycleEnd s (finishCycle u) := by
  by_cases hu : u.status = .running
  · obtain ⟨m, hm, hrun⟩ := runs_interruptBoundary u
    have hall : Runs (n + m) s (interruptBoundary u) := (h.completes hu).runs hrun
    by_cases hb : (interruptBoundary u).status = .running
    · rw [finishCycle_of_boundary_running hu hb]
      exact cycleEnd_countInstruction (by omega) (hall.completes hb)
    · rw [finishCycle_of_boundary_ended hu hb]
      exact cycleEnd_of_raises (hall.raises hs hb) (by omega)
  · rw [finishCycle_of_ended hu]
    exact cycleEnd_of_raises (h.raises hs hu) (by omega)

theorem tickCost_le (i : Instr) : tickCost i ≤ 3 := by
  unfold tickCost
  split <;> decide

/-- All that a step of a live state can do to the count, the status, the ticks and memory. -/
theorem cycleEnd_step {s t : State} (hs : s.status = .running) (h : step s = .next t) : CycleEnd s t := by
  rcases step_cases h with ⟨hne, -⟩ | ⟨-, ⟨c, hf, rfl⟩ | ⟨i, u, -, hexec, rfl⟩⟩
  · exact absurd hs hne
  · exact .raised (Nat.zero_le 7) (.refl s) (recordable_fetchDecode hf)
  · rcases runs_exec hexec with ⟨-, rfl⟩ | hrun
    · rw [finishCycle_of_ended (by simp [haltRun])]
      exact .halted (by decide) (completes_stepEnd s)
    · have hcost := tickCost_le i
      exact cycleEnd_finishCycle hs (by omega) ((completes_stepEnd s).runs hrun)

/-- Settles O17: only the count and `halt` add to `icount`, and the completed micro-steps before them leave it as it is. -/
theorem countingAndLimit : Obligations.CountingAndLimit := by
  intro s t hs h
  cases cycleEnd_step hs h with
  | raised _ hu _ =>
    refine ⟨nofun, nofun, nofun, fun c ip hr => ?_⟩
    cases hr
    exact ⟨hu.icount, rfl⟩
  | halted _ hu => exact ⟨nofun, fun _ => congrArg (· + 1) hu.icount, nofun, nofun⟩
  | atLimit _ hu hlim =>
    refine ⟨nofun, nofun, fun n hn => ?_, nofun⟩
    cases hn
    exact ⟨rfl, congrArg (· + 1) hu.icount, hu.params ▸ hlim⟩
  | counted _ hu hlim =>
    have hlive := hu.status.trans hs
    refine ⟨fun _ => ⟨congrArg (· + 1) hu.icount, hu.params ▸ hlim⟩, ?_, ?_, ?_⟩ <;> simp [hlive]

/-! ## The invariant -/

theorem statusOk_running {s : State} (hs : s.status = .running) : s.statusOk = true ↔ s.icount < s.params.limit := by
  simp [State.statusOk, hs]

theorem memSize_le_of_ok {p : Params} (h : p.ok = true) : p.memSize ≤ Config.maxMemSize := by
  simp only [Params.ok, Bool.and_eq_true, decide_eq_true_eq] at h
  omega

/-- The parameters and memory that completed micro-steps leave meet the invariant; a status that agrees with the rest
completes it. -/
theorem Completes.inv {k : Nat} {s u t : State} (h : Completes k s u) (hs : s.Inv) (hp : t.params = u.params)
    (hm : t.mem = u.mem) (hst : t.statusOk = true) : t.Inv := by
  obtain ⟨hok, hwf, hmem, -⟩ := hs
  obtain ⟨hwf', hmem'⟩ := h.mem ⟨hwf, hmem⟩
  have hps : t.params = s.params := hp.trans h.params
  exact ⟨hps ▸ hok, hm ▸ hwf', by rw [hm, hps]; exact hmem', hst⟩

/-- Settles O12: completed micro-steps keep the parameters, memory and the count, and each end of a cycle gives a status
that agrees with them. -/
theorem stepKeepsInvariant : Obligations.StepKeepsInvariant := by
  intro s t hinv h
  by_cases hs : s.status = .running
  · have ⟨hok, _, _, hst⟩ := hinv
    have hlim := (statusOk_running hs).mp hst
    have hbelow {k : Nat} {u : State} (hu : Completes k s u) : u.icount < u.params.limit := by
      rw [hu.icount, hu.params]
      exact hlim
    cases cycleEnd_step hs h with
    | raised _ hu hc =>
      have hinfo := hc (by rw [hu.params]; exact memSize_le_of_ok hok)
      exact hu.inv hinv rfl rfl (by simp [State.statusOk, hbelow hu, hinfo])
    | halted _ hu => exact hu.inv hinv rfl rfl (decide_eq_true ⟨Nat.le_add_left .., hbelow hu⟩)
    | atLimit _ hu hlast => exact hu.inv hinv rfl rfl (decide_eq_true ⟨rfl, hlast⟩)
    | counted _ hu hlast =>
      refine hu.inv hinv rfl rfl ((statusOk_running ?_).mpr (Nat.lt_of_le_of_ne (hbelow hu) hlast))
      exact hu.status.trans hs
  · obtain rfl := Host.Outcome.next.inj ((step_of_ended hs).symm.trans h)
    exact hinv

/-! ## The end of a run -/

theorem CycleEnd.tick_le {s t : State} (h : CycleEnd s t) : t.tick ≤ s.tick + 7 := by
  cases h with
  | raised hk hu | halted hk hu | atLimit hk hu | counted hk hu =>
    exact Nat.le_trans (Nat.le_of_eq hu.tick) (Nat.add_le_add_left hk _)

/-- A cycle ends the run, or counts and stays below the limit. -/
theorem CycleEnd.progress {s t : State} (hs : s.status = .running) (h : CycleEnd s t) :
    t.status ≠ .running ∨
      (t.status = .running ∧ t.params = s.params ∧ t.icount = s.icount + 1 ∧ s.icount + 1 ≠ s.params.limit) := by
  cases h with
  | raised | halted | atLimit => exact .inl nofun
  | counted _ hu hlim =>
    exact .inr ⟨hu.status.trans hs, hu.params, congrArg (· + 1) hu.icount, by rwa [← hu.params, ← hu.icount]⟩

theorem runSteps_succ {s t : State} (h : step s = .next t) (k : Nat) : runSteps (k + 1) s = runSteps k t := by
  simp [runSteps, h]

theorem runSteps_of_ended {s : State} (h : s.status ≠ .running) (k : Nat) : runSteps k s = s :=
  runSteps_of_fixed (step_of_ended h) k

/-- From a live state the run has ended after as many steps as it can still count. -/
theorem runSteps_ends (k : Nat) {s : State} (hs : s.status = .running) (hlt : s.icount < s.params.limit)
    (hk : s.icount + k = s.params.limit) :
    (runSteps k s).status ≠ .running ∧ (runSteps k s).tick ≤ s.tick + 7 * k := by
  induction k generalizing s with
  | zero => omega
  | succ k ih =>
    obtain ⟨t, ht⟩ := step_answers s
    have hend := cycleEnd_step hs ht
    have htick := hend.tick_le
    rw [runSteps_succ ht]
    rcases hend.progress hs with hne | ⟨hlive, hp, hcount, hlim⟩
    · rw [runSteps_of_ended hne]
      exact ⟨hne, by omega⟩
    · rw [← hp] at hk hlim
      obtain ⟨hended, hle⟩ := ih hlive (by omega) (by omega)
      exact ⟨hended, by omega⟩

/-- Settles O13: by the induction of `runSteps_ends`; a launched run starts live at count 0 and tick 0, below its limit. -/
theorem everyRunEnds : Obligations.EveryRunEnds := by
  have hruns (s : State) (hs : s.status = .running) (hlt : s.icount < s.params.limit) :
      (runSteps (s.params.limit - s.icount) s).status.ended = true ∧
        (runSteps (s.params.limit - s.icount) s).tick ≤ s.tick + 7 * (s.params.limit - s.icount) :=
    (runSteps_ends _ hs hlt (Nat.add_sub_of_le (Nat.le_of_lt hlt))).imp_left status_ended_iff.mpr
  refine ⟨fun s t hs h => ?_, hruns, fun r t ht => ?_⟩
  · exact ((cycleEnd_step hs h).progress hs).imp status_ended_iff.mpr fun ⟨_, _, hcount, _⟩ => hcount
  · obtain ⟨hp, entry, input, -, -, rfl⟩ := launch_next.mp ht
    obtain ⟨-, -, hlimit, -⟩ := launchProblem_eq_none.mp hp
    obtain ⟨hended, htick⟩ := hruns (State.resetWith (r.params entry) (loadCells r.image.cells) input) rfl hlimit
    exact ⟨hended, Nat.le_trans htick (Nat.le_of_eq (Nat.zero_add _))⟩

end Sys2Proof.Machine
end

section
/-! Instructions that reach their advance, carried through to it: the state the micro-steps of each form leave, before
`advance` looks at `rip` (43_alu.md R180, R183, R185, 44_move_port.md R220 to R222). -/

namespace Sys2Proof.Machine

open Sys2Proof.Claims

/-! ## The ALU's results -/

/-- The corrected result fits in S32 exactly where one shift by 2^31 is enough (43_alu.md R183). -/
theorem inS32_correct {r : Int} : inS32 (correct r).1 = true ↔ -4294967296 ≤ r ∧ r < 4294967296 := by
  rw [inS32, decide_eq_true_eq, correct]
  split
  · omega
  · split <;> omega

/-- An ALU instruction that writes its result: for operands that are `defined`, `f` gives its exact result, and the
corrected one fits. -/
structure WritingAlu (op : AluOp) (mk : Dest → Src → Instr) (f : Value → Value → Int)
    (defined : Value → Value → Prop) : Prop where
  exec_eq : ∀ d x s, exec (mk d x) s = .next (aluInstr op d x s)
  ne_cmp : op ≠ .cmp
  raw : ∀ a b, defined a b → aluRaw op a b = .ok (f a b)
  fits : ∀ a b, defined a b → -4294967296 ≤ f a b ∧ f a b < 4294967296

theorem WritingAlu.alu_eq {op : AluOp} {mk : Dest → Src → Instr} {f : Value → Value → Int}
    {defined : Value → Value → Prop} (h : WritingAlu op mk f defined) {a b : Value} (hd : defined a b) :
    alu op a b = .ok (aluOut (f a b)) :=
  alu_of_raw (h.raw a b hd)

theorem WritingAlu.inS32_result {op : AluOp} {mk : Dest → Src → Instr} {f : Value → Value → Int}
    {defined : Value → Value → Prop} (h : WritingAlu op mk f defined) {a b : Value} (hd : defined a b) :
    inS32 (correct (f a b)).1 = true :=
  inS32_correct.mpr (h.fits a b hd)

theorem toInt_bounds (v : Value) : -2147483648 ≤ v.toInt ∧ v.toInt < 2147483648 :=
  ⟨@BitVec.le_toInt 32 v, @BitVec.toInt_lt 32 v⟩

theorem fdiv_fits (a b : Value) :
    -4294967296 ≤ Int.fdiv a.toInt b.toInt ∧ Int.fdiv a.toInt b.toInt < 4294967296 := by
  have ha := toInt_bounds a
  have hq := Int.natAbs_fdiv_le_natAbs a.toInt b.toInt
  omega

theorem fmod_fits (a : Value) {b : Value} (hb : b.toInt ≠ 0) :
    -4294967296 ≤ Int.fmod a.toInt b.toInt ∧ Int.fmod a.toInt b.toInt < 4294967296 := by
  have hbounds := toInt_bounds b
  rcases Int.lt_or_gt_of_ne hb with hneg | hpos
  · have hm := fmod_of_neg (a := a.toInt) hneg
    omega
  · have hlo := Int.fmod_nonneg_of_pos a.toInt hpos
    have hhi := Int.fmod_lt_of_pos a.toInt hpos
    omega

theorem toInt_fits (v : Value) : -4294967296 ≤ v.toInt ∧ v.toInt < 4294967296 := by
  have hv := toInt_bounds v
  omega

/-- A form that every writing ALU instruction has is a form of each of the eight. -/
theorem eachWritingAlu_of
    {form : (Dest → Src → Instr) → (Value → Value → Int) → (Value → Value → Prop) → Prop}
    (h : ∀ {op mk f defined}, WritingAlu op mk f defined → form mk f defined) : EachWritingAlu form := by
  refine ⟨h (op := .add) ⟨fun _ _ _ => rfl, nofun, fun _ _ _ => rfl, fun a b _ => ?_⟩,
    h (op := .sub) ⟨fun _ _ _ => rfl, nofun, fun _ _ _ => rfl, fun a b _ => ?_⟩,
    h (op := .mul) ⟨fun _ _ _ => rfl, nofun, fun _ _ _ => rfl, fun _ _ hd => hd⟩,
    h (op := .div) ⟨fun _ _ _ => rfl, nofun, fun _ _ hd => aluRaw_div hd, fun a b _ => fdiv_fits a b⟩,
    h (op := .mod) ⟨fun _ _ _ => rfl, nofun, fun _ _ hd => aluRaw_mod hd, fun a b hd => fmod_fits a hd⟩,
    h (op := .xor) ⟨fun _ _ _ => rfl, nofun, fun _ _ _ => rfl, fun _ _ _ => toInt_fits _⟩,
    h (op := .and) ⟨fun _ _ _ => rfl, nofun, fun _ _ _ => rfl, fun _ _ _ => toInt_fits _⟩,
    h (op := .or) ⟨fun _ _ _ => rfl, nofun, fun _ _ _ => rfl, fun _ _ _ => toInt_fits _⟩⟩
  all_goals
    have ha := toInt_bounds a
    have hb := toInt_bounds b
    omega

/-! ## The ALU's forms -/

theorem aluApply_of_ok {op : AluOp} {a b : Value} {src : Src} {s : State} {o : AluOut}
    (hb : resolveValue src s = .ok b) (ho : alu op a b = .ok o) :
    aluApply op a src s = .ok (o.result, setFlags o s) := by
  simp [aluApply, hb, ho]

theorem aluRegister_write {op : AluOp} {r : Reg} {src : Src} {s : State} {a b : Value} {o : AluOut} (hop : op ≠ .cmp)
    (ha : readReg r s = .ok a) (hb : resolveValue src s = .ok b) (ho : alu op a b = .ok o)
    (hfit : inS32 o.result = true) :
    aluRegister op r src s = advance none (stepEnd (setReg r (BitVec.ofInt 32 o.result) (afterAlu o s))) := by
  have hwrite : writeReg r o.result (afterAlu o s) = .ok (setReg r (BitVec.ofInt 32 o.result) (afterAlu o s)) :=
    writeReg_ok.mpr ⟨hfit, rfl⟩
  refine (micro_ok (a := o.result) (t := setFlags o s) (by simp [ha, aluApply_of_ok hb ho])).trans ?_
  cases op with
  | cmp => exact absurd rfl hop
  | add | sub | mul | div | mod | xor | and | or => exact micro_ok (a := ()) (bind_pure_ok.mpr ⟨_, hwrite, rfl⟩)

theorem aluRegister_cmp {r : Reg} {src : Src} {s : State} {a b : Value} {o : AluOut} (ha : readReg r s = .ok a)
    (hb : resolveValue src s = .ok b) (ho : alu .cmp a b = .ok o) :
    aluRegister .cmp r src s = advance none (afterAlu o s) :=
  micro_ok (a := o.result) (t := setFlags o s) (by simp [ha, aluApply_of_ok hb ho])

/-- The memory form up to its third micro-step. -/
theorem aluMemory_store {op : AluOp} {d : Dest} {src : Src} {s t : State} {p : Int} {a b : Value} {o : AluOut}
    (hd : resolveDest d s = .ok (.mem p)) (ha : readPayload p s = .ok a) (hb : resolveValue src s = .ok b)
    (ho : alu op a b = .ok o) (ht : aluStore op d o.result (afterAlu o (stepEnd s)) = .ok ((), t)) :
    aluMemory op d src s = advance none (stepEnd t) := by
  have hleft : resolveValue (leftOperand d) s = .ok a := (leftOperand_mem hd).trans ha
  have happly := aluApply_of_ok (s := stepEnd s) ((resolveValue_stepEnd src s).trans hb) ho
  exact (micro_ok (a := a) (t := s) (by simp [hleft])).trans ((micro_ok happly).trans (micro_ok ht))

theorem writeDest_mem {d : Dest} {s : State} {p v : Int} (hd : resolveDest d s = .ok (.mem p))
    (hin : inMemory p s = true) (hv : inS32 v = true) :
    writeDest d v s = .ok { s with mem := s.mem.put p.toNat (dataword (BitVec.ofInt 32 v)) } :=
  writeDest_ok.mpr ⟨_, hd, writePayload_ok.mpr ⟨hv, hin, rfl⟩⟩

theorem aluMemory_write {op : AluOp} {d : Dest} {src : Src} {s : State} {p : Int} {a b : Value} {o : AluOut}
    (hop : op ≠ .cmp) (hd : resolveDest d s = .ok (.mem p)) (ha : readPayload p s = .ok a)
    (hb : resolveValue src s = .ok b) (ho : alu op a b = .ok o) (hfit : inS32 o.result = true) :
    aluMemory op d src s = advance none (stepEnd
      { afterAlu o (stepEnd s) with mem := s.mem.put p.toNat (dataword (BitVec.ofInt 32 o.result)) }) := by
  obtain ⟨w, hw, -⟩ := readPayload_ok.mp ha
  have hd' : resolveDest d (afterAlu o (stepEnd s)) = .ok (.mem p) := by
    rw [resolveDest_afterAlu, resolveDest_stepEnd, hd]
  refine aluMemory_store hd ha hb ho ?_
  rw [aluStore_write hop, writeDest_mem hd' (memRead_ok_inMemory hw) hfit]
  rfl

theorem aluMemory_cmp {d : Dest} {src : Src} {s : State} {p : Int} {a b : Value} {o : AluOut}
    (hd : resolveDest d s = .ok (.mem p)) (ha : readPayload p s = .ok a) (hb : resolveValue src s = .ok b)
    (ho : alu .cmp a b = .ok o) : aluMemory .cmp d src s = advance none (stepEnd (afterAlu o (stepEnd s))) :=
  aluMemory_store hd ha hb ho (aluStore_cmp ..)

/-! ## Moves, ports and branches -/

theorem movOneStep_of_ok {d : Dest} {src : Src} {s t : State} {v : Value} (hv : resolveValue src s = .ok v)
    (hw : writeDest d v.toInt s = .ok t) : movOneStep d src s = advance none (stepEnd t) :=
  micro_ok (a := ()) (by simp [hv, hw])

theorem movTwoSteps_of_ok {d : Dest} {src : Src} {s t : State} {v : Value} (hv : resolveValue src s = .ok v)
    (hw : writeDest d v.toInt (stepEnd s) = .ok t) : movTwoSteps d src s = advance none (stepEnd t) :=
  (micro_ok (a := v) (t := s) (by simp [hv])).trans (micro_ok (a := ()) (by simp [hw]))

/-- The value written to a location in memory stands there as a data word. -/
theorem writeDest_mem_toInt {d : Dest} {s : State} {p : Int} (hd : resolveDest d s = .ok (.mem p))
    (hin : inMemory p s = true) (v : Value) :
    writeDest d v.toInt s = .ok { s with mem := s.mem.put p.toNat (dataword v) } := by
  rw [writeDest_mem hd hin (inS32_toInt v), BitVec.ofInt_toInt]

/-- The ticks of a `mov` to memory, by its source (44_move_port.md R220). -/
def movToMemoryTicks (src : Src) : Nat :=
  match src with
  | .imm _ | .reg _ => 1
  | .direct _ | .indirect _ => 2

theorem exec_mov_mem {d : Dest} {src : Src} {s : State} {p : Int} {v : Value} (hv : resolveValue src s = .ok v)
    (hd : resolveDest d s = .ok (.mem p)) (hin : inMemory p s = true) :
    exec (.mov d src) s = .next (advance none
      { s with mem := s.mem.put p.toNat (dataword v), tick := s.tick + movToMemoryTicks src }) := by
  have hdest : destInMemory d = true := by
    cases d with
    | reg r => cases hd
    | direct a | indirect a => rfl
  have hone := movOneStep_of_ok hv (writeDest_mem_toInt hd hin v)
  have htwo := movTwoSteps_of_ok hv (writeDest_mem_toInt (s := stepEnd s) ((resolveDest_stepEnd d s).trans hd) hin v)
  have hform : exec (.mov d src) s =
      .next (if srcInMemory src then movTwoSteps d src s else movOneStep d src s) := by
    simp [exec, execMov, hdest]
  rw [hform, hone, htwo]
  cases src <;> rfl

theorem execMovi_of_ok {d : Dest} {port v : Value} {s t u : State} {l : Loc} (hl : resolveDest d s = .ok l)
    (hr : portRead port.toInt s = .ok (v, t)) (hw : writeLoc l v.toInt t = .ok u) :
    execMovi d port s = .next (advance none (stepEnd u)) :=
  congrArg _ (micro_ok (a := ()) (by simp [hl, hr, hw]))

/-- An input token that is the integer `v`, or the character whose code point `v` is (20_memory.md R62). -/
theorem tokenValue_of_holds {x : Token} {v : Value} (h : x = .int v ∨ ∃ c, x = .char c ∧ v.toInt = (c.val : Int)) :
    tokenValue x = v := by
  rcases h with rfl | ⟨c, rfl, hv⟩
  · rfl
  · apply BitVec.eq_of_toInt_eq
    rw [hv, tokenValue, BitVec.toInt_ofNat']
    exact Int.bmod_eq_of_le (by omega) (by omega)

theorem portRead_inPort {s : State} {e : Entry} {rest : List Entry} {v : Value} (hq : s.inq = e :: rest)
    (hv : tokenValue e.token = v) : portRead (0#32 : Value).toInt s = .ok (v, { s with inq := rest }) := by
  simp [portRead, Config.inPort, hq, hv]

theorem execMovo_of_ok {port v : Value} {src : Src} {s t : State} (hv : resolveValue src s = .ok v)
    (hw : portWrite port.toInt v.toInt s = .ok t) : execMovo port src s = .next (advance none (stepEnd t)) :=
  congrArg _ (micro_ok (a := ()) (by simp [hv, hw]))

theorem portWrite_outPort {v : Int} {c : CodePoint} (hv : v = (c.val : Int)) (s : State) :
    portWrite (1#32 : Value).toInt v s = .ok { s with outq := s.outq ++ [c] } := by
  have hmax : ¬Config.maxCodePoint < (c.val : Int) := by
    simp only [Config.maxCodePoint]
    omega
  simp [portWrite, Config.outPort, hv, hmax]

theorem branchInstr_notTaken {cond : State → Except Cond Bool} {x : Src} {s : State} {t : Value}
    (hx : resolveValue x s = .ok t) (hc : cond s = .ok false) : branchInstr cond x s = advance none (stepEnd s) :=
  micro_ok (a := none) (by simp [hx, hc])

theorem flagIs_of_readFlag {f : Flag} {b : Bool} {s : State} (h : readFlag f s = .ok b) (v : Bool) :
    flagIs f v s = .ok (b == v) :=
  bind_pure_ok.mpr ⟨b, h, rfl⟩

end Sys2Proof.Machine
end

section
/-! An advance past 2^31 - 1 (40_control_cycle.md R116, R117): each form whose advance goes one past `rip` raises there,
with what its micro-steps did kept; O19. -/

namespace Sys2Proof.Machine

open Sys2Proof.Claims

theorem next_advance_top {s : State} (h : s.rip.toInt = top) :
    (.next (advance none s) : Host.Outcome State Fault Refusal) = .next (raise (.addressOutOfRange 2147483648) s) :=
  congrArg _ (advance_none_top h)

theorem toInt_rip_setReg (r : Reg) (v : Value) (s : State) :
    (setReg r v s).rip.toInt = if r = .rip then v.toInt else s.rip.toInt := by
  rw [setReg_rip]
  split <;> rfl

theorem registerFormPastTop {op : AluOp} {mk : Dest → Src → Instr} {f : Value → Value → Int}
    {defined : Value → Value → Prop} (h : WritingAlu op mk f defined) : RegisterFormPastTop mk f defined := by
  intro r src s a b ha hb hdef htop
  have hfit := h.inS32_result hdef
  have hrip : (setReg r (BitVec.ofInt 32 (correct (f a b)).1) (afterAlu (aluOut (f a b)) s)).rip.toInt = top := by
    rw [toInt_rip_setReg, toInt_ofInt hfit]
    exact htop
  have hrun := aluRegister_write h.ne_cmp ha hb (h.alu_eq hdef) hfit
  rw [h.exec_eq, aluInstr, hrun]
  refine (next_advance_top (s := stepEnd _) hrip).trans ?_
  cases r <;> rfl

theorem memoryFormPastTop {op : AluOp} {mk : Dest → Src → Instr} {f : Value → Value → Int}
    {defined : Value → Value → Prop} (h : WritingAlu op mk f defined) : MemoryFormPastTop mk f defined := by
  intro d src s p a b hd ha hb hdef htop
  rw [h.exec_eq, aluInstr_mem hd, aluMemory_write h.ne_cmp hd ha hb (h.alu_eq hdef) (h.inS32_result hdef)]
  exact next_advance_top htop

theorem exec_mov_reg_pastTop {r : Reg} {src : Src} {s : State} {v : Value} (hv : resolveValue src s = .ok v)
    (htop : (if r = .rip then v.toInt else s.rip.toInt) = top) :
    exec (.mov (.reg r) src) s =
      .next (raise (.addressOutOfRange 2147483648) { setReg r v s with tick := s.tick + 1 }) := by
  have hrip : (setReg r v s).rip.toInt = top := (toInt_rip_setReg r v s).trans htop
  have hrun : exec (.mov (.reg r) src) s = .next (advance none (stepEnd (setReg r v s))) :=
    congrArg _ (movOneStep_of_ok hv (writeDest_reg r v s))
  rw [hrun, next_advance_top (s := stepEnd _) hrip, stepEnd, setReg_tick]

theorem exec_movi_reg_pastTop {r : Reg} {s : State} {v : Value} {e : Entry} {rest : List Entry}
    (hq : s.inq = e :: rest) (he : tokenValue e.token = v)
    (htop : (if r = .rip then v.toInt else s.rip.toInt) = top) :
    exec (.movi (.reg r) 0#32) s =
      .next (raise (.addressOutOfRange 2147483648) { setReg r v s with inq := rest, tick := s.tick + 1 }) := by
  have hrip : (setReg r v { s with inq := rest }).rip.toInt = top := (toInt_rip_setReg ..).trans htop
  have hrun := execMovi_of_ok (resolveDest_reg r s) (portRead_inPort hq he) (writeDest_reg r v { s with inq := rest })
  refine hrun.trans ((next_advance_top (s := stepEnd _) hrip).trans ?_)
  cases r <;> rfl

theorem exec_movi_mem_pastTop {d : Dest} {s : State} {p : Int} {v : Value} {e : Entry} {rest : List Entry}
    (hq : s.inq = e :: rest) (he : tokenValue e.token = v) (hd : resolveDest d s = .ok (.mem p))
    (hin : inMemory p s = true) (htop : s.rip.toInt = top) :
    exec (.movi d 0#32) s = .next (raise (.addressOutOfRange 2147483648)
      { s with mem := s.mem.put p.toNat (dataword v), inq := rest, tick := s.tick + 1 }) := by
  have hw : writeLoc (.mem p) v.toInt { s with inq := rest } =
      .ok { s with inq := rest, mem := s.mem.put p.toNat (dataword v) } :=
    writePayload_ok.mpr ⟨inS32_toInt v, hin, by rw [BitVec.ofInt_toInt]⟩
  exact (execMovi_of_ok hd (portRead_inPort hq he) hw).trans (next_advance_top htop)

theorem exec_branch_notTaken_pastTop {mk : Src → Instr} {f : Flag} {v b : Bool} {x : Src} {s : State} {t : Value}
    (hmk : exec (mk x) s = .next (branchInstr (flagIs f v) x s)) (hx : resolveValue x s = .ok t)
    (hf : readFlag f s = .ok b) (hne : (b == v) = false) (htop : s.rip.toInt = top) :
    exec (mk x) s = .next (raise (.addressOutOfRange 2147483648) { s with tick := s.tick + 1 }) := by
  have hcond : flagIs f v s = .ok false := hne ▸ flagIs_of_readFlag hf v
  rw [hmk, branchInstr_notTaken hx hcond]
  exact next_advance_top htop

/-- Settles O19: each form leaves its micro-steps' state to `advance`, which raises where `rip` then is at the top. -/
theorem advancePastTopRaises : Obligations.AdvancePastTopRaises := by
  refine ⟨eachWritingAlu_of registerFormPastTop, fun s r v htop => ⟨fun src hv => exec_mov_reg_pastTop hv htop,
    fun e rest hq he => exec_movi_reg_pastTop hq (tokenValue_of_holds he) htop⟩, eachWritingAlu_of memoryFormPastTop,
    fun s htop => ⟨next_advance_top htop, next_advance_top htop, next_advance_top htop, ?branches, fun src b hb =>
      ⟨?cmpReg, ?cmpMem, ?movMem, ?movo⟩, ?movi⟩⟩
  case branches =>
    intro p hp x t hx hf
    simp only [List.mem_cons, List.not_mem_nil, or_false] at hp
    rcases hp with rfl | rfl | rfl | rfl <;> exact exec_branch_notTaken_pastTop rfl hx hf rfl htop
  case cmpReg =>
    intro r a ha
    exact (congrArg _ (aluRegister_cmp ha hb rfl)).trans (next_advance_top htop)
  case cmpMem =>
    intro d p a hd ha
    exact (congrArg _ ((aluInstr_mem hd).trans (aluMemory_cmp hd ha hb rfl))).trans (next_advance_top htop)
  case movMem =>
    intro d p hd h0 h1
    exact (exec_mov_mem hb hd (inMemory_iff.mpr ⟨h0, h1⟩)).trans (next_advance_top htop)
  case movo =>
    intro c hc
    exact (execMovo_of_ok hb (portWrite_outPort hc s)).trans (next_advance_top htop)
  case movi =>
    intro e rest v d p hq he hd h0 h1
    exact exec_movi_mem_pastTop hq (tokenValue_of_holds he) hd (inMemory_iff.mpr ⟨h0, h1⟩) htop

end Sys2Proof.Machine
end

section
/-! The words of the frames: how `RegsKept` is carried through the shared operations, and `MemKept`, `QueuesKept` and
`ControlKept` read off what is already known of the modes, of what a state holds and of the course of an instruction. -/

namespace Sys2Proof.Machine

open Sys2Proof.Claims

/-! ## Registers -/

theorem regsKept_refl (rs : List Reg) (s : State) : RegsKept rs s s := fun _ _ => rfl

theorem regsKept_raise {rs : List Reg} {s t : State} (h : RegsKept rs s t) (c : Cond) : RegsKept rs s (raise c t) :=
  fun r hr => (regSlot_raise t c r).trans (h r hr)

theorem regsKept_stepEnd {rs : List Reg} {s t : State} (h : RegsKept rs s t) : RegsKept rs s (stepEnd t) :=
  fun r hr => (regSlot_stepEnd t r).trans (h r hr)

theorem regsKept_setReg {rs : List Reg} {s t : State} (h : RegsKept rs s t) {r : Reg} (hr : r ∈ rs) (v : Value) :
    RegsKept rs s (setReg r v t) := fun x hx =>
  (regSlot_setReg_other t r v (ne_of_mem_of_not_mem hr hx).symm).trans (h x hx)

theorem regsKept_advance {rs : List Reg} {s t : State} (h : RegsKept rs s t) (hrip : .rip ∈ rs) (x : Option Value) :
    RegsKept rs s (advance x t) := by
  rcases advance_cases x t with ⟨v, e⟩ | ⟨-, -, e⟩ <;> rw [e]
  · exact regsKept_setReg h hrip v
  · exact regsKept_raise h _

theorem regsKept_branchInstr (cond : State → Except Cond Bool) (x : Src) (s : State) :
    RegsKept [.rip] s (branchInstr cond x s) := by
  have hs := regsKept_refl [.rip] s
  rcases branchInstr_cases cond x s with ⟨c, -, h⟩ | ⟨t, c, -, -, h⟩ | ⟨t, b, -, -, h⟩ <;> rw [h]
  · exact regsKept_raise hs c
  · exact regsKept_raise hs c
  · exact regsKept_advance (regsKept_stepEnd hs) (List.mem_singleton_self _) _

/-! ## Cells and queues -/

theorem memKept_of_held {s t : State} (hp : t.params = s.params) (hh : t.held = s.held) : MemKept s t := by
  have hmem : t.mem = s.mem := congrArg Held.mem hh
  intro a
  rw [memRead, memRead, inMemory, inMemory, hp, hmem]

theorem queuesKept_of_held {s t : State} (h : t.held = s.held) : QueuesKept s t :=
  ⟨congrArg Held.inq h, congrArg Held.outq h⟩

/-! ## The control state -/

theorem Runs.icount {n : Nat} {s t : State} (h : Runs n s t) : t.icount = s.icount := by
  rcases h with h | ⟨k, u, c, -, hu, -, rfl⟩
  · exact h.icount
  · exact hu.icount

theorem exec_icount {i : Instr} {s t : State} (h : exec i s = .next t) (hi : i ≠ .halt) : t.icount = s.icount := by
  rcases runs_exec h with ⟨hhalt, -⟩ | hrun
  · exact absurd hhalt hi
  · exact hrun.icount

theorem exec_controlKept {i : Instr} {s t : State} (h : exec i s = .next t) (hhalt : i ≠ .halt) (hiret : i ≠ .iret) :
    ControlKept s t := by
  refine ⟨exec_params h, ?_, exec_icount h hhalt⟩
  rcases exec_trap h with hkept | ⟨hi, -⟩
  · exact hkept
  · exact absurd hi hiret

end Sys2Proof.Machine
end

section
/-! The zero-operand instructions (41_zero_operand.md R140 to R144) and what they and the branches leave unchanged; O33,
O34, O35, O54 and O55. -/

namespace Sys2Proof.Machine

open Sys2Proof.Claims

/-! ## `ei`, `di` and `nop`: the state each hands to its advance -/

theorem exec_ei (s : State) :
    exec .ei s = .next (advance none (stepEnd (setReg .ric (enable s.ric) s))) := rfl

theorem exec_di (s : State) :
    exec .di s = .next (advance none (stepEnd (setReg .ric (disable s.ric) s))) := rfl

theorem exec_nop (s : State) : exec .nop s = .next (advance none (stepEnd s)) := rfl

theorem next_advance {s : State} (h : s.rip.toInt ≠ top) :
    (.next (advance none s) : Host.Outcome State Fault Refusal) =
      .next { s with rip := BitVec.ofInt 32 (s.rip.toInt + 1) } :=
  congrArg _ (advance_none h)

/-! ## The bits of `ric` -/

theorem getLsbD_enable_zero (v : Value) : (enable v).getLsbD 0 = true := by simp [enable]

theorem getLsbD_enable_of_ne (v : Value) {k : Nat} (hk : k ≠ 0) : (enable v).getLsbD k = v.getLsbD k := by
  simp [enable, hk]

theorem disable_eq_and_not (v : Value) : disable v = v &&& ~~~1#32 := rfl

theorem getLsbD_disable_zero (v : Value) : (disable v).getLsbD 0 = false := by simp [disable_eq_and_not]

theorem getLsbD_disable_of_ne (v : Value) {k : Nat} (hk : k ≠ 0) : (disable v).getLsbD k = v.getLsbD k := by
  have hwidth : v.getLsbD k = true → k < 32 := BitVec.lt_of_getLsbD
  rw [disable_eq_and_not, BitVec.getLsbD_and, BitVec.getLsbD_not]
  simpa [hk] using hwidth

/-! ## `iret` -/

theorem pop_of_readReg_error {s : State} {c : Cond} (h : readReg .rsp s = .error c) : pop s = .error c :=
  bind_error.mpr (.inl h)

theorem pop_of_readPayload_error {s : State} {sp : Value} {c : Cond} (hsp : readReg .rsp s = .ok sp)
    (h : readPayload (sp.toInt + 1) s = .error c) : pop s = .error c :=
  bind_error.mpr (.inr ⟨sp, hsp, bind_error.mpr (.inl h)⟩)

theorem pop_of_readPayload {s : State} {sp v : Value} (hsp : readReg .rsp s = .ok sp)
    (h : readPayload (sp.toInt + 1) s = .ok v) : pop s = .ok (v, setReg .rsp (BitVec.ofInt 32 (sp.toInt + 1)) s) :=
  bind_ok.mpr ⟨sp, hsp, bind_ok.mpr ⟨v, h, rfl⟩⟩

theorem trapReturn_of_pop_error {s : State} {c : Cond} (h : pop s = .error c) : trapReturn s = raise c s :=
  micro_error (bind_error.mpr (.inl h))

section
variable {s : State} {sp a : Value}

/-- A second pop that raises keeps the first micro-step (40_control_cycle.md R118). -/
theorem trapReturn_of_second_pop_error {c : Cond} (hsp : readReg .rsp s = .ok sp)
    (ha : readPayload (sp.toInt + 1) s = .ok a) (h : pop (afterPopAcc sp a s) = .error c) :
    trapReturn s = raise c (afterPopAcc sp a s) :=
  (micro_ok (a := ()) (by simp [pop_of_readPayload hsp ha])).trans (micro_error h)

theorem trapReturn_of_second_pop {p : Value} {t : State} (hsp : readReg .rsp s = .ok sp)
    (ha : readPayload (sp.toInt + 1) s = .ok a) (h : pop (afterPopAcc sp a s) = .ok (p, t)) :
    trapReturn s = { stepEnd { stepEnd t with ric := enable t.ric, trap := false } with rip := p } :=
  (micro_ok (a := ()) (by simp [pop_of_readPayload hsp ha])).trans
    ((micro_ok h).trans (advance_some p _))

theorem readReg_rsp_afterPopAcc (sp a : Value) (s : State) :
    readReg .rsp (afterPopAcc sp a s) = .ok (BitVec.ofInt 32 (sp.toInt + 1)) := rfl

theorem readPayload_afterPopAcc (x : Int) (sp a : Value) (s : State) :
    readPayload x (afterPopAcc sp a s) = readPayload x s := rfl

/-- Within the bound of 00_scope.md R6 an `rsp` whose next cell can be read is below the top, so its increment does not
wrap. -/
theorem toInt_incremented (hsize : s.params.memSize ≤ Config.maxMemSize)
    (ha : readPayload (sp.toInt + 1) s = .ok a) : (BitVec.ofInt 32 (sp.toInt + 1)).toInt = sp.toInt + 1 := by
  obtain ⟨w, hw, -⟩ := readPayload_ok.mp ha
  obtain ⟨-, hlt⟩ := inMemory_iff.mp (memRead_ok_inMemory hw)
  simp only [Config.maxMemSize] at hsize
  exact toInt_next (by omega)

end

/-- Settles O35: the second pop reads the cell two above the `rsp` that `iret` began with. -/
theorem iretPopsAndReturns : Obligations.IretPopsAndReturns := by
  refine ⟨rfl, fun s hsize => ⟨fun c hc => congrArg _ (trapReturn_of_pop_error (pop_of_readReg_error hc)),
    fun sp hsp => ⟨fun c hc => congrArg _ (trapReturn_of_pop_error (pop_of_readPayload_error hsp hc)),
      fun a ha => ?_⟩⟩⟩
  have hrsp := readReg_rsp_afterPopAcc sp a s
  have hinc : (BitVec.ofInt 32 (sp.toInt + 1)).toInt + 1 = sp.toInt + 2 := by
    rw [toInt_incremented hsize ha]
    omega
  have hsecond : readPayload ((BitVec.ofInt 32 (sp.toInt + 1)).toInt + 1) (afterPopAcc sp a s) =
      readPayload (sp.toInt + 2) s := by rw [hinc, readPayload_afterPopAcc]
  refine ⟨fun c hc => ?_, fun p hp => ?_⟩
  · exact congrArg _ (trapReturn_of_second_pop_error hsp ha (pop_of_readPayload_error hrsp (hsecond.trans hc)))
  · have hpop := pop_of_readPayload hrsp (hsecond.trans hp)
    rw [hinc] at hpop
    exact congrArg _ (trapReturn_of_second_pop hsp ha hpop)

/-- Whatever its outcome, `iret` leaves `rbx` and `rdx`, and changes `ric` only by setting EN. -/
theorem trapReturn_keeps (s : State) :
    (trapReturn s).rbx = s.rbx ∧ (trapReturn s).rdx = s.rdx ∧
      ((trapReturn s).ric = s.ric ∨ (trapReturn s).ric = enable s.ric) := by
  rcases trapReturn_cases s with ⟨c, -, h⟩ | ⟨sp, a, c, -, -, -, h⟩ | ⟨sp, a, p, t, -, -, hpop, h⟩ <;> rw [h]
  · exact ⟨rfl, rfl, .inl rfl⟩
  · exact ⟨rfl, rfl, .inl rfl⟩
  · obtain ⟨sp', -, -, rfl⟩ := pop_ok hpop
    exact ⟨rfl, rfl, .inr rfl⟩

theorem regsKept_trapReturn (s : State) : RegsKept [.rax, .rip, .rsp, .ric] s (trapReturn s) := by
  obtain ⟨hrbx, hrdx, -⟩ := trapReturn_keeps s
  intro r hr
  cases r with
  | rbx => exact hrbx
  | rdx => exact hrdx
  | rax | rip | rsp | ric => simp at hr

theorem getLsbD_ric_trapReturn (s : State) {k : Nat} (hk : k ≠ 0) :
    (trapReturn s).ric.getLsbD k = s.ric.getLsbD k := by
  obtain ⟨-, -, h | h⟩ := trapReturn_keeps s <;> rw [h]
  exact getLsbD_enable_of_ne s.ric hk

/-! ## The obligations -/

/-- Settles O55: `iret` is `trapReturn`, which stores nothing and keeps `rbx` and `rdx`. -/
theorem iretFrame : Obligations.IretFrame := by
  intro s t h
  obtain rfl : trapReturn s = t := Host.Outcome.next.inj h
  have hparams := exec_params h
  have hheld := held_trapReturn s
  exact ⟨regsKept_trapReturn s, fun k => getLsbD_ric_trapReturn s, exec_flagsKept rfl h,
    memKept_of_held hparams hheld, queuesKept_of_held hheld, hparams, exec_icount h nofun⟩

/-- The frame of an instruction other than `halt`, `iret` and the nine of the ALU, whose next state `u` holds the same
cells and queues. -/
theorem exec_frame {i : Instr} {rs : List Reg} {s t u : State} (h : exec i s = .next t) (halu : isAlu i = false)
    (hhalt : i ≠ .halt) (hiret : i ≠ .iret) (he : exec i s = .next u) (hregs : RegsKept rs s u)
    (hheld : u.held = s.held) :
    RegsKept rs s t ∧ FlagsKept s t ∧ MemKept s t ∧ QueuesKept s t ∧ ControlKept s t := by
  obtain rfl : u = t := Host.Outcome.next.inj (he.symm.trans h)
  exact ⟨hregs, exec_flagsKept halu h, memKept_of_held (exec_params h) hheld, queuesKept_of_held hheld,
    exec_controlKept h hhalt hiret⟩

/-- Settles O54: `halt` only counts and ends the run; every other one writes at most `ric`, then advances `rip` or
raises. -/
theorem controlInstructionFrame : Obligations.ControlInstructionFrame := by
  intro s t x
  refine ⟨fun h => ?_, fun i hi h => ?_, fun i hi h => ?_⟩
  · obtain rfl : haltRun s = t := Host.Outcome.next.inj h
    exact ⟨fun _ _ => rfl, ⟨rfl, rfl, rfl⟩, fun _ => rfl, ⟨rfl, rfl⟩, rfl, rfl, rfl⟩
  · have hregs (v : Value) : RegsKept [.rip, .ric] s (advance none (stepEnd (setReg .ric v s))) :=
      regsKept_advance (regsKept_stepEnd (regsKept_setReg (regsKept_refl _ s) (by decide) v)) (by decide) none
    have hheld (v : Value) : (advance none (stepEnd (setReg .ric v s))).held = s.held := held_advance none _
    simp only [List.mem_cons, List.not_mem_nil, or_false] at hi
    rcases hi with rfl | rfl
    · exact exec_frame h rfl nofun nofun (exec_ei s) (hregs _) (hheld _)
    · exact exec_frame h rfl nofun nofun (exec_di s) (hregs _) (hheld _)
  · simp only [List.mem_cons, List.not_mem_nil, or_false] at hi
    rcases hi with rfl | rfl | rfl | rfl | rfl | rfl
    · have hregs := regsKept_advance (regsKept_stepEnd (regsKept_refl [.rip] s)) (by decide) none
      exact exec_frame h rfl nofun nofun (exec_nop s) hregs (held_advance none _)
    all_goals
      exact exec_frame h rfl nofun nofun rfl (regsKept_branchInstr _ x s) (held_branchInstr _ x s)

/-- Settles O33: the state after `halt` has ended, so the end of the cycle leaves it as it is. -/
theorem haltEndsRun : Obligations.HaltEndsRun := by
  refine ⟨rfl, fun s => rfl, fun s hs hf => ?_⟩
  have hended : (haltRun (stepEnd s)).status ≠ .running := nofun
  have hstep : step s = .next (finishCycle (haltRun (stepEnd s))) := step_of_exec hs hf rfl
  rw [hstep, finishCycle_of_ended hended]
  rfl

/-- Settles O34: `rip` is not at the top, so each advance goes to the next word; `enable` and `disable` touch bit 0
alone. -/
theorem enableDisableNop : Obligations.EnableDisableNop := by
  refine ⟨rfl, rfl, rfl, fun s hrip => ⟨⟨enable s.ric, ?_, getLsbD_enable_zero _, fun k => getLsbD_enable_of_ne _⟩,
    ⟨disable s.ric, ?_, getLsbD_disable_zero _, fun k => getLsbD_disable_of_ne _⟩, ?_⟩⟩
  · exact (exec_ei s).trans (next_advance hrip)
  · exact (exec_di s).trans (next_advance hrip)
  · exact (exec_nop s).trans (next_advance hrip)

end Sys2Proof.Machine
end

section
/-! The five branches (42_branch.md R160 to R165): each outcome of the operation they share, under its condition; O36. -/

namespace Sys2Proof.Machine

open Sys2Proof.Claims

section
variable {cond : State → Except Cond Bool} {x : Src} {s : State}

theorem branchInstr_taken {t : Value} (hx : resolveValue x s = .ok t) (hc : cond s = .ok true) :
    branchInstr cond x s = advance (some t) (stepEnd s) :=
  micro_ok (a := some t) (by simp [hx, hc])

theorem branchInstr_of_target_error {c : Cond} (hx : resolveValue x s = .error c) : branchInstr cond x s = raise c s :=
  micro_error (by simp [hx])

theorem branchInstr_of_cond_error {t : Value} {c : Cond} (hx : resolveValue x s = .ok t) (hc : cond s = .error c) :
    branchInstr cond x s = raise c s :=
  micro_error (by simp [hx, hc])

end

/-- The statement's reading of a flag is the one the conditional branches use (R162 to R165). -/
theorem flagReads_eq_flagIs (f : Flag) (v : Bool) : flagReads f v = flagIs f v := by
  funext s
  unfold flagReads
  cases h : readFlag f s with
  | ok b => exact (flagIs_of_readFlag h v).symm
  | error c => exact (bind_pure_error.mpr h).symm

/-- An instruction encoded as a branch that runs `branchInstr` has the form of a branch (R160). -/
theorem branchForm_of_exec {mk : Src → Instr} {o : Op} {cond : State → Except Cond Bool}
    (htuple : ∀ x, (mk x).tuple = .ofBranch o x) (hexec : ∀ x s, exec (mk x) s = .next (branchInstr cond x s)) :
    BranchForm mk (standardOpcodeMap.number o) cond := by
  intro x s
  rw [hexec]
  refine ⟨by rw [encode, htuple]; rfl, fun t hx hc => ?taken, fun t hx hc hrip => ?notTaken,
    fun c hx => congrArg _ (branchInstr_of_target_error hx),
    fun t c hx hc => congrArg _ (branchInstr_of_cond_error hx hc)⟩
  case taken =>
    rw [branchInstr_taken hx hc, advance_some]
    rfl
  case notTaken =>
    rw [branchInstr_notTaken hx hc]
    exact next_advance hrip

theorem branchForm_of_flag {mk : Src → Instr} {o : Op} {f : Flag} {v : Bool}
    (htuple : ∀ x, (mk x).tuple = .ofBranch o x)
    (hexec : ∀ x s, exec (mk x) s = .next (branchInstr (flagIs f v) x s)) :
    BranchForm mk (standardOpcodeMap.number o) (flagReads f v) := by
  rw [flagReads_eq_flagIs]
  exact branchForm_of_exec htuple hexec

/-- Settles O36: each branch is `branchInstr` with its condition, and its tuple is that of a branch. -/
theorem branchForms : Obligations.BranchForms :=
  ⟨branchForm_of_exec (o := .jmp) (fun _ => rfl) (fun _ _ => rfl),
    branchForm_of_flag (o := .jz) (fun _ => rfl) (fun _ _ => rfl),
    branchForm_of_flag (o := .jnz) (fun _ => rfl) (fun _ _ => rfl),
    branchForm_of_flag (o := .jn) (fun _ => rfl) (fun _ _ => rfl),
    branchForm_of_flag (o := .jnn) (fun _ => rfl) (fun _ _ => rfl)⟩

end Sys2Proof.Machine
end

section
/-! The ALU's results (43_alu.md R180 to R184): the branches of the correction, which corrected results are in S32, and the
division by zero; O24 and O25. -/

namespace Sys2Proof.Machine

/-! ## The correction -/

theorem correct_of_ge {r : Int} (h : 2147483648 ≤ r) : correct r = (r - 2147483648, true) := if_pos h

theorem correct_of_le {r : Int} (h : r ≤ -2147483648) : correct r = (r + 2147483648, true) := by
  rw [correct, if_neg (by omega), if_pos h]

/-- The one exact result whose correction is -2^31 (R183). -/
theorem correct_eq_min {r : Int} : (correct r).1 = -2147483648 ↔ r = -4294967296 := by
  rw [correct]
  split
  · omega
  · split <;> omega

theorem correct_unshifted {r : Int} : (correct r).2 = false ↔ -2147483648 < r ∧ r < 2147483648 := by
  rw [correct]
  split
  · exact iff_of_false nofun (by omega)
  · split
    · exact iff_of_false nofun (by omega)
    · exact iff_of_true rfl (by omega)

/-- A result that one shift does not bring into S32 keeps its sign, is not 0, and sets OF. -/
theorem aluOut_of_unfit {r : Int} (h : 4294967296 ≤ r ∨ r < -4294967296) :
    aluOut r = ⟨(correct r).1, decide (r < 0), false, true⟩ := by
  rcases h with h | h
  · rw [aluOut, correct_of_ge (by omega), AluOut.mk.injEq]
    exact ⟨rfl, decide_eq_decide.mpr (by omega), decide_eq_false (by omega), rfl⟩
  · rw [aluOut, correct_of_le (by omega), AluOut.mk.injEq]
    exact ⟨rfl, decide_eq_decide.mpr (by omega), decide_eq_false (by omega), rfl⟩

theorem inS32_correct_eq_false {r : Int} :
    inS32 (correct r).1 = false ↔ 4294967296 ≤ r ∨ r < -4294967296 := by
  rw [← Bool.not_eq_true, inS32_correct]
  omega

/-! ## The exact results -/

theorem alu_ok {op : AluOp} {a b : Value} {o : AluOut} (h : alu op a b = .ok o) :
    ∃ r, aluRaw op a b = .ok r ∧ o = aluOut r := by
  unfold alu at h
  split at h <;> cases h
  exact ⟨_, ‹_›, rfl⟩

theorem toInt_between (v : Value) : -4294967296 < v.toInt ∧ v.toInt < 4294967296 := by
  have hv := toInt_bounds v
  omega

/-- A sum can reach -2^32, a product more; every other exact result lies strictly between -2^32 and 2^32. -/
theorem aluRaw_between {op : AluOp} {a b : Value} {r : Int} (h : aluRaw op a b = .ok r) (hmul : op ≠ .mul)
    (hadd : op ≠ .add) : -4294967296 < r ∧ r < 4294967296 := by
  have ha := toInt_bounds a
  have hb := toInt_bounds b
  cases op with
  | add => exact absurd rfl hadd
  | mul => exact absurd rfl hmul
  | sub | cmp =>
    cases h
    omega
  | div =>
    have hq := Int.natAbs_fdiv_le_natAbs a.toInt b.toInt
    simp only [aluRaw] at h
    split at h <;> cases h
    omega
  | mod =>
    simp only [aluRaw] at h
    split at h <;> cases h
    have hm := correct_unshifted.mp (congrArg Prod.snd (correct_fmod a b ‹_›))
    omega
  | xor | and | or =>
    cases h
    exact toInt_between _

/-- The one exact result of -2^32 outside the products is that of the sum of -2^31 and -2^31. -/
theorem aluRaw_fits {op : AluOp} {a b : Value} {r : Int} (h : aluRaw op a b = .ok r) (hmul : op ≠ .mul) :
    -4294967296 ≤ r ∧ r < 4294967296 ∧
      (r = -4294967296 ↔ op = .add ∧ a.toInt = -2147483648 ∧ b.toInt = -2147483648) := by
  by_cases hadd : op = .add
  · subst hadd
    cases h
    have ha := toInt_bounds a
    have hb := toInt_bounds b
    simp only [true_and]
    omega
  · obtain ⟨hlo, hhi⟩ := aluRaw_between h hmul hadd
    simp only [hadd, false_and, iff_false]
    omega

theorem alu_by_zero {op : AluOp} (hop : op = .div ∨ op = .mod) (a : Value) :
    alu op a 0#32 = .error (.divisionByZero a.toInt) := by
  rcases hop with rfl | rfl <;> rfl

/-! ## The obligations -/

/-- Settles O25: one case for each branch of the correction. -/
theorem correctionAndFlags : Obligations.CorrectionAndFlags := by
  intro op a b r h
  refine ⟨aluOut r, alu_of_raw h, fun hge => ?_, fun hle => ?_, fun hlo hhi => ?_, decide_eq_true_iff,
    decide_eq_true_iff⟩
  · simp only [aluOut, correct_of_ge hge, and_self]
  · simp only [aluOut, correct_of_le hle, and_self]
  · simp only [aluOut, correct_of_between hlo hhi, and_self]

/-- Settles O24: one shift brings an exact result in [-2^32, 2^32) into S32, which only products leave; it reaches -2^31
from -2^32 alone. -/
theorem aluResultRange : Obligations.AluResultRange := by
  refine ⟨fun op a b o ho hmul => ?_, fun a b o ho => ?_,
    fun v s hv => ⟨fun r => writeReg_error.mpr ⟨hv, rfl⟩, fun a => writePayload_error.mpr (.inl ⟨hv, rfl⟩)⟩⟩
  · obtain ⟨r, hr, rfl⟩ := alu_ok ho
    obtain ⟨hlo, hhi, hmin⟩ := aluRaw_fits hr hmul
    have hS32 : -2147483648 ≤ (correct r).1 ∧ (correct r).1 ≤ 2147483647 :=
      of_decide_eq_true (inS32_correct.mpr ⟨hlo, hhi⟩)
    refine ⟨hS32.1, Int.lt_of_le_of_lt hS32.2 (by decide), correct_eq_min.trans hmin, fun hres => ?_⟩
    obtain rfl := correct_eq_min.mp hres
    exact ⟨rfl, rfl⟩
  · obtain ⟨r, hr, rfl⟩ := alu_ok ho
    cases hr
    exact inS32_correct_eq_false

end Sys2Proof.Machine
end

section
/-! The ALU instructions that complete (43_alu.md R185, R190 to R198): the next address exists, so the advance goes to it;
O28, O29 and O30. -/

namespace Sys2Proof.Machine

open Sys2Proof.Claims

theorem registerForm {op : AluOp} {mk : Dest → Src → Instr} {f : Value → Value → Int}
    {defined : Value → Value → Prop} (h : WritingAlu op mk f defined) : RegisterForm mk f defined := by
  intro r src s a b ha hb hdef hrip
  have hfit := h.inS32_result hdef
  have hnext : (setReg r (BitVec.ofInt 32 (correct (f a b)).1) (afterAlu (aluOut (f a b)) s)).rip.toInt =
      if r = .rip then (correct (f a b)).1 else s.rip.toInt := by
    rw [toInt_rip_setReg, toInt_ofInt hfit]
    rfl
  have hrun := aluRegister_write h.ne_cmp ha hb (h.alu_eq hdef) hfit
  rw [h.exec_eq, aluInstr, hrun, ← hnext]
  refine (next_advance (s := stepEnd _) fun htop => hrip (hnext.symm.trans htop)).trans ?_
  cases r <;> rfl

theorem memoryForm {op : AluOp} {mk : Dest → Src → Instr} {f : Value → Value → Int}
    {defined : Value → Value → Prop} (h : WritingAlu op mk f defined) : MemoryForm mk f defined := by
  intro d src s p a b hd ha hb hdef hrip
  rw [h.exec_eq, aluInstr_mem hd, aluMemory_write h.ne_cmp hd ha hb (h.alu_eq hdef) (h.inS32_result hdef)]
  exact next_advance hrip

/-- Settles O28: the register form that all eight share. -/
theorem aluRegisterForms : Obligations.AluRegisterForms := eachWritingAlu_of registerForm

/-- Settles O29: the memory form that all eight share. -/
theorem aluMemoryForms : Obligations.AluMemoryForms := eachWritingAlu_of memoryForm

/-- Settles O30: `cmp` hands the ALU's flags to its advance, in the memory form after a third, empty micro-step. -/
theorem compareSetsFlagsOnly : Obligations.CompareSetsFlagsOnly := by
  intro src s a b hb hrip
  refine ⟨fun r ha => ?_, fun d p hd ha => ?_⟩
  · exact (congrArg _ (aluRegister_cmp ha hb rfl)).trans (next_advance hrip)
  · exact (congrArg _ ((aluInstr_mem hd).trans (aluMemory_cmp hd ha hb rfl))).trans (next_advance hrip)

end Sys2Proof.Machine
end

section
/-! The ALU instructions that raise (43_alu.md R183, R184, R186, 40_control_cycle.md R118): at the left read, at the right
read or the ALU before a flag is written, and at the write after the flags; O27, O31 and O32. -/

namespace Sys2Proof.Machine

open Sys2Proof.Claims

section
variable {op : AluOp} {r : Reg} {d : Dest} {src : Src} {s : State} {p : Int} {a b : Value} {c : Cond} {o : AluOut}

/-! ## The left read -/

theorem leftOperand_of_resolveDest_error (h : resolveDest d s = .error c) :
    resolveValue (leftOperand d) s = .error c := by
  cases d with
  | reg r | direct a => cases h
  | indirect a => exact resolveValue_indirect_error (bind_pure_error.mp h)

theorem aluRegister_of_left_error (h : readReg r s = .error c) : aluRegister op r src s = raise c s := by
  refine micro_error ?_
  exact bind_error.mpr (.inl h)

theorem aluMemory_of_left_error (h : resolveValue (leftOperand d) s = .error c) :
    aluMemory op d src s = raise c s := by
  refine micro_error ?_
  exact bind_pure_error.mpr h

/-- In each form the left read comes first. -/
theorem aluInstr_of_left_error (h : resolveValue (leftOperand d) s = .error c) :
    aluInstr op d src s = raise c s := by
  cases d with
  | reg r => exact aluRegister_of_left_error h
  | direct a | indirect a => exact aluMemory_of_left_error h

/-! ## The right read and the ALU -/

theorem aluApply_of_src_error (h : resolveValue src s = .error c) : aluApply op a src s = .error c :=
  bind_error.mpr (.inl h)

theorem aluApply_of_alu_error (hb : resolveValue src s = .ok b) (h : alu op a b = .error c) :
    aluApply op a src s = .error c :=
  bind_error.mpr (.inr ⟨b, hb, bind_error.mpr (.inl h)⟩)

theorem aluRegister_of_apply_error (ha : readReg r s = .ok a) (h : aluApply op a src s = .error c) :
    aluRegister op r src s = raise c s := by
  refine micro_error ?_
  exact bind_error.mpr (.inr ⟨a, ha, h⟩)

/-- In the memory form the left read has its own tick. -/
theorem aluInstr_mem_of_apply_error (hd : resolveDest d s = .ok (.mem p)) (ha : readPayload p s = .ok a)
    (h : aluApply op a src (stepEnd s) = .error c) : aluInstr op d src s = raise c (stepEnd s) := by
  have hleft : resolveValue (leftOperand d) s = .ok a := (leftOperand_mem hd).trans ha
  rw [aluInstr_mem hd]
  exact (micro_ok (bind_pure_ok.mpr ⟨a, hleft, rfl⟩)).trans (micro_error h)

/-! ## The write -/

theorem aluRegister_of_unfit (hop : op ≠ .cmp) (ha : readReg r s = .ok a) (hb : resolveValue src s = .ok b)
    (ho : alu op a b = .ok o) (h : inS32 o.result = false) :
    aluRegister op r src s = raise (.valueOutOfRange o.result) (afterAlu o s) := by
  have hwrite : writeReg r o.result (afterAlu o s) = .error (.valueOutOfRange o.result) :=
    writeReg_error.mpr ⟨h, rfl⟩
  refine (micro_ok (a := o.result) (t := setFlags o s) (by simp [ha, aluApply_of_ok hb ho])).trans ?_
  cases op with
  | cmp => exact absurd rfl hop
  | add | sub | mul | div | mod | xor | and | or => exact micro_error (bind_pure_error.mpr hwrite)

theorem aluInstr_mem_of_unfit (hop : op ≠ .cmp) (hd : resolveDest d s = .ok (.mem p)) (ha : readPayload p s = .ok a)
    (hb : resolveValue src s = .ok b) (ho : alu op a b = .ok o) (h : inS32 o.result = false) :
    aluInstr op d src s = raise (.valueOutOfRange o.result) (afterAlu o (stepEnd s)) := by
  have hleft : resolveValue (leftOperand d) s = .ok a := (leftOperand_mem hd).trans ha
  have happly := aluApply_of_ok (s := stepEnd s) ((resolveValue_stepEnd src s).trans hb) ho
  have hdest : resolveDest d (afterAlu o (stepEnd s)) = .ok (.mem p) := by
    rw [resolveDest_afterAlu, resolveDest_stepEnd, hd]
  have hwrite : writeDest d o.result (afterAlu o (stepEnd s)) = .error (.valueOutOfRange o.result) :=
    bind_error.mpr (.inr ⟨_, hdest, writePayload_error.mpr (.inl ⟨h, rfl⟩)⟩)
  rw [aluInstr_mem hd]
  refine (micro_ok (bind_pure_ok.mpr ⟨a, hleft, rfl⟩)).trans ((micro_ok happly).trans (micro_error ?_))
  rw [aluStore_write hop]
  exact bind_pure_error.mpr hwrite

end

/-! ## The nine instructions -/

/-- The instruction that applies an operation of the ALU (43_alu.md R190 to R198). -/
def AluOp.instr : AluOp → Dest → Src → Instr
  | .add => .add
  | .sub => .sub
  | .mul => .mul
  | .div => .div
  | .mod => .mod
  | .xor => .xor
  | .and => .and
  | .or => .or
  | .cmp => .cmp

theorem exec_aluInstr (op : AluOp) (d : Dest) (src : Src) (s : State) :
    exec (op.instr d src) s = .next (aluInstr op d src s) := by
  cases op <;> rfl

theorem exists_aluOp_of_mem {mk : Dest → Src → Instr}
    (h : mk ∈ [Instr.add, .sub, .mul, .div, .mod, .xor, .and, .or, .cmp]) : ∃ op : AluOp, mk = op.instr := by
  have hmap : mk ∈ [AluOp.add, .sub, .mul, .div, .mod, .xor, .and, .or, .cmp].map AluOp.instr := h
  obtain ⟨op, -, hop⟩ := List.mem_map.mp hmap
  exact ⟨op, hop.symm⟩

/-! ## The obligations -/

/-- Settles O32: whichever of the nine it is, the left read comes before the right one and both before the ALU. -/
theorem aluOperandRaises : Obligations.AluOperandRaises := by
  intro mk hmk
  obtain ⟨op, rfl⟩ := exists_aluOp_of_mem hmk
  simp only [exec_aluInstr]
  refine ⟨fun r src s c h => ?_, fun d src s p c hd => ⟨fun ha => ?_, fun ⟨a, ha⟩ hb => ?_⟩, fun d src s c hd => ?_⟩
  · rcases h with ha | ⟨⟨a, ha⟩, hb⟩
    · exact congrArg _ (aluInstr_of_left_error ha)
    · exact congrArg _ (aluRegister_of_apply_error ha (aluApply_of_src_error hb))
  · exact congrArg _ (aluInstr_of_left_error ((leftOperand_mem hd).trans ha))
  · have hb' : resolveValue src (stepEnd s) = .error c := (resolveValue_stepEnd src s).trans hb
    exact congrArg _ (aluInstr_mem_of_apply_error hd ha (aluApply_of_src_error hb'))
  · exact congrArg _ (aluInstr_of_left_error (leftOperand_of_resolveDest_error hd))

/-- Settles O27: the ALU call by zero raises in the micro-step that reads the right operand. -/
theorem divideByZeroRaises : Obligations.DivideByZeroRaises := by
  intro mk hmk
  obtain ⟨op, hop, rfl⟩ : ∃ op : AluOp, (op = .div ∨ op = .mod) ∧ mk = op.instr := by
    rcases hmk with rfl | rfl
    · exact ⟨.div, .inl rfl, rfl⟩
    · exact ⟨.mod, .inr rfl, rfl⟩
  simp only [exec_aluInstr]
  refine ⟨fun r src s a b ha hb h0 => ?_, fun d src s p a b hd ha hb h0 => ?_⟩ <;> subst h0
  · exact congrArg _ (aluRegister_of_apply_error ha (aluApply_of_alu_error hb (alu_by_zero hop a)))
  · have hb' : resolveValue src (stepEnd s) = .ok 0#32 := (resolveValue_stepEnd src s).trans hb
    exact congrArg _ (aluInstr_mem_of_apply_error hd ha (aluApply_of_alu_error hb' (alu_by_zero hop a)))

/-- Settles O31: the flags of a product that does not fit are written before its write-back raises. -/
theorem productOutOfRangeRaises : Obligations.ProductOutOfRangeRaises := by
  intro src s a b hb h
  have hunfit := inS32_correct_eq_false.mpr h
  have ho : alu .mul a b = .ok (aluOut (a.toInt * b.toInt)) := rfl
  rw [aluOut_of_unfit h] at ho
  refine ⟨fun r ha => ?_, fun d p hd ha => ?_⟩
  · exact congrArg _ (aluRegister_of_unfit (op := .mul) nofun ha hb ho hunfit)
  · exact congrArg _ (aluInstr_mem_of_unfit (op := .mul) nofun hd ha hb ho hunfit)

end Sys2Proof.Machine
end

section
/-! What a destination write and an ALU instruction leave unchanged, whatever the outcome (43_alu.md R185, R198,
20_memory.md R56, R60); O56. -/

namespace Sys2Proof.Machine

open Sys2Proof.Claims

/-! ## A destination write -/

theorem SameReads.regsKept {s t : State} (h : SameReads s t) (rs : List Reg) : RegsKept rs s t := fun r _ => h.regs r

theorem memKept_setReg (r : Reg) (v : Value) (s : State) : MemKept s (setReg r v s) :=
  memKept_of_held (setReg_params s r v) (held_setReg r v s)

theorem memKept_advance (x : Option Value) (s : State) : MemKept s (advance x s) :=
  memKept_of_held (params_of_modes (modes_advance x s)) (held_advance x s)

theorem regsKept_writeDest {rs : List Reg} {d : Dest} {v : Int} {s t : State} (h : writeDest d v s = .ok t)
    (hd : ∀ r, d = .reg r → r ∈ rs) : RegsKept rs s t := by
  obtain ⟨l, hl, hw⟩ := writeDest_ok.mp h
  obtain ⟨-, ⟨r, rfl, rfl⟩ | ⟨a, -, -, rfl⟩⟩ := writeLoc_ok hw
  · have hreg : d = .reg r := by
      cases d with
      | reg r' =>
        cases hl
        rfl
      | direct a => cases hl
      | indirect a =>
        obtain ⟨p, -, hp⟩ := bind_pure_ok.mp hl
        cases hp
    exact regsKept_setReg (regsKept_refl rs s) (hd r hreg) _
  · exact fun r _ => by cases r <;> rfl

theorem storesOnlyAt_writeDest {d : Dest} {v : Int} {s t : State} (h : writeDest d v s = .ok t) :
    StoresOnlyAt (resolveDest d s) s t := by
  intro a ha
  obtain ⟨l, hl, hw⟩ := writeDest_ok.mp h
  obtain ⟨-, ⟨r, rfl, rfl⟩ | ⟨p, rfl, hin, rfl⟩⟩ := writeLoc_ok hw
  · exact memKept_setReg _ _ s a
  · refine memRead_put_other hin fun hap => ha ?_
    rw [hl, hap]

/-! ## An ALU instruction -/

/-- How an ALU instruction can end from `s`: it raises, advances, or writes its destination and then advances, each in a
state whose reads are still those of `s`. -/
inductive AluEnd (op : AluOp) (d : Dest) (s : State) : State → Prop
  | raised {t : State} (ht : SameReads s t) (c : Cond) : AluEnd op d s (raise c t)
  | advanced {t : State} (ht : SameReads s t) : AluEnd op d s (advance none t)
  | wrote {t u : State} {v : Int} (ht : SameReads s t) (hop : op ≠ .cmp) (hw : writeDest d v t = .ok u) :
    AluEnd op d s (advance none (stepEnd u))

theorem sameReads_afterAlu (o : AluOut) (s : State) : SameReads s (afterAlu o s) :=
  (sameReads_setFlags o s).trans (sameReads_stepEnd _)

theorem aluEnd_aluRegister (op : AluOp) (r : Reg) (src : Src) (s : State) :
    AluEnd op (.reg r) s (aluRegister op r src s) := by
  rcases aluRegister_cases op r src s with
    ⟨c, -, h⟩ | ⟨a, c, -, -, h⟩ | ⟨a, b, c, -, -, -, h⟩ | ⟨a, b, o, -, -, -, ⟨-, h⟩ | ⟨-, -, h⟩ | ⟨hop, hfit, h⟩⟩ <;>
    rw [h]
  iterate 3 exact .raised (.refl s) c
  · exact .advanced (sameReads_afterAlu o s)
  · exact .raised (sameReads_afterAlu o s) _
  · exact .wrote (sameReads_afterAlu o s) hop (writeReg_ok.mpr ⟨hfit, rfl⟩)

theorem aluEnd_aluMemory (op : AluOp) (d : Dest) (src : Src) (s : State) : AluEnd op d s (aluMemory op d src s) := by
  have hread := sameReads_stepEnd s
  have halu (o : AluOut) := hread.trans (sameReads_afterAlu o _)
  rcases aluMemory_cases op d src s with
    ⟨c, -, h⟩ | ⟨a, c, -, -, h⟩ | ⟨a, b, c, -, -, -, h⟩ | ⟨a, b, o, -, -, -, ⟨-, h⟩ | ⟨c, -, -, h⟩ | ⟨t, hop, hw, h⟩⟩ <;>
    rw [h]
  · exact .raised (.refl s) c
  · exact .raised hread c
  · exact .raised hread c
  · exact .advanced ((halu o).trans (sameReads_stepEnd _))
  · exact .raised (halu o) c
  · exact .wrote (halu o) hop hw

theorem aluEnd_aluInstr (op : AluOp) (d : Dest) (src : Src) (s : State) : AluEnd op d s (aluInstr op d src s) := by
  cases d with
  | reg r => exact aluEnd_aluRegister op r src s
  | direct a => exact aluEnd_aluMemory op (.direct a) src s
  | indirect a => exact aluEnd_aluMemory op (.indirect a) src s

theorem AluEnd.regsKept {op : AluOp} {d : Dest} {rs : List Reg} {s t : State} (h : AluEnd op d s t)
    (hrip : .rip ∈ rs) (hd : op ≠ .cmp → ∀ r, d = .reg r → r ∈ rs) : RegsKept rs s t := by
  cases h with
  | raised ht c => exact regsKept_raise (ht.regsKept rs) c
  | advanced ht => exact regsKept_advance (ht.regsKept rs) hrip none
  | @wrote _ u _ ht hop hw =>
    have hu : RegsKept rs s u := fun r hr => (regsKept_writeDest hw (hd hop) r hr).trans (ht.regs r)
    exact regsKept_advance (regsKept_stepEnd hu) hrip none

/-- Every address but that of the cell the destination names reads as before; for `cmp`, every address. -/
theorem AluEnd.memRead {op : AluOp} {d : Dest} {s t : State} {a : Int} (h : AluEnd op d s t)
    (ha : op ≠ .cmp → resolveDest d s ≠ .ok (.mem a)) : memRead a t = memRead a s := by
  cases h with
  | raised ht c => rw [memRead_raise, ht.memRead]
  | advanced ht => rw [memKept_advance, ht.memRead]
  | wrote ht hop hw =>
    have hother : resolveDest d _ ≠ .ok (.mem a) := ht.resolveDest d ▸ ha hop
    rw [memKept_advance, memRead_stepEnd, storesOnlyAt_writeDest hw a hother, ht.memRead]

theorem queuesKept_aluInstr (op : AluOp) (d : Dest) (src : Src) (s : State) :
    QueuesKept s (aluInstr op d src s) :=
  ⟨(dataStored_aluInstr op d src s).inq, (dataStored_aluInstr op d src s).outq⟩

theorem controlKept_aluInstr (op : AluOp) (d : Dest) (src : Src) (s : State) :
    ControlKept s (aluInstr op d src s) := by
  have hicount := (runs_aluInstr (op := op) (d := d) rfl src s).icount
  rcases modes_aluInstr op d src s with h | ⟨o, h⟩
  · exact ⟨params_of_modes h, trap_of_modes h, hicount⟩
  · exact ⟨params_of_modes (s := setFlags o s) h, trap_of_modes (s := setFlags o s) h, hicount⟩

/-- Settles O56: flags, ticks and `rip` apart, the nine write at most the destination, and `cmp` not even that. -/
theorem aluInstructionFrame : Obligations.AluInstructionFrame := by
  refine ⟨fun mk hmk d src s t h => ?_, fun d src s t h => ?_⟩
  · obtain ⟨op, rfl⟩ := exists_aluOp_of_mem (List.mem_append_left [Instr.cmp] hmk)
    obtain rfl : aluInstr op d src s = t := Host.Outcome.next.inj ((exec_aluInstr op d src s).symm.trans h)
    have hend := aluEnd_aluInstr op d src s
    refine ⟨?_, fun a ha => hend.memRead fun _ => ha, queuesKept_aluInstr op d src s, controlKept_aluInstr op d src s⟩
    cases d with
    | reg r => exact hend.regsKept (by simp) fun _ x hx => by simp [Dest.reg.inj hx]
    | direct a | indirect a => exact hend.regsKept (List.mem_singleton_self _) fun _ _ hx => by cases hx
  · obtain rfl : aluInstr .cmp d src s = t := Host.Outcome.next.inj h
    have hend := aluEnd_aluInstr .cmp d src s
    exact ⟨hend.regsKept (List.mem_singleton_self _) (absurd rfl), fun a => hend.memRead (absurd rfl),
      queuesKept_aluInstr .cmp d src s, controlKept_aluInstr .cmp d src s⟩

end Sys2Proof.Machine
end

section
/-! `mov`, `movo` and `movi` (44_move_port.md R220 to R222): the state each hands to its advance where it completes, the
check that fails first where it raises, and what each leaves unchanged; O37 to O41 and O57. -/

namespace Sys2Proof.Machine

open Sys2Proof.Claims

section
variable {r : Reg} {d : Dest} {src : Src} {port v : Value} {s : State} {c : Cond}

/-! ## Moves and port reads that complete -/

theorem next_advance_setReg (h : (if r = .rip then v.toInt else s.rip.toInt) ≠ top) :
    (.next (advance none (stepEnd (setReg r v s))) : Host.Outcome State Fault Refusal) =
      .next { setReg r v s with
        tick := s.tick + 1, rip := BitVec.ofInt 32 ((if r = .rip then v.toInt else s.rip.toInt) + 1) } := by
  have hrip := toInt_rip_setReg r v s
  rw [← hrip] at h ⊢
  rw [next_advance (s := stepEnd _) h, stepEnd, setReg_tick]

theorem exec_mov_reg (hv : resolveValue src s = .ok v) :
    exec (.mov (.reg r) src) s = .next (advance none (stepEnd (setReg r v s))) :=
  congrArg _ (movOneStep_of_ok hv (writeDest_reg r v s))

/-- Settles O37: the register form takes one micro-step, and the memory form as many as its source asks for. -/
theorem movCopies : Obligations.MovCopies := by
  refine fun src s v hv => ⟨fun r hrip => ?_, fun d p hd h0 h1 hrip => ?_⟩
  · exact (exec_mov_reg hv).trans (next_advance_setReg hrip)
  · rw [exec_mov_mem hv hd (inMemory_iff.mpr ⟨h0, h1⟩)]
    cases src <;> exact next_advance hrip

/-- Settles O40: the head token's value is written in a state that differs only in its input queue. -/
theorem moviReadsToken : Obligations.MoviReadsToken := by
  intro s e rest v hq he
  have hread := portRead_inPort hq (tokenValue_of_holds he)
  refine ⟨fun r hrip => ?_, fun d p hd h0 h1 hrip => ?_⟩
  · have hrun := execMovi_of_ok (resolveDest_reg r s) hread (writeDest_reg r v { s with inq := rest })
    refine hrun.trans ((next_advance_setReg (s := { s with inq := rest }) hrip).trans ?_)
    cases r <;> rfl
  · have hwrite : writeLoc (.mem p) v.toInt { s with inq := rest } =
        .ok { s with inq := rest, mem := s.mem.put p.toNat (dataword v) } :=
      writePayload_ok.mpr ⟨inS32_toInt v, inMemory_iff.mpr ⟨h0, h1⟩, by rw [BitVec.ofInt_toInt]⟩
    exact (execMovi_of_ok hd hread hwrite).trans (next_advance hrip)

/-! ## `mov` that raises -/

theorem exec_mov (d : Dest) (src : Src) (s : State) : exec (.mov d src) s =
    .next (if destInMemory d && srcInMemory src then movTwoSteps d src s else movOneStep d src s) := rfl

theorem exec_mov_of_src_error (h : resolveValue src s = .error c) : exec (.mov d src) s = .next (raise c s) := by
  have hone : movOneStep d src s = raise c s := micro_error (bind_error.mpr (.inl h))
  have htwo : movTwoSteps d src s = raise c s := micro_error (bind_error.mpr (.inl h))
  rw [exec_mov, hone, htwo, ite_self]

/-- A value in S32 is refused only by a destination that does not resolve, or that names a cell outside memory. -/
theorem writeDest_toInt_error : writeDest d v.toInt s = .error c ↔
    resolveDest d s = .error c ∨
      ∃ p, resolveDest d s = .ok (.mem p) ∧ inMemory p s = false ∧ c = .addressOutOfRange p := by
  refine bind_error.trans (or_congr_right ⟨?_, ?_⟩)
  · rintro ⟨l, hl, hw⟩
    rcases writeLoc_error hw with ⟨hfit, -⟩ | ⟨p, rfl, -, hout, hc⟩
    · exact absurd (inS32_toInt v) (by simp [hfit])
    · exact ⟨p, hl, hout, hc⟩
  · rintro ⟨p, hl, hout, rfl⟩
    exact ⟨.mem p, hl, writePayload_of_not_inMemory hout v⟩

theorem writeDest_stepEnd_error (h : writeDest d v.toInt s = .error c) :
    writeDest d v.toInt (stepEnd s) = .error c := by
  rw [writeDest_toInt_error] at h ⊢
  simpa only [resolveDest_stepEnd, inMemory_stepEnd] using h

theorem destInMemory_of_write_error (h : writeDest d v.toInt s = .error c) : destInMemory d = true := by
  cases d with
  | reg r => cases (writeDest_reg r v s).symm.trans h
  | direct a | indirect a => rfl

/-- A raise at the write keeps the tick of the read where the source is in memory too. -/
theorem exec_mov_of_write_error (hv : resolveValue src s = .ok v) (h : writeDest d v.toInt s = .error c) :
    exec (.mov d src) s = .next (raise c (if srcInMemory src then stepEnd s else s)) := by
  have hone : movOneStep d src s = raise c s :=
    micro_error (bind_error.mpr (.inr ⟨v, hv, bind_pure_error.mpr h⟩))
  have htwo : movTwoSteps d src s = raise c (stepEnd s) :=
    (micro_ok (bind_pure_ok.mpr ⟨v, hv, rfl⟩)).trans (micro_error (bind_pure_error.mpr (writeDest_stepEnd_error h)))
  rw [exec_mov, hone, htwo, destInMemory_of_write_error h, Bool.true_and, apply_ite (raise c)]

/-- Settles O38: the source is read before the destination is resolved and written. -/
theorem movRaises : Obligations.MovRaises := by
  refine fun d src s => ⟨fun c hc => exec_mov_of_src_error hc, fun v hv c hc => ?_⟩
  have hwrite : writeDest d v.toInt s = .error c :=
    writeDest_toInt_error.mpr (by simpa only [inMemory_eq_false_iff] using hc)
  rw [exec_mov_of_write_error hv hwrite]
  cases src <;> rfl

/-! ## Port checks -/

theorem portWrite_of_ne (h : port ≠ 1#32) (v : Int) (s : State) :
    portWrite port.toInt v s = .error (.illegalPort port.toInt) :=
  if_pos fun hp => h (BitVec.eq_of_toInt_eq hp)

theorem portWrite_of_not_codePoint {v : Int} (h : v < 0 ∨ 1114111 < v) (s : State) :
    portWrite (1#32 : Value).toInt v s = .error (.illegalCharacter v) :=
  (if_neg (not_not_intro rfl)).trans (if_pos h)

theorem portRead_of_ne (h : port ≠ 0#32) (s : State) : portRead port.toInt s = .error (.illegalPort port.toInt) :=
  if_pos fun hp => h (BitVec.eq_of_toInt_eq hp)

theorem portRead_of_empty (h : s.inq = []) : portRead (0#32 : Value).toInt s = .error .inputExhausted := by
  simp [portRead, Config.inPort, h]

/-! ## `movo` -/

theorem exec_movo_of_src_error (h : resolveValue src s = .error c) :
    exec (.movo port src) s = .next (raise c s) :=
  congrArg _ (micro_error (bind_error.mpr (.inl h)))

theorem exec_movo_of_port_error (hv : resolveValue src s = .ok v) (h : portWrite port.toInt v.toInt s = .error c) :
    exec (.movo port src) s = .next (raise c s) :=
  congrArg _ (micro_error (bind_error.mpr (.inr ⟨v, hv, bind_pure_error.mpr h⟩)))

/-- Settles O39: after the source, the port write checks the port and then the code point. -/
theorem movoAppendsCharacter : Obligations.MovoAppendsCharacter := by
  refine fun port src s => ⟨fun c hc => exec_movo_of_src_error hc, fun v hv => ⟨fun hport => ?_, ?_, ?_⟩⟩
  · exact exec_movo_of_port_error hv (portWrite_of_ne hport _ s)
  · rintro rfl hrange
    exact exec_movo_of_port_error hv (portWrite_of_not_codePoint hrange s)
  · rintro rfl h0 h1 hrip
    have hchar : v.toInt = ((⟨v.toInt.toNat, by omega⟩ : CodePoint).val : Int) := (Int.toNat_of_nonneg h0).symm
    exact ⟨_, hchar.symm, (execMovo_of_ok hv (portWrite_outPort hchar s)).trans (next_advance hrip)⟩

/-! ## `movi` that raises -/

theorem exec_movi_of_dest_error (h : resolveDest d s = .error c) : exec (.movi d port) s = .next (raise c s) :=
  congrArg _ (micro_error (bind_error.mpr (.inl h)))

theorem exec_movi_of_port_error {l : Loc} (hl : resolveDest d s = .ok l) (h : portRead port.toInt s = .error c) :
    exec (.movi d port) s = .next (raise c s) :=
  congrArg _ (micro_error (bind_error.mpr (.inr ⟨l, hl, bind_error.mpr (.inl h)⟩)))

/-- The raise is in the state before the pop (44_move_port.md R222). -/
theorem exec_movi_of_write_error {l : Loc} {t : State} (hl : resolveDest d s = .ok l)
    (hr : portRead port.toInt s = .ok (v, t)) (h : writeLoc l v.toInt t = .error c) :
    exec (.movi d port) s = .next (raise c s) :=
  congrArg _ (micro_error (bind_error.mpr
    (.inr ⟨l, hl, bind_error.mpr (.inr ⟨(v, t), hr, bind_pure_error.mpr h⟩)⟩)))

/-- Settles O41: the destination is resolved before the port is read, and written after it. -/
theorem moviRaises : Obligations.MoviRaises := by
  refine fun d port s => ⟨fun c hc => exec_movi_of_dest_error hc, fun l hl => ⟨fun hport => ?_, ?_, ?_⟩⟩
  · exact exec_movi_of_port_error hl (portRead_of_ne hport s)
  · rintro rfl hempty
    exact exec_movi_of_port_error hl (portRead_of_empty hempty)
  · rintro p rfl hne rfl hp
    obtain ⟨e, rest, hq⟩ := List.exists_cons_of_ne_nil hne
    have hout : inMemory p { s with inq := rest } = false := inMemory_eq_false_iff.mpr hp
    exact exec_movi_of_write_error hl (portRead_inPort hq rfl) (writePayload_of_not_inMemory hout _)

end

/-! ## What the three leave unchanged -/

/-- How `mov` and `movi` can end from `s`: each raises, or writes its destination and advances, in a state whose reads
are still those of `s`. -/
inductive MoveEnd (d : Dest) (s : State) : State → Prop
  | raised {t : State} (ht : SameReads s t) (c : Cond) : MoveEnd d s (raise c t)
  | wrote {t u : State} {v : Int} (ht : SameReads s t) (hw : writeDest d v t = .ok u) :
    MoveEnd d s (advance none (stepEnd u))

theorem moveEnd_movOneStep (d : Dest) (src : Src) (s : State) : MoveEnd d s (movOneStep d src s) := by
  rcases movOneStep_cases d src s with ⟨c, -, h⟩ | ⟨v, c, -, -, h⟩ | ⟨v, t, -, hw, h⟩ <;> rw [h]
  · exact .raised (.refl s) c
  · exact .raised (.refl s) c
  · exact .wrote (.refl s) hw

theorem moveEnd_movTwoSteps (d : Dest) (src : Src) (s : State) : MoveEnd d s (movTwoSteps d src s) := by
  rcases movTwoSteps_cases d src s with ⟨c, -, h⟩ | ⟨v, c, -, -, h⟩ | ⟨v, t, -, hw, h⟩ <;> rw [h]
  · exact .raised (.refl s) c
  · exact .raised (sameReads_stepEnd s) c
  · exact .wrote (sameReads_stepEnd s) hw

theorem moveEnd_exec_mov {d : Dest} {src : Src} {s t : State} (h : exec (.mov d src) s = .next t) :
    MoveEnd d s t := by
  obtain rfl := Host.Outcome.next.inj ((exec_mov d src s).symm.trans h)
  split
  · exact moveEnd_movTwoSteps d src s
  · exact moveEnd_movOneStep d src s

theorem sameReads_portRead {p : Int} {v : Value} {s t : State} (h : portRead p s = .ok (v, t)) : SameReads s t := by
  obtain ⟨-, e, rest, -, -, rfl⟩ := portRead_ok h
  exact ⟨rfl, fun r => by cases r <;> rfl, rfl⟩

theorem sameReads_portWrite {p v : Int} {s t : State} (h : portWrite p v s = .ok t) : SameReads s t := by
  obtain ⟨-, -, -, rfl⟩ := portWrite_ok h
  exact ⟨rfl, fun r => by cases r <;> rfl, rfl⟩

theorem moveEnd_exec_movi {d : Dest} {port : Value} {s t : State} (h : exec (.movi d port) s = .next t) :
    MoveEnd d s t := by
  rcases execMovi_cases d port s with
    ⟨c, -, e⟩ | ⟨l, c, -, -, e⟩ | ⟨l, v, u, c, -, -, -, e⟩ | ⟨l, v, u, w, hl, hr, hw, e⟩ <;>
    obtain rfl := Host.Outcome.next.inj (e.symm.trans h)
  iterate 3 exact .raised (.refl s) c
  · have hsame := sameReads_portRead hr
    exact .wrote hsame (writeDest_ok.mpr ⟨l, (hsame.resolveDest d).trans hl, hw⟩)

/-- The registers a move to a destination can change: `rip`, and the one it names (20_memory.md R60). -/
def writableRegs : Dest → List Reg
  | .reg r => [r, .rip]
  | .direct _ | .indirect _ => [.rip]

theorem rip_mem_writableRegs (d : Dest) : .rip ∈ writableRegs d := by
  cases d <;> simp [writableRegs]

theorem mem_writableRegs {d : Dest} {r : Reg} (h : d = .reg r) : r ∈ writableRegs d := by
  simp [h, writableRegs]

theorem MoveEnd.regsKept {d : Dest} {s t : State} (h : MoveEnd d s t) : RegsKept (writableRegs d) s t := by
  cases h with
  | raised ht c => exact regsKept_raise (ht.regsKept _) c
  | @wrote _ u _ ht hw =>
    have hu : RegsKept (writableRegs d) s u := fun r hr =>
      (regsKept_writeDest hw (fun _ => mem_writableRegs) r hr).trans (ht.regs r)
    exact regsKept_advance (regsKept_stepEnd hu) (rip_mem_writableRegs d) none

theorem MoveEnd.storesOnlyAt {d : Dest} {s t : State} (h : MoveEnd d s t) : StoresOnlyAt (resolveDest d s) s t := by
  intro a ha
  cases h with
  | raised ht c => rw [memRead_raise, ht.memRead]
  | wrote ht hw =>
    have hother : resolveDest d _ ≠ .ok (.mem a) := ht.resolveDest d ▸ ha
    rw [memKept_advance, memRead_stepEnd, storesOnlyAt_writeDest hw a hother, ht.memRead]

theorem exec_movo_keeps {port : Value} {src : Src} {s t : State} (h : exec (.movo port src) s = .next t) :
    RegsKept [.rip] s t ∧ MemKept s t := by
  have hraise (c : Cond) : RegsKept [.rip] s (raise c s) ∧ MemKept s (raise c s) :=
    ⟨regsKept_raise (regsKept_refl _ s) c, fun a => memRead_raise a c s⟩
  rcases execMovo_cases port src s with ⟨c, -, e⟩ | ⟨v, c, -, -, e⟩ | ⟨v, u, -, hw, e⟩ <;>
    obtain rfl := Host.Outcome.next.inj (e.symm.trans h)
  · exact hraise c
  · exact hraise c
  · have hsame := (sameReads_portWrite hw).trans (sameReads_stepEnd u)
    exact ⟨regsKept_advance (hsame.regsKept _) (List.mem_singleton_self _) none,
      fun a => (memKept_advance none _ a).trans (hsame.memRead a)⟩

/-- Settles O57: `mov` and `movi` write at most their destination, `movo` only the output, and each then advances or
raises. -/
theorem moveInstructionFrame : Obligations.MoveInstructionFrame := by
  obtain ⟨hports, -⟩ := portsChangeOnlyByPortInstructions
  refine fun d src port s t => ⟨fun h => ?_, fun h => ?_, fun h => ?_⟩
  · have hend := moveEnd_exec_mov h
    obtain ⟨hin, -, hout, -⟩ := hports _ s t h
    refine ⟨?_, exec_flagsKept rfl h, hend.storesOnlyAt, ⟨hin nofun, hout nofun⟩, exec_controlKept h nofun nofun⟩
    cases d <;> exact hend.regsKept
  · obtain ⟨hregs, hmem⟩ := exec_movo_keeps h
    obtain ⟨hin, -⟩ := hports _ s t h
    exact ⟨hregs, exec_flagsKept rfl h, hmem, hin nofun, exec_controlKept h nofun nofun⟩
  · have hend := moveEnd_exec_movi h
    obtain ⟨-, -, hout, -⟩ := hports _ s t h
    refine ⟨?_, exec_flagsKept rfl h, hend.storesOnlyAt, hout nofun, exec_controlKept h nofun nofun⟩
    cases d <;> exact hend.regsKept

end Sys2Proof.Machine
end

section
/-! The pending logic and the interrupt boundary (60_exceptions.md R245, R246, R250, R251): when PEND is set, and when a
service follows; O42 and O43. -/

namespace Sys2Proof.Machine

/-! ## The pending logic -/

theorem setPending_eq_or_twoPow (v : Value) : setPending v = v ||| BitVec.twoPow 32 1 := rfl

theorem getLsbD_setPending_one (v : Value) : (setPending v).getLsbD 1 = true := by simp [setPending_eq_or_twoPow]

theorem getLsbD_setPending_of_ne (v : Value) {k : Nat} (hk : k ≠ 1) : (setPending v).getLsbD k = v.getLsbD k := by
  simp [setPending_eq_or_twoPow, hk.symm]

/-- The head token's scheduled tick has come (R250). -/
def HeadDue (s : State) : Prop := ∃ e rest, s.inq = e :: rest ∧ e.tick ≤ s.tick

theorem pendingLogic_of_headDue {s : State} (h : HeadDue s) : pendingLogic s = { s with ric := setPending s.ric } := by
  obtain ⟨e, rest, hq, hle⟩ := h
  simp [pendingLogic, hq, hle]

theorem pendingLogic_of_not_due {s : State} (h : ∀ e rest, s.inq = e :: rest → s.tick < e.tick) :
    pendingLogic s = s := by
  unfold pendingLogic
  split
  · rfl
  · exact if_neg (Nat.not_le.mpr (h _ _ ‹_›))

/-- The pending logic touches no bit of `ric` but PEND, which it never clears. -/
theorem getLsbD_ric_pendingLogic_of_ne (s : State) {k : Nat} (hk : k ≠ 1) :
    (pendingLogic s).ric.getLsbD k = s.ric.getLsbD k := by
  rcases pendingLogic_cases s with h | h <;> rw [h]
  exact getLsbD_setPending_of_ne s.ric hk

theorem pend_pendingLogic {s : State} (h : s.ric.getLsbD 1 = true ∨ HeadDue s) :
    (pendingLogic s).ric.getLsbD 1 = true := by
  rcases h with hpend | hdue
  · rcases pendingLogic_cases s with h | h <;> rw [h]
    · exact hpend
    · exact getLsbD_setPending_one s.ric
  · rw [pendingLogic_of_headDue hdue]
    exact getLsbD_setPending_one s.ric

theorem trap_pendingLogic (s : State) : (pendingLogic s).trap = s.trap := trap_of_modes (modes_pendingLogic s)

/-- Settles O42: `setPending` writes bit 1 alone. -/
theorem pendingLogicSetsPend : Obligations.PendingLogicSetsPend := fun s =>
  ⟨fun hdue => ⟨setPending s.ric, pendingLogic_of_headDue hdue, getLsbD_setPending_one s.ric,
    fun _ => getLsbD_setPending_of_ne s.ric⟩, pendingLogic_of_not_due⟩

/-! ## The boundary -/

theorem serviceDue_iff {s : State} :
    serviceDue s = true ↔ s.ric.getLsbD 0 = true ∧ s.ric.getLsbD 1 = true ∧ s.trap = false := by
  simp only [serviceDue, Bool.and_eq_true, Bool.not_eq_true', and_assoc]

/-- The pending logic keeps EN and the trap bit, so they mask a service before it as after it. -/
theorem serviceDue_pendingLogic {s : State} :
    serviceDue (pendingLogic s) = true ↔
      s.ric.getLsbD 0 = true ∧ (pendingLogic s).ric.getLsbD 1 = true ∧ s.trap = false := by
  rw [serviceDue_iff, getLsbD_ric_pendingLogic_of_ne s Nat.zero_ne_one, trap_pendingLogic]

theorem interruptBoundary_of_due {s : State} (h : serviceDue (pendingLogic s) = true) :
    interruptBoundary s = service (pendingLogic s) := if_pos h

theorem interruptBoundary_of_not_due {s : State} (h : ¬serviceDue (pendingLogic s) = true) :
    interruptBoundary s = pendingLogic s := if_neg h

/-- Settles O43: EN, the trap bit, and PEND after the pending logic decide. -/
theorem serviceCondition : Obligations.ServiceCondition := by
  have hserviced (s : State) (hen : s.ric.getLsbD 0 = true) (htrap : s.trap = false)
      (hpend : s.ric.getLsbD 1 = true ∨ HeadDue s) : interruptBoundary s = service (pendingLogic s) :=
    interruptBoundary_of_due (serviceDue_pendingLogic.mpr ⟨hen, pend_pendingLogic hpend, htrap⟩)
  refine fun s => ⟨fun hmask => interruptBoundary_of_not_due fun hdue => ?masked,
    fun hen hpend htrap => hserviced s hen htrap (.inl hpend),
    fun hen htrap hdue => hserviced s hen htrap (.inr hdue), fun hpend hnone => ?idle⟩
  case masked =>
    obtain ⟨hen, -, htrap⟩ := serviceDue_pendingLogic.mp hdue
    rcases hmask with hmask | hmask
    · cases hen.symm.trans hmask
    · cases htrap.symm.trans hmask
  case idle =>
    have hkept : pendingLogic s = s := pendingLogic_of_not_due hnone
    rw [interruptBoundary_of_not_due fun hdue => ?_, hkept]
    obtain ⟨-, hset, -⟩ := serviceDue_pendingLogic.mp hdue
    rw [hkept, hpend] at hset
    cases hset

end Sys2Proof.Machine
end

section
/-! Trap entry (60_exceptions.md R252, R253, R256): what each of its micro-steps leaves, where it ends at a raise and
where it completes; and trap return from it (R254). O44, O45 and O46. -/

namespace Sys2Proof.Machine

open Sys2Proof.Claims

/-! ## The three micro-steps -/

/-- Clear `ric` and push the instruction pointer. -/
def pushIp (s : State) : Except Cond (Unit × State) := do
  let t ← push s.rip { s with ric := 0#32 }
  pure ((), t)

/-- Push the accumulator. -/
def pushAcc (s : State) : Except Cond (Unit × State) := do
  let a ← readReg .rax s
  let t ← push a s
  pure ((), t)

/-- Load the vector and enter trap mode. -/
def loadVector (s : State) : Except Cond (Unit × State) := do
  let h ← readPayload s.params.vectorAddr s
  pure ((), { s with rip := h, trap := true })

theorem service_eq (s : State) :
    service s = micro pushIp (fun _ => micro pushAcc fun _ => micro loadVector fun _ => id) s := rfl

/-- After the first: `ric` cleared, the instruction pointer on the stack. -/
def afterPushIp (sp : Value) (s : State) : State :=
  { s with
    mem := s.mem.put sp.toInt.toNat (dataword s.rip)
    ric := 0#32
    rsp := .written (BitVec.ofInt 32 (sp.toInt - 1))
    tick := s.tick + 1 }

/-- After the second: the accumulator on the stack, in the cell below. -/
def afterPushAcc (sp a : Value) (s : State) : State :=
  { s with
    mem := (s.mem.put sp.toInt.toNat (dataword s.rip)).put (sp.toInt - 1).toNat (dataword a)
    ric := 0#32
    rsp := .written (BitVec.ofInt 32 (sp.toInt - 2))
    tick := s.tick + 2 }

/-- After the third: in the handler, in trap mode. -/
def afterTrapEntry (sp a h : Value) (s : State) : State :=
  { afterPushAcc sp a s with rip := h, trap := true, tick := s.tick + 3 }

section
variable {s : State} {sp a : Value} {c : Cond}

theorem push_of_readReg_error (h : readReg .rsp s = .error c) (v : Value) : push v s = .error c :=
  bind_error.mpr (.inl h)

theorem push_of_inMemory (hsp : readReg .rsp s = .ok sp) (hin : inMemory sp.toInt s = true) (v : Value) :
    push v s = .ok (setReg .rsp (BitVec.ofInt 32 (sp.toInt - 1))
      { s with mem := s.mem.put sp.toInt.toNat (dataword v) }) :=
  bind_ok.mpr ⟨sp, hsp, bind_ok.mpr ⟨_,
    writePayload_ok.mpr ⟨inS32_toInt v, hin, rfl⟩, by rw [BitVec.ofInt_toInt]; rfl⟩⟩

/-- Below an address in memory the decrement of `rsp` does not wrap. -/
theorem toInt_decremented (h0 : 0 ≤ sp.toInt) : (BitVec.ofInt 32 (sp.toInt - 1)).toInt = sp.toInt - 1 := by
  have hsp := toInt_bounds sp
  exact toInt_ofInt (decide_eq_true ⟨by omega, by omega⟩)

theorem readReg_rsp_afterPushIp (sp : Value) (s : State) :
    readReg .rsp (afterPushIp sp s) = .ok (BitVec.ofInt 32 (sp.toInt - 1)) := rfl

theorem inMemory_afterPushIp (x : Int) (sp : Value) (s : State) : inMemory x (afterPushIp sp s) = inMemory x s := rfl

/-! ## What follows a completed micro-step -/

theorem service_of_pushIp (hsp : readReg .rsp s = .ok sp) (hin : inMemory sp.toInt s = true) :
    service s = micro pushAcc (fun _ => micro loadVector fun _ => id) (afterPushIp sp s) := by
  have hpush := push_of_inMemory (s := { s with ric := 0#32 }) hsp hin s.rip
  have hstep : pushIp s = .ok ((), _) := bind_ok.mpr ⟨_, hpush, rfl⟩
  rw [service_eq, micro_ok hstep]
  rfl

theorem service_of_pushAcc (hsp : readReg .rsp s = .ok sp) (ha : readReg .rax s = .ok a) (h1 : 1 ≤ sp.toInt)
    (hin : inMemory sp.toInt s = true) :
    service s = micro loadVector (fun _ => id) (afterPushAcc sp a s) := by
  have hdec : (BitVec.ofInt 32 (sp.toInt - 1)).toInt = sp.toInt - 1 := toInt_decremented (by omega)
  have hin2 : inMemory (BitVec.ofInt 32 (sp.toInt - 1)).toInt (afterPushIp sp s) = true := by
    rw [inMemory_iff] at hin
    rw [hdec, inMemory_afterPushIp, inMemory_iff]
    omega
  have hpush := push_of_inMemory (readReg_rsp_afterPushIp sp s) hin2 a
  rw [hdec, Int.sub_sub] at hpush
  have hstep : pushAcc (afterPushIp sp s) = .ok ((), _) := bind_ok.mpr ⟨a, ha, bind_ok.mpr ⟨_, hpush, rfl⟩⟩
  rw [service_of_pushIp hsp hin, micro_ok hstep]
  rfl

/-! ## The ends of a service -/

theorem service_of_push_error (h : push s.rip { s with ric := 0#32 } = .error c) : service s = raise c s :=
  micro_error (bind_pure_error.mpr h)

theorem service_of_readReg_rsp_error (h : readReg .rsp s = .error c) : service s = raise c s :=
  service_of_push_error (push_of_readReg_error (s := { s with ric := 0#32 }) h s.rip)

theorem service_of_not_inMemory (hsp : readReg .rsp s = .ok sp) (h : inMemory sp.toInt s = false) :
    service s = raise (.addressOutOfRange sp.toInt) s :=
  service_of_push_error (push_of_not_inMemory (s := { s with ric := 0#32 }) hsp h)

theorem service_of_acc_error (hsp : readReg .rsp s = .ok sp) (hin : inMemory sp.toInt s = true)
    (ha : readReg .rax s = .error c) : service s = raise c (afterPushIp sp s) :=
  (service_of_pushIp hsp hin).trans (micro_error (bind_error.mpr (.inl ha)))

theorem service_of_second_push_error (hsp : readReg .rsp s = .ok sp) (hin : inMemory sp.toInt s = true)
    (ha : readReg .rax s = .ok a) (h : push a (afterPushIp sp s) = .error c) :
    service s = raise c (afterPushIp sp s) :=
  (service_of_pushIp hsp hin).trans (micro_error (bind_error.mpr (.inr ⟨a, ha, bind_pure_error.mpr h⟩)))

theorem service_of_vector_error (hsp : readReg .rsp s = .ok sp) (ha : readReg .rax s = .ok a) (h1 : 1 ≤ sp.toInt)
    (hin : inMemory sp.toInt s = true)
    (h : readPayload s.params.vectorAddr (afterPushAcc sp a s) = .error c) :
    service s = raise c (afterPushAcc sp a s) :=
  (service_of_pushAcc hsp ha h1 hin).trans (micro_error (bind_pure_error.mpr h))

theorem service_of_vector {h : Value} (hsp : readReg .rsp s = .ok sp) (ha : readReg .rax s = .ok a)
    (h1 : 1 ≤ sp.toInt) (hin : inMemory sp.toInt s = true)
    (hh : readPayload s.params.vectorAddr (afterPushAcc sp a s) = .ok h) :
    service s = afterTrapEntry sp a h s := by
  have hstep : loadVector (afterPushAcc sp a s) = .ok ((), _) := bind_ok.mpr ⟨h, hh, rfl⟩
  rw [service_of_pushAcc hsp ha h1 hin, micro_ok hstep]
  rfl

/-- The vector is read from the memory that the two pushes leave. -/
theorem readPayload_afterPushAcc (x : Int) (sp a : Value) (s : State) :
    readPayload x (afterPushAcc sp a s) = readPayload x
      { s with mem := (s.mem.put sp.toInt.toNat (dataword s.rip)).put (sp.toInt - 1).toNat (dataword a) } := rfl

/-- Settles O44: both pushes and the read of the vector complete. -/
theorem serviceEntersHandler : Obligations.ServiceEntersHandler := by
  intro s sp a h hsp ha h1 hlt hh
  rw [← readPayload_afterPushAcc] at hh
  exact service_of_vector hsp ha h1 (inMemory_iff.mpr ⟨by omega, hlt⟩) hh

/-- Settles O45: the accesses of the three micro-steps in their order, the first that fails deciding. -/
theorem serviceRaises : Obligations.ServiceRaises := by
  refine fun s => ⟨fun c hc => service_of_readReg_rsp_error hc, fun sp hsp =>
    ⟨fun hout => service_of_not_inMemory hsp (inMemory_eq_false_iff.mpr hout), fun h0 hlt => ?_⟩⟩
  have hin : inMemory sp.toInt s = true := inMemory_iff.mpr ⟨h0, hlt⟩
  refine ⟨fun c hc => service_of_acc_error hsp hin hc, fun a ha hzero => ?secondPush, ?vector⟩
  case secondPush =>
    have hdec : (BitVec.ofInt 32 (sp.toInt - 1)).toInt = -1 := by rw [toInt_decremented h0, hzero]; rfl
    have hpush := push_of_not_inMemory (v := a) (readReg_rsp_afterPushIp sp s) (by rw [hdec]; rfl)
    rw [hdec] at hpush
    rw [service_of_second_push_error hsp hin ha hpush, afterPushIp, hzero]
    rfl
  case vector =>
    rintro a c m ha h1 rfl hc
    rw [← readPayload_afterPushAcc] at hc
    exact service_of_vector_error hsp ha h1 hin hc

end

/-! ## Return from a service -/

/-- All that a service which completes has read, and the state it gives. -/
theorem service_of_running {s : State} (h : (service s).status = .running) :
    ∃ sp a v, readReg .rsp s = .ok sp ∧ readReg .rax s = .ok a ∧ 1 ≤ sp.toInt ∧ inMemory sp.toInt s = true ∧
      service s = afterTrapEntry sp a v s := by
  rcases service_cases s with
    ⟨c, -, e⟩ | ⟨sp, hsp, hin, ⟨c, -, e⟩ | ⟨a, c, -, -, e⟩ | ⟨a, sp2, c, -, -, -, -, e⟩ |
      ⟨a, sp2, v, ha, rfl, hin2, -, e⟩⟩
  iterate 4
    rw [e] at h
    cases h
  have hdec : (BitVec.ofInt 32 (sp.toInt - 1)).toInt = sp.toInt - 1 := toInt_decremented (inMemory_iff.mp hin).1
  rw [hdec, inMemory_iff] at hin2
  rw [afterPush, hdec, Int.sub_sub] at e
  exact ⟨sp, a, v, hsp, ha, by omega, hin, e⟩

section
variable {s : State} {sp : Value}

/-- In the handler the stack holds the interrupted `rip`, and below it `rax` (R252). -/
theorem readPayload_savedIp (hin : inMemory sp.toInt s = true) (h1 : 1 ≤ sp.toInt) (a v : Value) :
    readPayload sp.toInt (afterTrapEntry sp a v s) = .ok s.rip := by
  have hne : sp.toInt.toNat ≠ (sp.toInt - 1).toNat := by omega
  have hcell : (afterTrapEntry sp a v s).mem.cell sp.toInt.toNat = some (dataword s.rip) :=
    (Memory.cell_put_other _ _ hne).trans (Memory.cell_put_same ..)
  rw [readPayload_of_cell (s := afterTrapEntry sp a v s) hin hcell, payload_dataword]

theorem readPayload_savedAcc (hin : inMemory sp.toInt s = true) (h1 : 1 ≤ sp.toInt) (a v : Value) :
    readPayload (sp.toInt - 1) (afterTrapEntry sp a v s) = .ok a := by
  have hbelow : inMemory (sp.toInt - 1) (afterTrapEntry sp a v s) = true := by
    rw [inMemory_iff] at hin
    exact inMemory_iff.mpr ⟨by omega, Int.lt_of_le_of_lt (by omega) hin.2⟩
  rw [readPayload_of_cell hbelow (Memory.cell_put_same ..), payload_dataword]

theorem readPayload_congr {x : Int} {s t : State} (h : memRead x t = memRead x s) :
    readPayload x t = readPayload x s := by
  rw [readPayload, readPayload, h]

/-- `iret` with both pops readable and an `rsp` whose increment does not wrap. -/
theorem exec_iret_of_pops {a p : Value} (hsp : readReg .rsp s = .ok sp)
    (hinc : (BitVec.ofInt 32 (sp.toInt + 1)).toInt = sp.toInt + 1) (ha : readPayload (sp.toInt + 1) s = .ok a)
    (hp : readPayload (sp.toInt + 2) s = .ok p) :
    exec .iret s = .next { s with
      rax := .written a
      rsp := .written (BitVec.ofInt 32 (sp.toInt + 2))
      rip := p
      ric := enable s.ric
      trap := false
      tick := s.tick + 3 } := by
  have hsecond : readPayload ((BitVec.ofInt 32 (sp.toInt + 1)).toInt + 1) (afterPopAcc sp a s) = .ok p := by
    rw [hinc, Int.add_assoc, readPayload_afterPopAcc]
    exact hp
  have hpop := pop_of_readPayload (readReg_rsp_afterPopAcc sp a s) hsecond
  rw [hinc, Int.add_assoc] at hpop
  exact congrArg _ (trapReturn_of_second_pop hsp ha hpop)

end

/-- Settles O46: the handler leaves `rsp` two below the interrupted one, so the pops read the two saved cells. -/
theorem returnRestoresInterrupted : Obligations.ReturnRestoresInterrupted := by
  intro s u _ hlive _ hrsp hcells
  obtain ⟨sp, a, v, hsp, ha, h1, hin, hservice⟩ := service_of_running hlive
  rw [hservice] at hrsp hcells
  have hspu : readReg .rsp u = .ok (BitVec.ofInt 32 (sp.toInt - 2)) := readReg_of_written hrsp
  have hbounds := toInt_bounds sp
  have htwo : (BitVec.ofInt 32 (sp.toInt - 2)).toInt = sp.toInt - 2 :=
    toInt_ofInt (decide_eq_true ⟨by omega, by omega⟩)
  have hacc : (BitVec.ofInt 32 (sp.toInt - 2)).toInt + 1 = sp.toInt - 1 := by omega
  have hip : (BitVec.ofInt 32 (sp.toInt - 2)).toInt + 2 = sp.toInt := by omega
  obtain ⟨hcellAcc, hcellIp⟩ := hcells _ hspu
  rw [hacc] at hcellAcc
  rw [hip] at hcellIp
  have hiret := exec_iret_of_pops hspu (by rw [hacc]; exact toInt_decremented (by omega))
    (by rw [hacc]; exact (readPayload_congr hcellAcc).trans (readPayload_savedAcc hin h1 a v))
    (by rw [hip]; exact (readPayload_congr hcellIp).trans (readPayload_savedIp hin h1 a v))
  rw [hip, BitVec.ofInt_toInt] at hiret
  exact ⟨_, a, sp, hiret, rfl, ha, rfl, rfl, hsp, rfl, getLsbD_enable_zero _, rfl, ⟨rfl, rfl, rfl⟩, rfl, rfl,
    fun k => getLsbD_enable_of_ne _⟩

end Sys2Proof.Machine
end

section
/-! The conditions each instruction, a fetch and a service can raise (60_exceptions.md R240, R241); O52. -/

namespace Sys2Proof.Machine

open Sys2Proof.Claims

/-- A raise recorded in the status is of a condition in `P`. -/
def RaisesOnly (P : Cond → Bool) (t : State) : Prop := ∀ c ip, t.status = .raised c ip → P c = true

theorem raisesOnly_of_running {P : Cond → Bool} {t : State} (h : t.status = .running) : RaisesOnly P t := by
  intro c ip hr
  cases h.symm.trans hr

theorem raisesOnly_raise {P : Cond → Bool} {c : Cond} (h : P c = true) (t : State) : RaisesOnly P (raise c t) := by
  intro c' ip hr
  cases hr
  exact h

theorem raisesOnly_advance {P : Cond → Bool} {x : Option Value} {t : State}
    (h : P (.addressOutOfRange 2147483648) = true) (ht : t.status = .running) : RaisesOnly P (advance x t) := by
  rcases advance_cases x t with ⟨v, e⟩ | ⟨-, -, e⟩ <;> rw [e]
  · exact raisesOnly_of_running ht
  · exact raisesOnly_raise h t

/-! ## Accesses -/

theorem accessCond_of_memRead {a : Int} {s : State} {c : Cond} (h : memRead a s = .error c) : accessCond c = true := by
  rcases memRead_error h with ⟨-, rfl⟩ | ⟨-, -, rfl⟩ <;> rfl

theorem accessCond_of_readSlot {α : Type} {x : Slot α} {z : α} {i : Item} {s : State} {c : Cond}
    (h : readSlot x z i s = .error c) : accessCond c = true := by
  obtain ⟨-, -, rfl⟩ := readSlot_error.mp h
  rfl

theorem accessCond_of_readReg {r : Reg} {s : State} {c : Cond} (h : readReg r s = .error c) : accessCond c = true :=
  accessCond_of_readSlot h

theorem accessCond_of_flagIs {f : Flag} {v : Bool} {s : State} {c : Cond} (h : flagIs f v s = .error c) :
    accessCond c = true := by
  have hread : readFlag f s = .error c := bind_pure_error.mp h
  cases f <;> exact accessCond_of_readSlot hread

theorem accessCond_of_resolveValue {x : Src} {s : State} {c : Cond} (h : resolveValue x s = .error c) :
    accessCond c = true := by
  rcases resolveValue_error h with ⟨r, hr⟩ | ⟨a, ha⟩
  · exact accessCond_of_readReg hr
  · exact accessCond_of_memRead ha

theorem accessCond_of_resolveDest {d : Dest} {s : State} {c : Cond} (h : resolveDest d s = .error c) :
    accessCond c = true := by
  obtain ⟨a, ha⟩ := resolveDest_error h
  exact accessCond_of_memRead ha

theorem accessCond_of_push {v : Value} {s : State} {c : Cond} (h : push v s = .error c) : accessCond c = true := by
  rcases push_error h with hr | ⟨sp, -, -, rfl⟩
  · exact accessCond_of_readReg hr
  · rfl

theorem accessCond_of_pop {s : State} {c : Cond} (h : pop s = .error c) : accessCond c = true := by
  rcases pop_error h with hr | ⟨sp, -, hm⟩
  · exact accessCond_of_readReg hr
  · exact accessCond_of_memRead hm

/-- A destination write raises in an access, or refuses a value outside S32. -/
theorem writeLoc_error_cond {l : Loc} {v : Int} {s : State} {c : Cond} (h : writeLoc l v s = .error c) :
    accessCond c = true ∨ (inS32 v = false ∧ c = .valueOutOfRange v) := by
  rcases writeLoc_error h with hout | ⟨a, -, -, -, rfl⟩
  · exact .inr hout
  · exact .inl rfl

theorem writeDest_error_cond {d : Dest} {v : Int} {s : State} {c : Cond} (h : writeDest d v s = .error c) :
    accessCond c = true ∨ (inS32 v = false ∧ c = .valueOutOfRange v) := by
  rcases bind_error.mp h with h | ⟨l, -, h⟩
  · exact .inl (accessCond_of_resolveDest h)
  · exact writeLoc_error_cond h

theorem accessCond_of_writeLoc_toInt {l : Loc} {v : Value} {s : State} {c : Cond} (h : writeLoc l v.toInt s = .error c) :
    accessCond c = true :=
  (writeLoc_error_cond h).resolve_right fun ⟨hout, _⟩ => nomatch (inS32_toInt v).symm.trans hout

theorem accessCond_of_writeDest_toInt {d : Dest} {v : Value} {s : State} {c : Cond}
    (h : writeDest d v.toInt s = .error c) : accessCond c = true :=
  (writeDest_error_cond h).resolve_right fun ⟨hout, _⟩ => nomatch (inS32_toInt v).symm.trans hout

/-! ## Instructions that raise only in an access or at their advance -/

theorem raisesOnly_branchInstr {cond : State → Except Cond Bool} {s : State} (hs : s.status = .running)
    (hcond : ∀ c, cond s = .error c → accessCond c = true) (x : Src) :
    RaisesOnly accessCond (branchInstr cond x s) := by
  rcases branchInstr_cases cond x s with ⟨c, hx, h⟩ | ⟨t, c, -, hc, h⟩ | ⟨t, b, -, -, h⟩ <;> rw [h]
  · exact raisesOnly_raise (accessCond_of_resolveValue hx) s
  · exact raisesOnly_raise (hcond c hc) s
  · exact raisesOnly_advance rfl hs

theorem raisesOnly_movOneStep {s : State} (hs : s.status = .running) (d : Dest) (src : Src) :
    RaisesOnly accessCond (movOneStep d src s) := by
  rcases movOneStep_cases d src s with ⟨c, hv, h⟩ | ⟨v, c, -, hw, h⟩ | ⟨v, t, -, hw, h⟩ <;> rw [h]
  · exact raisesOnly_raise (accessCond_of_resolveValue hv) s
  · exact raisesOnly_raise (accessCond_of_writeDest_toInt hw) s
  · exact raisesOnly_advance rfl ((completes_writeDest hw).status.trans hs)

theorem raisesOnly_movTwoSteps {s : State} (hs : s.status = .running) (d : Dest) (src : Src) :
    RaisesOnly accessCond (movTwoSteps d src s) := by
  rcases movTwoSteps_cases d src s with ⟨c, hv, h⟩ | ⟨v, c, -, hw, h⟩ | ⟨v, t, -, hw, h⟩ <;> rw [h]
  · exact raisesOnly_raise (accessCond_of_resolveValue hv) s
  · exact raisesOnly_raise (accessCond_of_writeDest_toInt hw) _
  · exact raisesOnly_advance rfl ((completes_writeDest hw).status.trans hs)

theorem raisesOnly_execMov {d : Dest} {src : Src} {s t : State} (hs : s.status = .running)
    (h : execMov d src s = .next t) : RaisesOnly accessCond t := by
  cases h
  split
  · exact raisesOnly_movTwoSteps hs d src
  · exact raisesOnly_movOneStep hs d src

theorem raisesOnly_trapReturn {s : State} (hs : s.status = .running) : RaisesOnly accessCond (trapReturn s) := by
  rcases trapReturn_cases s with ⟨c, hpop, h⟩ | ⟨sp, a, c, -, -, hpop, h⟩ | ⟨sp, a, p, t, -, -, hpop, h⟩ <;> rw [h]
  · exact raisesOnly_raise (accessCond_of_pop hpop) s
  · exact raisesOnly_raise (accessCond_of_pop hpop) _
  · have ht : t.status = .running := (completes_pop hpop).status.trans hs
    exact raisesOnly_of_running ht

theorem raisesOnly_service {s : State} (hs : s.status = .running) : RaisesOnly accessCond (service s) := by
  rcases service_cases s with
    ⟨c, hpush, h⟩ | ⟨sp, -, -, ⟨c, hr, h⟩ | ⟨a, c, -, hpush, h⟩ | ⟨a, sp2, c, -, -, -, hv, h⟩ |
      ⟨a, sp2, v, -, -, -, -, h⟩⟩ <;> rw [h]
  · exact raisesOnly_raise (accessCond_of_push hpush) s
  · exact raisesOnly_raise (accessCond_of_readReg hr) _
  · exact raisesOnly_raise (accessCond_of_push hpush) _
  · exact raisesOnly_raise (accessCond_of_memRead (readPayload_error.mp hv)) _
  · exact raisesOnly_of_running hs

/-! ## The table of R241 -/

/-- The instructions that read an operand or the stack. -/
def accesses : Instr → Bool
  | .halt | .ei | .di | .nop => false
  | .iret | .jmp _ | .jz _ | .jnz _ | .jn _ | .jnn _ => true
  | .add _ _ | .sub _ _ | .mul _ _ | .div _ _ | .mod _ _ | .xor _ _ | .and _ _ | .or _ _ | .cmp _ _ => true
  | .mov _ _ | .movo _ _ | .movi _ _ => true

/-- The table gives each of them the conditions of an access. -/
theorem mayRaise_of_access {i : Instr} {c : Cond} (hi : accesses i = true) (hc : accessCond c = true) :
    mayRaise i c = true := by
  cases c with
  | malformedWord _ | inputExhausted | divisionByZero _ | valueOutOfRange _ | illegalPort _ | illegalCharacter _ =>
    cases hc
  | addressOutOfRange _ | uninitialisedRead _ =>
    cases i with
    | halt | ei | di | nop => cases hi
    | iret | jmp | jz | jnz | jn | jnn => rfl
    | add | sub | mul | div | mod | xor | and | or | cmp => rfl
    | mov | movo | movi => rfl

theorem RaisesOnly.mayRaise {i : Instr} {t : State} (h : RaisesOnly accessCond t) (hi : accesses i = true) :
    RaisesOnly (mayRaise i) t :=
  fun c ip hr => mayRaise_of_access hi (h c ip hr)

/-! ## The ALU instructions -/

section
variable {op : AluOp} {d : Dest} {x : Src} {a b : Value} {c : Cond} {o : AluOut} {s : State}

theorem accesses_instr (op : AluOp) (d : Dest) (x : Src) : accesses (op.instr d x) = true := by
  cases op <;> rfl

theorem mayRaise_instr_of_access (h : accessCond c = true) : mayRaise (op.instr d x) c = true :=
  mayRaise_of_access (accesses_instr op d x) h

theorem mayRaise_instr_of_alu (h : alu op a b = .error c) : mayRaise (op.instr d x) c = true := by
  cases op with
  | div | mod =>
    obtain rfl := alu_error h
    rfl
  | add | sub | mul | xor | and | or | cmp => cases h

/-- Only `mul` has results outside S32 (43_alu.md R183). -/
theorem mayRaise_instr_of_unfit (ho : alu op a b = .ok o) (hout : inS32 o.result = false) :
    mayRaise (op.instr d x) (.valueOutOfRange o.result) = true := by
  by_cases hmul : op = .mul
  · subst hmul
    rfl
  · obtain ⟨r, hr, rfl⟩ := alu_ok ho
    obtain ⟨hlo, hhi, -⟩ := aluRaw_fits hr hmul
    cases (inS32_correct.mpr ⟨hlo, hhi⟩).symm.trans hout

theorem mayRaise_instr_of_write (ho : alu op a b = .ok o) (h : writeDest d o.result s = .error c) :
    mayRaise (op.instr d x) c = true := by
  rcases writeDest_error_cond h with hc | ⟨hout, rfl⟩
  · exact mayRaise_instr_of_access hc
  · exact mayRaise_instr_of_unfit ho hout

theorem raisesOnly_aluRegister (hs : s.status = .running) (op : AluOp) (r : Reg) (x : Src) :
    RaisesOnly (mayRaise (op.instr (.reg r) x)) (aluRegister op r x s) := by
  have hadvance {t : State} (ht : t.status = .running) :=
    raisesOnly_advance (P := mayRaise (op.instr (.reg r) x)) (x := none) (mayRaise_instr_of_access rfl) ht
  rcases aluRegister_cases op r x s with
    ⟨c, hr, h⟩ | ⟨a, c, -, hv, h⟩ | ⟨a, b, c, -, -, ha, h⟩ | ⟨a, b, o, -, -, ho, ⟨-, h⟩ | ⟨-, hout, h⟩ | ⟨-, -, h⟩⟩ <;>
    rw [h]
  · exact raisesOnly_raise (mayRaise_instr_of_access (accessCond_of_readReg hr)) s
  · exact raisesOnly_raise (mayRaise_instr_of_access (accessCond_of_resolveValue hv)) s
  · exact raisesOnly_raise (mayRaise_instr_of_alu ha) s
  · exact hadvance hs
  · exact raisesOnly_raise (mayRaise_instr_of_unfit ho hout) _
  · exact hadvance ((completes_setReg r _ (afterAlu o s)).status.trans hs)

theorem raisesOnly_aluMemory (hs : s.status = .running) (op : AluOp) (d : Dest) (x : Src) :
    RaisesOnly (mayRaise (op.instr d x)) (aluMemory op d x s) := by
  have hadvance {t : State} (ht : t.status = .running) :=
    raisesOnly_advance (P := mayRaise (op.instr d x)) (x := none) (mayRaise_instr_of_access rfl) ht
  rcases aluMemory_cases op d x s with
    ⟨c, hl, h⟩ | ⟨a, c, -, hv, h⟩ | ⟨a, b, c, -, -, ha, h⟩ | ⟨a, b, o, -, -, ho, ⟨-, h⟩ | ⟨c, -, hw, h⟩ | ⟨t, -, hw, h⟩⟩ <;>
    rw [h]
  · exact raisesOnly_raise (mayRaise_instr_of_access (accessCond_of_resolveValue hl)) s
  · exact raisesOnly_raise (mayRaise_instr_of_access (accessCond_of_resolveValue hv)) _
  · exact raisesOnly_raise (mayRaise_instr_of_alu ha) _
  · exact hadvance hs
  · exact raisesOnly_raise (mayRaise_instr_of_write ho hw) _
  · exact hadvance ((completes_writeDest hw).status.trans hs)

theorem raisesOnly_aluInstr {i : Instr} (hi : i = op.instr d x) (hs : s.status = .running) :
    RaisesOnly (mayRaise i) (aluInstr op d x s) := by
  subst hi
  cases d with
  | reg r => exact raisesOnly_aluRegister hs op r x
  | direct a => exact raisesOnly_aluMemory hs op (.direct a) x
  | indirect a => exact raisesOnly_aluMemory hs op (.indirect a) x

end

/-! ## The port instructions -/

theorem raisesOnly_execMovo {p : Value} {x : Src} {s t : State} (hs : s.status = .running)
    (h : execMovo p x s = .next t) : RaisesOnly (mayRaise (.movo p x)) t := by
  rcases execMovo_cases p x s with ⟨c, hv, e⟩ | ⟨v, c, -, hw, e⟩ | ⟨v, u, -, hw, e⟩ <;>
    obtain rfl := Host.Outcome.next.inj (e.symm.trans h)
  · exact raisesOnly_raise (mayRaise_of_access rfl (accessCond_of_resolveValue hv)) s
  · refine raisesOnly_raise ?_ s
    rcases portWrite_error hw with ⟨-, rfl⟩ | ⟨-, -, rfl⟩ <;> rfl
  · exact raisesOnly_advance rfl ((completes_portWrite hw).status.trans hs)

theorem raisesOnly_execMovi {d : Dest} {p : Value} {s t : State} (hs : s.status = .running)
    (h : execMovi d p s = .next t) : RaisesOnly (mayRaise (.movi d p)) t := by
  rcases execMovi_cases d p s with
    ⟨c, hd, e⟩ | ⟨l, c, -, hr, e⟩ | ⟨l, v, u, c, -, -, hw, e⟩ | ⟨l, v, u, w, -, hr, hw, e⟩ <;>
    obtain rfl := Host.Outcome.next.inj (e.symm.trans h)
  · exact raisesOnly_raise (mayRaise_of_access rfl (accessCond_of_resolveDest hd)) s
  · refine raisesOnly_raise ?_ s
    rcases portRead_error hr with ⟨-, rfl⟩ | ⟨-, -, rfl⟩ <;> rfl
  · exact raisesOnly_raise (mayRaise_of_access rfl (accessCond_of_writeLoc_toInt hw)) s
  · have hw' := (completes_portRead hr).trans (completes_writeLoc hw)
    exact raisesOnly_advance rfl (hw'.status.trans hs)

/-! ## The obligation -/

theorem raisesOnly_exec {i : Instr} {s t : State} (hs : s.status = .running) (h : exec i s = .next t) :
    RaisesOnly (mayRaise i) t := by
  cases i with
  | halt =>
    cases h
    exact fun c ip hr => nomatch hr
  | ei =>
    obtain rfl := Host.Outcome.next.inj ((exec_ei s).symm.trans h)
    exact raisesOnly_advance (beq_self_eq_true _) hs
  | di =>
    obtain rfl := Host.Outcome.next.inj ((exec_di s).symm.trans h)
    exact raisesOnly_advance (beq_self_eq_true _) hs
  | nop =>
    obtain rfl := Host.Outcome.next.inj ((exec_nop s).symm.trans h)
    exact raisesOnly_advance (beq_self_eq_true _) hs
  | iret =>
    cases h
    exact (raisesOnly_trapReturn hs).mayRaise rfl
  | jmp x =>
    cases h
    exact (raisesOnly_branchInstr hs (fun _ hc => by cases hc) x).mayRaise rfl
  | jz x | jnz x | jn x | jnn x =>
    cases h
    exact (raisesOnly_branchInstr hs (fun _ => accessCond_of_flagIs) x).mayRaise rfl
  | add d x | sub d x | mul d x | div d x | mod d x | xor d x | and d x | or d x | cmp d x =>
    cases h
    exact raisesOnly_aluInstr rfl hs
  | mov d x => exact (raisesOnly_execMov hs h).mayRaise rfl
  | movo p x => exact raisesOnly_execMovo hs h
  | movi d p => exact raisesOnly_execMovi hs h

theorem fetchDecode_error_cond {s : State} {c : Cond} (h : fetchDecode s = .error c) :
    accessCond c = true ∨ ∃ w, c = .malformedWord w := by
  unfold fetchDecode at h
  split at h
  · cases h
    exact .inl (accessCond_of_memRead ‹_›)
  · split at h <;> cases h
    exact .inr ⟨_, rfl⟩

/-- Settles O52: each operation's conditions, carried to the instruction, the fetch or the service it is part of. -/
theorem conditionsEachCanRaise : Obligations.ConditionsEachCanRaise :=
  ⟨fun _ _ _ c ip hs h => raisesOnly_exec hs h c ip, fun _ _ => fetchDecode_error_cond,
    fun _ c ip hs => raisesOnly_service hs c ip⟩

end Sys2Proof.Machine
end

section
/-! A launched run meets the invariant, and where its image and entry lie (00_scope.md R6, 10_state.md R35,
70_reset_and_hazards.md R280, R282); O11 and O58. -/

namespace Sys2Proof.Machine

/-! ## The invariant -/

/-- Words loaded at addresses inside memory leave it canonical and within bounds. -/
theorem memOk_putCells {p : Params} {cells : List (Int × Word)} (hrange : ∀ x ∈ cells, 0 ≤ x.1 ∧ x.1 < p.memSize)
    {mem : Memory} (h : MemOk p mem) : MemOk p (putCells mem cells) := by
  induction cells generalizing mem with
  | nil => exact h
  | cons x rest ih =>
    obtain ⟨hx, hrest⟩ := List.forall_mem_cons.mp hrange
    rw [putCells_cons]
    exact ih hrest (memOk_put (s := State.resetWith p mem []) (inMemory_iff.mpr hx) x.2 h)

/-- Settles O11: the launch checks ask of the request what the invariant asks of the parameters and the cells. -/
theorem launchMeetsInvariant : Obligations.LaunchMeetsInvariant := by
  intro r t ht
  obtain ⟨hp, entry, input, -, -, rfl⟩ := launch_next.mp ht
  obtain ⟨hpos, hmax, hlimit, hvector, hmap, hrange, -⟩ := launchProblem_eq_none.mp hp
  have hparams : (r.params entry).ok = true := by
    rw [Params.ok, Bool.and_eq_true]
    exact ⟨decide_eq_true ⟨hpos, hmax, hlimit, hvector⟩, hmap⟩
  obtain ⟨hwf, hlt⟩ : MemOk (r.params entry) (loadCells r.image.cells) :=
    memOk_putCells hrange ⟨rfl, List.forall_mem_nil _⟩
  exact ⟨hparams, hwf, hlt, resetWith_statusOk hlimit _ input⟩

/-! ## The words of an image -/

/-- Words placed from `b` onward: each stands as far from `b` as it stands from the head of the list. -/
theorem mem_numberFrom {b : Int} {words : List Word} {x : Int × Word} :
    x ∈ numberFrom b words ↔ ∃ k : Nat, words[k]? = some x.2 ∧ x.1 = b + k := by
  induction words generalizing b with
  | nil => simp [numberFrom]
  | cons w rest ih =>
    rw [numberFrom, List.mem_cons, ih]
    constructor
    · rintro (rfl | ⟨k, hk, ha⟩)
      · exact ⟨0, rfl, (Int.add_zero b).symm⟩
      · exact ⟨k + 1, hk, by omega⟩
    · rintro ⟨_ | k, hk, ha⟩
      · exact .inl (Prod.ext (by simpa using ha) (Option.some.inj hk).symm)
      · exact .inr ⟨k, hk, by omega⟩

/-- The bare form holds the word at place `k` of the two images at address `k`. -/
theorem mem_cells_bare {data text : List Word} {x : Int × Word} :
    x ∈ (Image.bare data text).cells ↔ ∃ k : Nat, (data ++ text)[k]? = some x.2 ∧ x.1 = k := by
  rw [Image.cells, mem_numberFrom]
  simp only [Int.zero_add]

theorem firstText_bare {data text : List Word} {a : Int} :
    (Image.bare data text).firstText = some a ↔ text ≠ [] ∧ a = data.length := by
  cases text <;> simp [Image.firstText, eq_comm]

theorem firstText_listing {data text : List (Int × Word)} {a : Int} :
    (Image.listing data text).firstText = some a ↔ ∃ x rest, text = x :: rest ∧ a = x.1 := by
  cases text <;> simp [Image.firstText, eq_comm]

/-- The address of the first text word is one of the image's. -/
theorem firstText_mem_cells {i : Image} {a : Int} (h : i.firstText = some a) : ∃ w, (a, w) ∈ i.cells := by
  match i with
  | .bare data text =>
    obtain ⟨htext, rfl⟩ := firstText_bare.mp h
    obtain ⟨w, rest, rfl⟩ := List.exists_cons_of_ne_nil htext
    exact ⟨w, mem_cells_bare.mpr ⟨data.length, by simp, rfl⟩⟩
  | .listing data text =>
    obtain ⟨x, rest, rfl, rfl⟩ := firstText_listing.mp h
    exact ⟨x.2, List.mem_append_right data List.mem_cons_self⟩

/-! ## The launched state -/

section
variable {r : LaunchRequest} {t : State} (ht : launch r = .next t)
include ht

theorem launch_params : t.params = r.params t.rip := by
  obtain ⟨-, entry, input, -, -, rfl⟩ := launch_next.mp ht
  rfl

theorem launch_entryValue : r.entryValue = some t.rip := by
  obtain ⟨-, entry, input, hentry, -, rfl⟩ := launch_next.mp ht
  exact hentry

theorem launch_cells_inMemory {x : Int × Word} (hx : x ∈ r.image.cells) : 0 ≤ x.1 ∧ x.1 ≤ 2147483647 := by
  obtain ⟨hp, -⟩ := launch_next.mp ht
  obtain ⟨-, hmax, -, -, -, hrange, -⟩ := launchProblem_eq_none.mp hp
  obtain ⟨h0, hlt⟩ := hrange x hx
  simp only [Config.maxMemSize] at hmax
  omega

/-- What O8 says of memory: each word of the image in its cell, every other cell unwritten. -/
theorem launch_mem :
    (∀ x ∈ r.image.cells, t.mem.cell x.1.toNat = some x.2) ∧
      ∀ a : Nat, (∀ x ∈ r.image.cells, x.1 ≠ (a : Int)) → t.mem.cell a = none := by
  obtain ⟨-, -, -, -, -, -, -, -, -, -, -, -, -, hheld, hnone, -⟩ := launchGivesResetState r t ht
  exact ⟨hheld, hnone⟩

theorem launch_rip_of_entry {v : Value} (h : r.entry = some v) : t.rip = v := by
  have hentry := launch_entryValue ht
  rw [LaunchRequest.entryValue, h] at hentry
  exact (Option.some.inj hentry).symm

/-- With no entry given, the run starts at its first text word, whose address a register can hold (R282). -/
theorem launch_rip_of_no_entry (h : r.entry = none) : r.image.firstText = some t.rip.toInt := by
  have hentry := launch_entryValue ht
  rw [LaunchRequest.entryValue, h] at hentry
  obtain ⟨a, ha, hrip⟩ := Option.map_eq_some_iff.mp hentry
  obtain ⟨w, hw⟩ := firstText_mem_cells ha
  obtain ⟨h0, hmax⟩ := launch_cells_inMemory ht hw
  rw [ha, ← hrip, toInt_ofInt (decide_eq_true ⟨by omega, hmax⟩)]

/-- The bare form: place `k` of the data image followed by the text image is cell `k`. -/
theorem launch_cell_bare {data text : List Word} (h : r.image = .bare data text) (k : Nat) :
    t.mem.cell k = (data ++ text)[k]? := by
  obtain ⟨hheld, hnone⟩ := launch_mem ht
  rw [h] at hheld hnone
  cases hk : (data ++ text)[k]? with
  | some w => exact hheld (k, w) (mem_cells_bare.mpr ⟨k, hk, rfl⟩)
  | none =>
    refine hnone k fun x hx hxk => ?_
    obtain ⟨j, hj, hxj⟩ := mem_cells_bare.mp hx
    obtain rfl : j = k := Int.ofNat.inj (hxj.symm.trans hxk)
    exact nomatch hj.symm.trans hk

theorem launch_places_bare {data text : List Word} (h : r.image = .bare data text) :
    (∀ (k : Nat) (w : Word), data[k]? = some w → t.mem.cell k = some w) ∧
    (∀ (k : Nat) (w : Word), text[k]? = some w → t.mem.cell (data.length + k) = some w) ∧
    (∀ a, data.length + text.length ≤ a → t.mem.cell a = none) ∧
    (r.entry = none → text ≠ [] ∧ t.rip.toInt = (data.length : Int)) := by
  refine ⟨fun k w hk => ?_, fun k w hk => ?_, fun a ha => ?_, fun hentry => ?_⟩
  · rw [launch_cell_bare ht h, List.getElem?_append_left (List.getElem?_eq_some_iff.mp hk).1, hk]
  · rw [launch_cell_bare ht h, List.getElem?_append_right (Nat.le_add_right ..), Nat.add_sub_cancel_left, hk]
  · rw [launch_cell_bare ht h, List.getElem?_eq_none (List.length_append ▸ ha)]
  · exact firstText_bare.mp (h ▸ launch_rip_of_no_entry ht hentry)

theorem launch_places_listing {data text : List (Int × Word)} (h : r.image = .listing data text) :
    (∀ x, x ∈ data ∨ x ∈ text → 0 ≤ x.1 ∧ t.mem.cell x.1.toNat = some x.2) ∧
    (∀ a : Nat, (∀ w, ((a : Int), w) ∉ data ∧ ((a : Int), w) ∉ text) → t.mem.cell a = none) ∧
    (r.entry = none → ∃ x rest, text = x :: rest ∧ t.rip.toInt = x.1) := by
  obtain ⟨hheld, hnone⟩ := launch_mem ht
  have hcells {x : Int × Word} : x ∈ r.image.cells ↔ x ∈ data ∨ x ∈ text := by
    rw [h]
    exact List.mem_append
  refine ⟨fun x hx => ?_, fun a ha => hnone a ?_, fun hentry => ?_⟩
  · exact ⟨(launch_cells_inMemory ht (hcells.mpr hx)).1, hheld x (hcells.mpr hx)⟩
  · rintro ⟨-, w⟩ hx rfl
    obtain ⟨hdata, htext⟩ := ha w
    exact (hcells.mp hx).elim hdata htext
  · exact firstText_listing.mp (h ▸ launch_rip_of_no_entry ht hentry)

end

/-- Settles O58: the parameters, the entry given, and the two forms of the image, each with its default entry. -/
theorem launchPlacesImage : Obligations.LaunchPlacesImage := by
  intro r t ht
  refine ⟨?_, fun v => launch_rip_of_entry ht, fun data text => launch_places_bare ht,
    fun data text => launch_places_listing ht⟩
  rw [launch_params ht]
  exact ⟨rfl, rfl, rfl, rfl, rfl, rfl, rfl⟩

end Sys2Proof.Machine
end

section
/-! Progress (93_implementation_defined.md): the terminal conditions are statuses of next states. O14. -/

namespace Sys2Proof.Machine

/-- Settles O14: a failed fetch raises into a next state, `exec` answers one whatever the instruction, and an ended state
steps to itself. -/
theorem stepAlwaysAnswersNext : Obligations.StepAlwaysAnswersNext := step_answers

end Sys2Proof.Machine
end
